-- ==== Sys2Proof/Word.lean ====
section
/-! DEFINITION. The machine's words (rules R8, R9, R10). W is a parameter of the machine (rule R8), so a W-bit word is held by its
signed reading `sint(x)` of rule R10, an `Int` in `[-2^(W-1), 2^(W-1))`: each word has one such reading and each such integer
is one word's (log entry 1). The fields that rules R9, R61 and R64 cut out of a word are bit vectors. A program byte and an
input unit are 8-bit vectors (IN_W = 8). -/

namespace Sys2Proof

/-- A program byte (rule R60) or one input unit (rule R125). -/
abbrev Byte := BitVec 8

/-- The integer is the signed reading of some `w`-bit word (rule R10). -/
abbrev isWord (w : Nat) (x : Int) : Prop := -2 ^ (w - 1) ≤ x ∧ x < 2 ^ (w - 1)

end Sys2Proof
end

