-- ==== Sys2Proof/Syntax.lean ====
section
/-! DEFINITION. The einstrap instruction set as syntax (rules R2, R63, R80). An instruction carries the operation's RESOLVED
value `v`, a whole word: rule R81 gives an operation any word, and at the top level it is the byte's immediate (log entry 14).
Which instructions have a byte is said in WellFormed.lean. -/

namespace Sys2Proof

/-- The eight opcodes in the order of rule R63. `rep` is Repeat (the word itself is a keyword of Lean). -/
inductive Opcode where
  | push | pop | add | rep | extend | conditional | load | store
deriving DecidableEq, Repr

/-- One constructor for each row of the opcode table, with the operation's value `v` (rules R80, R81). -/
inductive Instr where
  /-- Push, rule R90. -/
  | push (v : Int)
  /-- Pop, rule R91. -/
  | pop (v : Int)
  /-- Add, rule R92. -/
  | add (v : Int)
  /-- Repeat, rule R100. -/
  | rep (v : Int)
  /-- Extend, rule R102. -/
  | extend (v : Int)
  /-- Conditional, rule R104. -/
  | conditional (v : Int)
  /-- Load, rule R120. -/
  | load (v : Int)
  /-- Store, rule R121. -/
  | store (v : Int)
deriving DecidableEq, Repr

/-- The operation `op` with the value `v`: what `execute(k, op, v)` of rule R80 is asked to run. -/
def Opcode.instr : Opcode → Int → Instr
  | .push, v => .push v
  | .pop, v => .pop v
  | .add, v => .add v
  | .rep, v => .rep v
  | .extend, v => .extend v
  | .conditional, v => .conditional v
  | .load, v => .load v
  | .store, v => .store v

/-- The opcode of an instruction. -/
def Instr.opcode : Instr → Opcode
  | .push _ => .push
  | .pop _ => .pop
  | .add _ => .add
  | .rep _ => .rep
  | .extend _ => .extend
  | .conditional _ => .conditional
  | .load _ => .load
  | .store _ => .store

/-- The value of an instruction. -/
def Instr.value : Instr → Int
  | .push v => v
  | .pop v => v
  | .add v => v
  | .rep v => v
  | .extend v => v
  | .conditional v => v
  | .load v => v
  | .store v => v

end Sys2Proof
end

