-- ==== Sys2Proof/WellFormed.lean ====
section
/-! DEFINITION. Which instructions a program byte can hold: those whose value fits the 5-bit immediate (rules R60, R62).
An instruction that is not well-formed still has its meaning: it is reached through a composition (rule R81). -/

namespace Sys2Proof

/-- The instruction has a byte: `0 <= v <= 31` (rule R62). -/
abbrev Instr.WellFormed (i : Instr) : Prop := 0 ≤ i.value ∧ i.value < 32

end Sys2Proof
end

