-- ==== Sys2Proof/Decode.lean ====
section
/-! DEFINITION. The word an integer stands for (rule R10), the decoder in its two modes (byte mode, rules R61 to R63; cell mode,
rule R64), and after it the encoder of rule R66, which no part of the machine calls. -/

namespace Sys2Proof

/-- `word(n)` of rule R10 in W = `w` bits: the word whose signed reading is congruent to `n` modulo `2^w`. -/
def wordOf (w : Nat) (n : Int) : Int := n.bmod (2 ^ w)

/-- Rule R63's numbering read from the three opcode bits; every value of the field is an opcode (rule R68). -/
def Opcode.ofBits (n : BitVec 3) : Opcode :=
  match n.toNat with
  | 0 => .push
  | 1 => .pop
  | 2 => .add
  | 3 => .rep
  | 4 => .extend
  | 5 => .conditional
  | 6 => .load
  | _ => .store

/-- Rule R61, `decode_byte`: op = b[2:0], imm = b[7:3]. -/
def decodeFields (b : Byte) : Opcode × BitVec 5 :=
  (Opcode.ofBits (b.extractLsb' 0 3), b.extractLsb' 3 5)

/-- The top-level instruction of a program byte: the value is the immediate zero-extended (rule R62). At every W the constraint
`W >= 9` of rule R8 allows, that word reads as the immediate itself. -/
def decodeByte (b : Byte) : Instr :=
  (decodeFields b).1.instr (decodeFields b).2.toNat

/-- Rule R64, `decode_cell`: op = d[2:0], imm = d >>s 3 over the whole word. An integer's right shift is arithmetic, so neither
needs W. -/
def decodeCell (d : Int) : Opcode × Int :=
  (Opcode.ofBits (BitVec.ofInt 3 d), d >>> (3 : Nat))

/-- Why a list of bytes gives no instruction. -/
inductive DecodeRefusal where
  /-- There is no byte to decode. No other case exists: every byte is an instruction (rule R68). -/
  | noByte
deriving DecidableEq, Repr

/-- The decoder on a list of bytes: the instruction and the bytes after it. Each instruction is one byte (rule R60). -/
def decode : List Byte → Except DecodeRefusal (Instr × List Byte)
  | [] => .error .noByte
  | b :: rest => .ok (decodeByte b, rest)

/-- The instruction the decoder reads from the `nbits` table bits `w`, every higher bit 0. -/
def decodeTableWord (nbits w : Nat) : Option Instr :=
  match decode [BitVec.ofNat 8 (w % 2 ^ nbits)] with
  | .ok (i, _) => some i
  | .error _ => none

/-- The opcode's number in rule R63's table. -/
def Opcode.num : Opcode → Nat
  | .push => 0
  | .pop => 1
  | .add => 2
  | .rep => 3
  | .extend => 4
  | .conditional => 5
  | .load => 6
  | .store => 7

/-- The encoder's one failure (rules R66, R162). The engine never raises it. -/
inductive EncodeRefusal where
  /-- The opcode or the immediate does not fit its field. -/
  | immediateOutOfRange
deriving DecidableEq, Repr

/-- Rule R66, `encode(op, imm)` on integers. -/
def encodeFields (op imm : Int) : Except EncodeRefusal Byte :=
  if op < 0 ∨ op > 7 ∨ imm < 0 ∨ imm > 31 then .error .immediateOutOfRange
  else .ok (BitVec.ofInt 8 (imm * 8 + op))

/-- The byte of a well-formed instruction; an instruction whose value fits no immediate is refused by name. -/
def encode (i : Instr) : Except EncodeRefusal Byte :=
  encodeFields i.opcode.num i.value

/-- Rule R66's `desc(Op, k)` in W = `w` bits: the descriptor cell `word(k * 8 + opnum(Op))`. -/
def descriptor (w : Nat) (op : Opcode) (k : Int) : Int :=
  wordOf w (k * 8 + op.num)

end Sys2Proof
end

