-- ==== Sys2Proof/Config.lean ====
section
/-! DEFINITION. The implementation parameters of rule R8 that the spec leaves to each machine. They are one record of
plain data; every state carries one, no step changes it, and a statement about every state is therefore a statement about
every value of the parameters, the cell width W among them (log entry 2). -/

namespace Sys2Proof.Config

/-- The parameters of rule R8 (IN_W is fixed in Word.lean, L is the length of the program). -/
structure Params where
  /-- W, the width in bits of a stack cell, a memory cell, an operation value and the stack pointer. -/
  width : Nat
  /-- STACK_CAP, the number of stack cells. -/
  stackCap : Nat
  /-- MEM_CAP, the number of data-memory cells. -/
  memCap : Nat
  /-- MAX_DEPTH, the deepest level an inner dispatch may reach; `none` is the spec's `inf`. -/
  maxDepth : Option Nat
deriving DecidableEq, Repr

/-- Rule R8's constraints: `W >= 9`, `1 <= STACK_CAP < 2^(W-1) - 1` and `1 <= MEM_CAP < 2^(W-1)`. -/
abbrev Params.wf (p : Params) : Prop :=
  9 ≤ p.width ∧ 1 ≤ p.stackCap ∧ p.stackCap < 2 ^ (p.width - 1) - 1 ∧ 1 ≤ p.memCap ∧ p.memCap < 2 ^ (p.width - 1)

/-- Rule R82: depth `k` may be entered, i.e. not `MAX_DEPTH != inf and k > MAX_DEPTH`. -/
def Params.allowsDepth (p : Params) (k : Nat) : Bool :=
  match p.maxDepth with
  | none => true
  | some d => decide (k ≤ d)

/-- Rule R8's values: W = 32 and the reference capacities; MAX_DEPTH is OPEN and `inf` is the source's reference behaviour
(rule R84). DESIGN CHOICE: which value of each parameter the state after reset carries (log entry 2). -/
def Params.reference : Params := { width := 32, stackCap := 100, memCap := 1000, maxDepth := none }

end Sys2Proof.Config
end

