-- ==== Sys2Proof/Machine/State.lean ====
section
/-! DEFINITION. The machine's state as plain data (rules R20 to R37, R147, R148, R150), the reasons a step could stop, and
the state after reset (rule R36). -/

namespace Sys2Proof.Machine

/-- A cell array: (index, word) pairs in the canonical form that `Memory.wf` (Ops.lean) states. The operand stack and the data
memory are both held so; an unlisted index reads `Memory.unlisted`. A cell is a whole word (rules R22, R45; log entry 4). -/
abbrev Memory := List (Nat × Int)

/-- The field STATE of STATUS (rule R29). Its reserved code 3 is never written, so it has no constructor. -/
inductive RunState where
  | running | success | fault
deriving DecidableEq, Repr

/-- The field CAUSE of STATUS: the fault causes of rule R161. The reserved codes 6 and 7 are never written. -/
inductive Cause where
  | none | stackUnderflow | stackOverflow | memoryOutOfRange | endOfInput | nestingDepthExceeded
deriving DecidableEq, Repr

/-- The status register by its fields (rule R29; log entry 3). The word the host reads is `Status.word` (Flags.lean). -/
structure Status where
  state : RunState
  waitIn : Bool
  cause : Cause
deriving DecidableEq, Repr

/-- What a fault reports: its cause and the information of rule R164; a register not named there is 0. -/
structure FaultReport where
  cause : Cause
  index : Int := 0
  addr : Int := 0
  depth : Nat
deriving DecidableEq, Repr

/-- The states of the interpreter FSM, rule R147's table. -/
inductive Phase where
  | fetch | exec | waitIn | waitOut | resume | check | done | fault
deriving DecidableEq, Repr

/-- A Repeat frame `(k, iop, v, rem)` of the control stack (rules R32, R148). -/
structure Frame where
  /-- The depth `k` of the Repeat itself; its iterations run at `k + 1`. -/
  depth : Nat
  op : Opcode
  value : Int
  remaining : Int
deriving DecidableEq, Repr

/-- What the input host does at one poll before its stream ends (rules R125, R127). -/
inductive InputEvent where
  /-- No answer yet. -/
  | silent
  /-- The next byte of the stream. -/
  | byte (b : Byte)
deriving DecidableEq, Repr

/-- What the input host does at every poll after its listed events (log entry 6). -/
inductive InputTail where
  /-- The stream is over (rule R33: "after its last byte the port reports end-of-input"). -/
  | endOfInput
  /-- It never answers again (rule R127). -/
  | silent
deriving DecidableEq, Repr

/-- The host's side of the input port (rule R33): one event for each poll, oldest first. -/
structure InputPort where
  events : List InputEvent
  tail : InputTail
deriving DecidableEq, Repr

/-- What the output sink does at one poll (rule R128). -/
inductive SinkEvent where
  | takes | busy
deriving DecidableEq, Repr

/-- The host's side of the output port (rules R33, R128): what the sink does at each poll, what it does at every poll after
those, and the output log, oldest word first. -/
structure OutputPort where
  events : List SinkEvent
  tail : SinkEvent
  log : List Int
deriving DecidableEq, Repr

/-- The whole machine: the engine's state of rule R20 with its FSM (rules R147, R148), the parameters it was built with, and
what stands at its ports (rules R33, R150). -/
structure State where
  /-- The operand stack (rule R22). -/
  stk : Memory
  /-- The stack pointer, the index of the last occupied slot (rule R23). -/
  top : Int
  /-- The data memory (rule R31). -/
  mem : Memory
  /-- The program index (rule R26). -/
  pc : Nat
  /-- STATUS (rule R29). -/
  status : Status
  /-- FAULT_PC (rule R30). -/
  faultPc : Nat
  /-- FAULT_INDEX (rule R30). -/
  faultIndex : Int
  /-- FAULT_ADDR (rule R30). -/
  faultAddr : Int
  /-- FAULT_DEPTH (rule R30). -/
  faultDepth : Nat
  /-- The FSM's state (rule R147). -/
  phase : Phase
  /-- The operation to perform, `cur` of rule R148; its depth is `depth`. -/
  cur : Option Instr
  /-- The current nesting depth `k` (rules R32, R83). -/
  depth : Nat
  /-- The control stack `F` of Repeat frames, the innermost first (rules R32, R148). -/
  frames : List Frame
  /-- The parameters of rule R8; no step changes them (log entry 2). -/
  params : Config.Params
  /-- The program's bytes; `L` is their number (rule R27). -/
  program : List Byte
  /-- The input port (rules R33, R125). -/
  input : InputPort
  /-- The output port (rules R33, R128). -/
  output : OutputPort
  /-- The host has asserted reset and the engine has not served it yet (rules R150, R180; log entry 8). -/
  rst : Bool
deriving DecidableEq, Repr

/-- W, the machine's cell width (rule R8). -/
abbrev State.width (s : State) : Nat := s.params.width

/-- The interface's faults: none. Every fault of the engine is an entry the spec describes (rule R163) and is taken as a next
state, and no instruction is without an effect, so no meaning and no step stops with a fault. Safe: nothing raises one
(log entry 12). -/
inductive Fault where
deriving DecidableEq, Repr

/-- The interface's refusals. -/
inductive Refusal where
  /-- Raised by `exec` for an instruction that has no meaning yet; no arm of this model does. Safe: the machine stops. -/
  | notModelled (mnemonic : String)
deriving DecidableEq, Repr

/-- The state right after reset (rule R36). The engine's own fields have the spec's values; what the host presents at the
ports and the parameters are the model's choice (log entries 2, 6, 7, 8 and 13). -/
def State.reset : State where
  stk := []
  top := 0
  mem := []
  pc := 0
  status := { state := .running, waitIn := false, cause := .none }
  faultPc := 0
  faultIndex := 0
  faultAddr := 0
  faultDepth := 0
  phase := .fetch
  cur := none
  depth := 0
  frames := []
  params := Config.Params.reference
  program := []
  input := { events := [], tail := .endOfInput }
  output := { events := [], tail := .takes, log := [] }
  rst := false

end Sys2Proof.Machine
end

