-- ==== Sys2Proof/Machine/Ops.lean ====
section
/-! DEFINITION. The named operations over the cell arrays, the stack pointer and the ports, and taking a fault: the primitives
of rule R11 with the checks of rules R41 to R46, and `raise` of rule R163. An operation that can fault answers the report;
its caller raises it on the state of that moment (rule R166). -/

namespace Sys2Proof.Machine

/-! ### Cell arrays -/

/-- What an unlisted cell reads as: the reset content of every stack and memory cell (rules R22, R31). -/
def Memory.unlisted : Int := 0

/-- The word in cell `a`. -/
def Memory.read : Memory → Nat → Int
  | [], _ => Memory.unlisted
  | (b, x) :: m, a => if a = b then x else Memory.read m a

/-- Set cell `a` to `x`, keeping the canonical form: writing what an unlisted cell reads as removes the entry. -/
def Memory.write : Memory → Nat → Int → Memory
  | [], a, x => if x = Memory.unlisted then [] else [(a, x)]
  | (b, y) :: m, a, x =>
    if a < b then
      if x = Memory.unlisted then (b, y) :: m else (a, x) :: (b, y) :: m
    else if a = b then
      if x = Memory.unlisted then m else (a, x) :: m
    else (b, y) :: Memory.write m a x

/-- The canonical form: indexes strictly rising, no entry equal to what an unlisted cell reads as. -/
def Memory.wf : Memory → Bool
  | [] => true
  | (a, x) :: m => decide (x ≠ Memory.unlisted) && m.all (fun c => decide (a < c.1)) && Memory.wf m

/-- Every listed index is below `cap`, the number of cells the array has. -/
def Memory.within (m : Memory) (cap : Nat) : Bool := m.all (fun c => decide (c.1 < cap))

/-! ### Words -/

/-- The machine's word for the integer `n` (rule R10): every sum and difference of words is one, modulo `2^W`. -/
abbrev State.wrap (s : State) (n : Int) : Int := wordOf s.width n

/-! ### Range checks -/

/-- Rule R41's signed range check of a stack index, with the fault of rules R42 and R43 that refuses it. -/
def indexFault (cap : Nat) (i : Int) : Option Cause :=
  if i < 0 then some .stackUnderflow
  else if (cap : Int) ≤ i then some .stackOverflow
  else none

/-- Rule R46's signed range check of a memory address: whether it is refused. -/
def addressRefused (cap : Nat) (a : Int) : Bool :=
  decide (a < 0) || decide ((cap : Int) ≤ a)

/-! ### The stack-access controller -/

/-- Write the stack pointer (rule R44: never faults by itself). -/
def State.setTop (s : State) (x : Int) : State := { s with top := x }

/-- Rule R42, `StackRead(i)`, by an operation at depth `k`. -/
def State.stackRead (s : State) (k : Nat) (i : Int) : Except FaultReport Int :=
  match indexFault s.params.stackCap i with
  | some c => .error { cause := c, index := i, depth := k }
  | none => .ok (Memory.read s.stk i.toNat)

/-- Rule R43, `StackWrite(i, x)`, by an operation at depth `k`. -/
def State.stackWrite (s : State) (k : Nat) (i x : Int) : Except FaultReport State :=
  match indexFault s.params.stackCap i with
  | some c => .error { cause := c, index := i, depth := k }
  | none => .ok { s with stk := Memory.write s.stk i.toNat x }

/-! ### The data memory -/

/-- Rules R46 and R47, `MemCheck(a)` and then `MemRead(a, 1)`, by an operation at depth `k`. -/
def State.memRead (s : State) (k : Nat) (a : Int) : Except FaultReport Int :=
  if addressRefused s.params.memCap a then .error { cause := .memoryOutOfRange, addr := a, depth := k }
  else .ok (Memory.read s.mem a.toNat)

/-- Rules R46 and R47, `MemCheck(a)` and then `MemWrite(a, 1, x)`, by an operation at depth `k`. -/
def State.memWrite (s : State) (k : Nat) (a x : Int) : Except FaultReport State :=
  if addressRefused s.params.memCap a then .error { cause := .memoryOutOfRange, addr := a, depth := k }
  else .ok { s with mem := Memory.write s.mem a.toNat x }

/-! ### The ports -/

/-- The input host's answer to one poll (rules R125 to R127). -/
inductive InputAnswer where
  | silent
  | byte (b : Byte)
  | endOfInput
deriving DecidableEq, Repr

/-- One poll of the input port: the answer, and the port after it. A byte is delivered once (rule R125). -/
def InputPort.poll (p : InputPort) : InputAnswer × InputPort :=
  match p.events with
  | [] =>
    match p.tail with
    | .endOfInput => (.endOfInput, p)
    | .silent => (.silent, p)
  | .silent :: es => (.silent, { p with events := es })
  | .byte b :: es => (.byte b, { p with events := es })

/-- One poll of the output sink with the word `x` on offer (rule R128): whether it takes the word, and the port after it. -/
def OutputPort.offer (p : OutputPort) (x : Int) : Bool × OutputPort :=
  match p.events with
  | [] =>
    match p.tail with
    | .takes => (true, { p with log := p.log ++ [x] })
    | .busy => (false, p)
  | .takes :: es => (true, { p with events := es, log := p.log ++ [x] })
  | .busy :: es => (false, { p with events := es })

/-! ### Taking a fault, and what an operation unit answers -/

/-- Rule R163, `raise`: STATUS and the fault-information registers are written, the FSM enters FAULT and the control stack is
abandoned (log entry 9). The stack, `top`, the memory, `pc` and the ports keep what they hold. There is no return from a
fault (rule R168); reset is the only way out (`State.applyReset`, Control.lean). -/
def State.raise (s : State) (r : FaultReport) : State :=
  { s with
    status := { state := .fault, waitIn := false, cause := r.cause }
    faultPc := s.pc
    faultIndex := r.index
    faultAddr := r.addr
    faultDepth := r.depth
    phase := .fault
    cur := none
    depth := 0
    frames := [] }

/-- How one operation ends: it completed, it raised a fault, or it waits on a port. Each carries the state it left. -/
inductive UnitResult where
  | done (s : State)
  | raised (s : State)
  | waiting (s : State)
deriving DecidableEq, Repr

/-- The operation is over and no other is chosen yet: `cur <- none` of rule R148. -/
def State.retire (s : State) : State := { s with phase := .exec, cur := none }

/-- What the FSM makes of an operation's end (rule R147, state EXEC). -/
def UnitResult.outcome : UnitResult → Host.Outcome State Fault Refusal
  | .done s => .next s.retire
  | .raised s => .next s
  | .waiting s => .next s

end Sys2Proof.Machine
end

