-- ==== Sys2Proof/Machine/Operands.lean ====
section
/-! DEFINITION. The operand forms: every operand is the operation's value, the cell at `top`, a memory cell at a formed address,
or a descriptor cell (rules R21, R48, R49, R71, R85). -/

namespace Sys2Proof.Machine

/-- `(v << 8) | x` in W = `w` bits: the address of a memory Load (rule R48) and the value an Extend passes (rule R102). -/
def widen (w : Nat) (v x : Int) : Int := ((BitVec.ofInt w v <<< 8) ||| BitVec.ofInt w x).toInt

/-- Rule R48: the address of `Load(v)`, `v != 0`, with `s = stk[top]`. -/
def loadAddress (w : Nat) (v s : Int) : Int := widen w v s

/-- Rule R49: the address of `Store(v)`, `v != 0`. -/
def storeAddress (v : Int) : Int := v

/-- Rules R120, R125: the word an input byte becomes, zero-extended. At every W that rule R8 allows it reads as the byte. -/
def inputWord (b : Byte) : Int := b.toNat

/-- Rule R85, the shared start of a composition at depth `k`: read the descriptor at `top`, pop it, decode it. -/
def State.popDescriptor (s : State) (k : Nat) : Except FaultReport ((Opcode × Int) × State) :=
  match s.stackRead k s.top with
  | .error r => .error r
  | .ok d => .ok (decodeCell d, s.setTop (s.wrap (s.top - 1)))

end Sys2Proof.Machine
end

