-- ==== Sys2Proof/Machine/Control.lean ====
section
/-! DEFINITION. The interpreter FSM's own work around an operation (rules R82, R140 to R148, R180): fetching, entering an inner
operation, resuming a Repeat, the top-level check, the end of a run, reset. -/

namespace Sys2Proof.Machine

/-- Rule R141, `Fetch(pc)`: the program byte at `pc`, or nothing when `pc` is not below `L`. -/
def State.fetchByte (s : State) : Option Byte := s.program[s.pc]?

/-- Rule R147, state FETCH: the top-level instruction `i` becomes the current operation at depth 0, `F` is empty. -/
def State.beginInstr (s : State) (i : Instr) : State :=
  { s with phase := .exec, cur := some i, depth := 0, frames := [] }

/-- Rules R82 and R148, an inner dispatch from depth `k`: NestingDepthExceeded, or `op` with value `v` becomes the current
operation at depth `k + 1`. -/
def State.dispatch (s : State) (k : Nat) (op : Opcode) (v : Int) : State :=
  if s.params.allowsDepth (k + 1) then
    { s with phase := .exec, cur := some (op.instr v), depth := k + 1 }
  else s.raise { cause := .nestingDepthExceeded, depth := k + 1 }

/-- Rule R148: push a Repeat frame on `F`. -/
def State.pushFrame (s : State) (f : Frame) : State := { s with frames := f :: s.frames }

/-- Rule R143 and then R144: `top` is tested; out of range it raises a fault that records depth 0 (rule R164), in range the
instruction is finished and `pc` advances. -/
def State.topLevelCheck (s : State) : State :=
  match indexFault s.params.stackCap s.top with
  | some c => s.raise { cause := c, index := s.top, depth := 0 }
  | none => { s with pc := s.pc + 1, phase := .fetch }

/-- Rule R147, state RESUME with `F` empty: the instruction's operations are over. -/
def State.leaveFrames (s : State) : State :=
  { s with phase := .check, cur := none, depth := 0, frames := [] }

/-- Rule R148, state RESUME with head frame `f` whose count is positive: one more iteration is dispatched. -/
def State.iterate (s : State) (f : Frame) (rest : List Frame) : State :=
  ({ s with frames := { f with remaining := f.remaining - 1 } :: rest }).dispatch f.depth f.op f.value

/-- Rule R148's RESUME loop over the frames `F`: drop the frames whose count is used up; then either the next iteration is
dispatched or, with `F` empty, the top-level check is made. -/
def State.resumeFrames (s : State) : List Frame → State
  | [] => s.leaveFrames.topLevelCheck
  | f :: rest => if 0 < f.remaining then s.iterate f rest else s.resumeFrames rest

/-- The FSM's states RESUME and CHECK, run until it would fetch, perform an operation, wait or stop (log entry 5). -/
def State.settle (s : State) : State :=
  match s.phase with
  | .exec | .waitIn | .waitOut =>
    match s.cur with
    | some _ => s
    | none => s.resumeFrames s.frames
  | .resume => s.resumeFrames s.frames
  | .check => s.topLevelCheck
  | .fetch | .done | .fault => s

/-- Rule R145: the whole program is consumed. -/
def State.succeed (s : State) : State :=
  { s with status := { s.status with state := .success }, phase := .done }

/-- Rule R180: reset, asserted at any time. The engine's own state takes the values of rule R36 and the request is served; the
parameters, the program and the ports are the host's and stay (log entry 8). -/
def State.applyReset (s : State) : State :=
  { State.reset with params := s.params, program := s.program, input := s.input, output := s.output }

/-- An operation's outcome, carried on through RESUME and CHECK (log entry 5). -/
def thenSettle : Host.Outcome State Fault Refusal → Host.Outcome State Fault Refusal
  | .next s => .next s.settle
  | .fault r => .fault r
  | .refused r => .refused r

/-- The program with byte `b` at index `n`; indexes between its end and `n` are filled with zero bytes (log entry 13). -/
def placeByte (p : List Byte) (n : Nat) (b : Byte) : List Byte :=
  p.take n ++ List.replicate (n - p.length) 0 ++ b :: p.drop (n + 1)

end Sys2Proof.Machine
end

