-- ==== Sys2Proof/Machine/Composition.lean ====
section
/-! DEFINITION. Repeat, Extend and Conditional (rules R85, R100 to R105) as the FSM of rule R148 runs them: each pops its
descriptor; Repeat then leaves a frame whose iterations the state RESUME dispatches, Extend and Conditional choose the inner
operation at once. The recursive pseudocode of the same rules is in Recursive.lean. -/

namespace Sys2Proof.Machine

/-- `Repeat(v)`, rule R100 as rule R148 case 3. -/
def execRepeat (v : Int) (s : State) : Host.Outcome State Fault Refusal :=
  match s.popDescriptor s.depth with
  | .error r => .next (s.raise r)
  | .ok ((iop, n), s1) => .next (s1.pushFrame { depth := s.depth, op := iop, value := v, remaining := n }).retire

/-- `Extend(v)`, rule R102 as rule R148 case 4. -/
def execExtend (v : Int) (s : State) : Host.Outcome State Fault Refusal :=
  match s.popDescriptor s.depth with
  | .error r => .next (s.raise r)
  | .ok ((iop, t), s1) => .next (s1.dispatch s.depth iop (widen s.width v t))

/-- `Conditional(v)`, rule R104 as rule R148 case 5. -/
def execConditional (v : Int) (s : State) : Host.Outcome State Fault Refusal :=
  match s.popDescriptor s.depth with
  | .error r => .next (s.raise r)
  | .ok ((iop, g), s1) =>
    if 0 < g then .next (s1.dispatch s.depth iop v) else .next s1.retire

end Sys2Proof.Machine
end

