-- ==== Sys2Proof/Machine/LoadStore.lean ====
section
/-! DEFINITION. Load and Store with the input and output hooks (rules R120 to R129). The path is chosen by the whole word `v`
(rule R51). A unit that waits on a port is run again at the next step, from the same engine state (log entry 15). -/

namespace Sys2Proof.Machine

/-- Rule R120, the memory path of `exec_Load(k, v)`. -/
def loadMemory (k : Nat) (v : Int) (s : State) : UnitResult :=
  match s.stackRead k s.top with
  | .error r => .raised (s.raise r)
  | .ok x =>
    match s.memRead k (loadAddress s.width v x) with
    | .error r => .raised (s.raise r)
    | .ok y =>
      match s.stackWrite k s.top y with
      | .error r => .raised (s.raise r)
      | .ok s1 => .done s1

/-- Rule R127: the input host has not answered; WAIT_IN is set and nothing else of the engine changes. -/
def State.awaitInput (s : State) (p : InputPort) : State :=
  { s with input := p, status := { s.status with waitIn := true }, phase := .waitIn }

/-- Rule R127: the answer has arrived; WAIT_IN is cleared. -/
def State.inputAnswered (s : State) (p : InputPort) : State :=
  { s with input := p, status := { s.status with waitIn := false } }

/-- Rule R120, the input path of `exec_Load(k, v)`, with `InputRead()` of rules R125 to R127. -/
def loadInput (k : Nat) (s : State) : UnitResult :=
  match s.stackRead k s.top with
  | .error r => .raised (s.raise r)
  | .ok _ =>
    match s.input.poll with
    | (.silent, p) => .waiting (s.awaitInput p)
    | (.endOfInput, p) => .raised ((s.inputAnswered p).raise { cause := .endOfInput, depth := k })
    | (.byte b, p) =>
      match (s.inputAnswered p).stackWrite k s.top (inputWord b) with
      | .error r => .raised ((s.inputAnswered p).raise r)
      | .ok s1 => .done s1

/-- Rule R120, `exec_Load(k, v)`. -/
def loadUnit (k : Nat) (v : Int) (s : State) : UnitResult :=
  if v ≠ 0 then loadMemory k v s else loadInput k s

/-- Rule R121, `exec_Store(k, v)`, with `OutputWrite(x)` of rules R128 and R129. -/
def storeUnit (k : Nat) (v : Int) (s : State) : UnitResult :=
  match s.stackRead k s.top with
  | .error r => .raised (s.raise r)
  | .ok x =>
    if v ≠ 0 then
      match s.memWrite k (storeAddress v) x with
      | .error r => .raised (s.raise r)
      | .ok s1 => .done (s1.setTop (s1.wrap (s1.top - 1)))
    else
      match s.output.offer x with
      | (false, p) => .waiting { s with output := p, phase := .waitOut }
      | (true, p) => .done { s with output := p, top := s.wrap (s.top - 1) }

/-- `Load(v)`, rule R120. -/
def execLoad (v : Int) (s : State) : Host.Outcome State Fault Refusal := (loadUnit s.depth v s).outcome

/-- `Store(v)`, rule R121. -/
def execStore (v : Int) (s : State) : Host.Outcome State Fault Refusal := (storeUnit s.depth v s).outcome

end Sys2Proof.Machine
end

