-- ==== Sys2Proof/Machine/StackOps.lean ====
section
/-! DEFINITION. Push, Pop and Add (rules R90 to R92). A unit is the pseudocode `exec_X(k, v)` at depth `k`; `execX` is that unit
as the FSM runs it, at the state's depth. -/

namespace Sys2Proof.Machine

/-- Rule R90, `exec_Push(k, v)`. -/
def pushUnit (k : Nat) (v : Int) (s : State) : UnitResult :=
  let s1 := s.setTop (s.wrap (s.top + 1))
  match s1.stackWrite k s1.top v with
  | .error r => .raised (s1.raise r)
  | .ok s2 => .done s2

/-- Rule R91, `exec_Pop(k, v)`: no cell is accessed and nothing is checked. -/
def popUnit (v : Int) (s : State) : UnitResult := .done (s.setTop (s.wrap (s.top - v)))

/-- Rule R92, `exec_Add(k, v)`. -/
def addUnit (k : Nat) (v : Int) (s : State) : UnitResult :=
  match s.stackRead k s.top with
  | .error r => .raised (s.raise r)
  | .ok x =>
    match s.stackWrite k s.top (s.wrap (x + v)) with
    | .error r => .raised (s.raise r)
    | .ok s1 => .done s1

/-- `Push(v)`, rule R90. -/
def execPush (v : Int) (s : State) : Host.Outcome State Fault Refusal := (pushUnit s.depth v s).outcome

/-- `Pop(v)`, rule R91. -/
def execPop (v : Int) (s : State) : Host.Outcome State Fault Refusal := (popUnit v s).outcome

/-- `Add(v)`, rule R92. -/
def execAdd (v : Int) (s : State) : Host.Outcome State Fault Refusal := (addUnit s.depth v s).outcome

end Sys2Proof.Machine
end

