-- ==== Sys2Proof/Machine/Dispatch.lean ====
section
/-! DEFINITION. The dispatch multiplexer of rule R80: one arm for each opcode, chosen by the opcode alone. The depth `k` is the
state's `depth`. -/

namespace Sys2Proof.Machine

def exec (i : Instr) (s : State) : Host.Outcome State Fault Refusal :=
  match i with
  | .push v => Sys2Proof.Machine.execPush v s
  | .pop v => Sys2Proof.Machine.execPop v s
  | .add v => Sys2Proof.Machine.execAdd v s
  | .rep v => Sys2Proof.Machine.execRepeat v s
  | .extend v => Sys2Proof.Machine.execExtend v s
  | .conditional v => Sys2Proof.Machine.execConditional v s
  | .load v => Sys2Proof.Machine.execLoad v s
  | .store v => Sys2Proof.Machine.execStore v s

end Sys2Proof.Machine
end

