-- ==== Sys2Proof/Machine/Step.lean ====
section
/-! DEFINITION. One step of the machine: one operation, with the FSM's own work around it (log entry 5). -/

namespace Sys2Proof.Machine

/-- One step. A pending reset is served first (rule R180). Otherwise the FSM of rule R147 goes on from its state: FETCH takes the
next program byte and performs its operation, or ends the run; EXEC performs the current operation; WAIT_IN and WAIT_OUT make
the transaction of the waiting operation again; RESUME and CHECK follow within the step; DONE and FAULT do nothing more. -/
def step (s : State) : Host.Outcome State Fault Refusal :=
  if s.rst then .next s.applyReset
  else
    match s.phase with
    | .fetch =>
      match s.fetchByte with
      | none => .next s.succeed
      | some b => thenSettle (exec (decodeByte b) (s.beginInstr (decodeByte b)))
    | .exec | .waitIn | .waitOut =>
      match s.cur with
      | some i => thenSettle (exec i s)
      | none => .next s.settle
    | .resume | .check => .next s.settle
    | .done | .fault => .next s

/-- `n` steps, stopping at the first that does not answer a next state: the host's `Core.run` of this machine. -/
def runSteps : Nat → State → Host.Outcome State Fault Refusal
  | 0, s => .next s
  | n + 1, s =>
    match step s with
    | .next s1 => runSteps n s1
    | .fault r => .fault r
    | .refused r => .refused r

/-- The state `s` about to fetch the instruction whose bits are `w` (log entry 13): its byte stands in the program at `pc`, the
FSM is in FETCH and no reset is pending. -/
def State.withFetchWord (s : State) (nbits w : Nat) : State :=
  { s with program := placeByte s.program s.pc (BitVec.ofNat 8 (w % 2 ^ nbits)), phase := .fetch, rst := false }

end Sys2Proof.Machine
end

