-- ==== Sys2Proof/Machine/Fsm.lean ====
section
/-! DEFINITION. The interpreter FSM of rule R147 state by state: `fsmStep` is ONE transition of that table. The machine's `step`
(Step.lean) takes several of them at once; that they are these is a statement (`Obligations.StepIsARunOfFsmTransitions`). -/

namespace Sys2Proof.Machine

/-- Rule R148, state RESUME: one turn of its loop. -/
def State.fsmResume (s : State) : State :=
  match s.frames with
  | [] => s.leaveFrames
  | f :: rest =>
    if 0 < f.remaining then s.iterate f rest
    else { s with frames := rest, phase := .exec, cur := none }

/-- Rule R148, states EXEC, WAIT_IN and WAIT_OUT: perform the current operation (a waiting one makes its transaction again), or
go to RESUME when there is none. -/
def fsmPerform (s : State) : Host.Outcome State Fault Refusal :=
  match s.cur with
  | some i => exec i s
  | none => .next { s with phase := .resume }

/-- One transition of rule R147's table; a pending reset comes first (rule R180). -/
def fsmStep (s : State) : Host.Outcome State Fault Refusal :=
  if s.rst then .next s.applyReset
  else
    match s.phase with
    | .fetch =>
      match s.fetchByte with
      | none => .next s.succeed
      | some b => .next (s.beginInstr (decodeByte b))
    | .exec | .waitIn | .waitOut => fsmPerform s
    | .resume => .next s.fsmResume
    | .check => .next s.topLevelCheck
    | .done | .fault => .next s

/-- `n` transitions of the table. -/
def fsmRun : Nat → State → Host.Outcome State Fault Refusal
  | 0, s => .next s
  | n + 1, s =>
    match fsmStep s with
    | .next s1 => fsmRun n s1
    | .fault r => .fault r
    | .refused r => .refused r

end Sys2Proof.Machine
end

