-- ==== Sys2Proof/Machine/Flags.lean ====
section
/-! DEFINITION. The engine has no flags, condition codes or predicates (rule R28), so no operation computes one. What it has in
their place is the STATUS register of rule R29: here is the word the host reads on the status port (rule R150), and the
codes of its fields. -/

namespace Sys2Proof.Machine

/-- The codes of the field STATE (rule R29). -/
def RunState.code : RunState → BitVec 2
  | .running => 0
  | .success => 1
  | .fault => 2

/-- The codes of the field CAUSE (rule R161). -/
def Cause.code : Cause → BitVec 3
  | .none => 0
  | .stackUnderflow => 1
  | .stackOverflow => 2
  | .memoryOutOfRange => 3
  | .endOfInput => 4
  | .nestingDepthExceeded => 5

/-- STATUS as the host reads it, 32 bits whatever W is (rule R29): bits 31:6 zero, CAUSE 5:3, WAIT_IN 2, STATE 1:0. -/
def Status.word (st : Status) : BitVec 32 :=
  (0#26) ++ st.cause.code ++ BitVec.ofBool st.waitIn ++ st.state.code

end Sys2Proof.Machine
end

