-- ==== Sys2Proof/Machine/Recursive.lean ====
section
/-! DEFINITION. The recursive pseudocode of rules R80, R82, R85, R100 to R104 and R140, which rule R149 calls normative: `execute`
and `interpret` as functions on states. A run need not end (rules R86, R151), so both take fuel and answer `none` when it
is used up (log entry 17). They do not touch the FSM's control state, which `State.arch` removes. -/

namespace Sys2Proof.Machine

/-- The state without the FSM's control fields: what the recursive pseudocode speaks of. -/
def State.arch (s : State) : State := { s with phase := .fetch, cur := none, depth := 0, frames := [] }

/-- Rule R100's loop: run the body `n` times in order (rule R101); a body that faults ends it. -/
def repeatLoop (body : State → Option UnitResult) : Nat → State → Option UnitResult
  | 0, s => some (.done s)
  | n + 1, s =>
    match body s with
    | some (.done s1) => repeatLoop body n s1
    | r => r

/-- Rule R82, `Dispatch(k, iop, v')`, over the recursive call `call`. -/
def dispatchCall (call : Nat → Opcode → Int → State → Option UnitResult) (k : Nat) (iop : Opcode) (v : Int) (s : State) :
    Option UnitResult :=
  if s.params.allowsDepth (k + 1) then call (k + 1) iop v s
  else some (.raised (s.raise { cause := .nestingDepthExceeded, depth := k + 1 }))

/-- Rule R80, `execute(k, op, v)`. A Load or Store whose port has not answered asks again: `InputRead()` and `OutputWrite(x)`
block (rules R127, R128). -/
def execute : Nat → Nat → Opcode → Int → State → Option UnitResult
  | 0, _, _, _, _ => none
  | _ + 1, k, .push, v, s => some (pushUnit k v s)
  | _ + 1, _, .pop, v, s => some (popUnit v s)
  | _ + 1, k, .add, v, s => some (addUnit k v s)
  | fuel + 1, k, .rep, v, s =>
    match s.popDescriptor k with
    | .error r => some (.raised (s.raise r))
    | .ok ((iop, n), s1) => repeatLoop (dispatchCall (execute fuel) k iop v) n.toNat s1
  | fuel + 1, k, .extend, v, s =>
    match s.popDescriptor k with
    | .error r => some (.raised (s.raise r))
    | .ok ((iop, t), s1) => dispatchCall (execute fuel) k iop (widen s.width v t) s1
  | fuel + 1, k, .conditional, v, s =>
    match s.popDescriptor k with
    | .error r => some (.raised (s.raise r))
    | .ok ((iop, g), s1) =>
      if 0 < g then dispatchCall (execute fuel) k iop v s1 else some (.done s1)
  | fuel + 1, k, .load, v, s =>
    match loadUnit k v s with
    | .waiting s1 => execute fuel k .load v s1
    | r => some r
  | fuel + 1, k, .store, v, s =>
    match storeUnit k v s with
    | .waiting s1 => execute fuel k .store v s1
    | r => some r

/-- Rule R140, `interpret()`, from the state `s`. -/
def interpret : Nat → State → Option State
  | 0, _ => none
  | fuel + 1, s =>
    match s.fetchByte with
    | none => some s.succeed
    | some b =>
      match execute fuel 0 (decodeByte b).opcode (decodeByte b).value s with
      | some (.done s1) =>
        match indexFault s1.params.stackCap s1.top with
        | some c => some (s1.raise { cause := c, index := s1.top, depth := 0 })
        | none => interpret fuel { s1 with pc := s1.pc + 1 }
      | some (.raised s1) => some s1
      | some (.waiting _) | none => none

end Sys2Proof.Machine
end

