-- ==== Sys2Proof/Safety.lean ====
section
/-! DEFINITION. What holds of every state a run reaches, in the terms the statements use. Each predicate collects what rules of
spec/ say of all times; none is assumed by the machine. -/

namespace Sys2Proof.Machine

/-- The cell of the operand stack at index `a`, and of the data memory at address `a`. -/
abbrev State.cell (s : State) (a : Nat) : Int := Memory.read s.stk a
abbrev State.word (s : State) (a : Nat) : Int := Memory.read s.mem a

/-- The stack index `i` is in range (rule R41). -/
abbrev State.inStack (s : State) (i : Int) : Prop := 0 ≤ i ∧ i < s.params.stackCap

/-- The memory address `a` is in range (rule R46). -/
abbrev State.inMemory (s : State) (a : Int) : Prop := 0 ≤ a ∧ a < s.params.memCap

/-- Both cell arrays are in canonical form and list only cells that exist (rules R22, R31); cell 0 of the data memory has
never been written (rule R50). -/
structure State.CellsInv (s : State) : Prop where
  stackCanonical : Memory.wf s.stk = true
  stackWithin : Memory.within s.stk s.params.stackCap = true
  memoryCanonical : Memory.wf s.mem = true
  memoryWithin : Memory.within s.mem s.params.memCap = true
  memoryZero : s.word 0 = 0

/-- Every word the machine holds is a W-bit word (rules R10, R22, R23, R30, R31, R32, R81, R128). -/
structure State.WordsInv (s : State) : Prop where
  top : isWord s.width s.top
  stack : ∀ c ∈ s.stk, isWord s.width c.2
  memory : ∀ c ∈ s.mem, isWord s.width c.2
  current : ∀ i ∈ s.cur, isWord s.width i.value
  frames : ∀ f ∈ s.frames, isWord s.width f.value ∧ isWord s.width f.remaining
  reports : isWord s.width s.faultIndex ∧ isWord s.width s.faultAddr
  output : ∀ x ∈ s.output.log, isWord s.width x

/-- STATUS and the fault-information registers say what the FSM is doing (rules R29, R30, R147). -/
structure State.StatusInv (s : State) : Prop where
  success : s.status.state = .success ↔ s.phase = .done
  fault : s.status.state = .fault ↔ s.phase = .fault
  waiting : s.status.waitIn = true ↔ s.phase = .waitIn
  cause : s.status.cause = .none ↔ s.status.state ≠ .fault
  quiet : s.status.state ≠ .fault → s.faultPc = 0 ∧ s.faultIndex = 0 ∧ s.faultAddr = 0 ∧ s.faultDepth = 0
  faultPc : s.status.state = .fault → s.faultPc = s.pc

/-- The control stack and the current operation (rules R32, R83, R148): frames of strictly falling depth, none beyond
MAX_DEPTH; the current operation nests inside all of them; a port is waited on by its own hook alone; between top-level
instructions nothing is left. -/
structure State.ControlInv (s : State) : Prop where
  falling : s.frames.Pairwise (fun f g => g.depth < f.depth)
  bounded : ∀ f ∈ s.frames, s.params.allowsDepth f.depth = true
  inner : s.cur.isSome = true → s.params.allowsDepth s.depth = true ∧ ∀ f ∈ s.frames, f.depth < s.depth
  waitsIn : s.phase = .waitIn → s.cur = some (.load 0)
  waitsOut : s.phase = .waitOut → s.cur = some (.store 0)
  between : s.phase = .fetch ∨ s.phase = .check ∨ s.phase = .done ∨ s.phase = .fault →
    s.cur = none ∧ s.depth = 0 ∧ s.frames = []

/-- The program index and the stack pointer (rules R25, R26): an instruction that has begun is one of the program's; `pc` is `L`
on success; `top` is in range whenever no instruction is under way. -/
structure State.BoundaryInv (s : State) : Prop where
  params : s.params.wf
  pcBound : s.pc ≤ s.program.length
  begun : s.phase ≠ .fetch → s.phase ≠ .done → s.pc < s.program.length
  succeeded : s.phase = .done → s.pc = s.program.length
  topInRange : s.phase = .fetch ∨ s.phase = .done → s.inStack s.top

/-- What every step keeps. -/
structure State.Inv (s : State) : Prop where
  cells : s.CellsInv
  words : s.WordsInv
  status : s.StatusInv
  control : s.ControlInv
  boundary : s.BoundaryInv

/-- The run is over (rule R151). -/
abbrev State.halted (s : State) : Prop := s.phase = .done ∨ s.phase = .fault

/-- The status and fault-information registers are the same (rules R29, R30). -/
abbrev State.sameReports (s t : State) : Prop :=
  t.status = s.status ∧ t.faultPc = s.faultPc ∧ t.faultIndex = s.faultIndex ∧ t.faultAddr = s.faultAddr ∧
    t.faultDepth = s.faultDepth

/-- The parameters, the program and the reset port are the same (rules R8, R27, R150). -/
abbrev State.sameLaunch (s t : State) : Prop :=
  t.params = s.params ∧ t.program = s.program ∧ t.rst = s.rst

/-- Nothing passed through the ports (rule R33). -/
abbrev State.samePorts (s t : State) : Prop := t.input = s.input ∧ t.output = s.output

/-- Every stack cell reads as before; every memory cell reads as before. -/
abbrev State.sameCells (s t : State) : Prop := ∀ j, t.cell j = s.cell j
abbrev State.sameMemory (s t : State) : Prop := ∀ a, t.word a = s.word a

/-- The program index, the depth and the control stack are the same (rules R26, R32). -/
abbrev State.sameControl (s t : State) : Prop := t.pc = s.pc ∧ t.depth = s.depth ∧ t.frames = s.frames

/-- An operation has completed from `s` to `t`: the FSM is in EXEC with no current operation (rule R148, `cur <- none`), and it
wrote no status, fault-information, launch or control register. What it did to `top`, the cells, the memory and the ports is
said beside this. -/
abbrev State.completedFrom (s t : State) : Prop :=
  t.phase = .exec ∧ t.cur = none ∧ s.sameControl t ∧ s.sameReports t ∧ s.sameLaunch t

/-- A fault was raised from `s` to `t` (rule R163) with this information (rule R164): no cell and no memory word was written and
`pc` is kept. What had happened to `top` and the ports before it is said beside this. -/
abbrev State.faultedFrom (s t : State) (c : Cause) (index addr : Int) (depth : Nat) : Prop :=
  t.phase = .fault ∧ t.status = { state := .fault, waitIn := false, cause := c } ∧ t.faultPc = s.pc ∧
    t.faultIndex = index ∧ t.faultAddr = addr ∧ t.faultDepth = depth ∧ t.pc = s.pc ∧ s.sameCells t ∧ s.sameMemory t ∧
    s.sameLaunch t

/-- The cause a refused stack index `i` is reported with (rules R42, R43, R143). -/
abbrev stackCause (i : Int) : Cause := if i < 0 then .stackUnderflow else .stackOverflow

/-- The operation that the next step performs, if it performs one. -/
def State.performs (s : State) : Option Instr :=
  if s.rst then none
  else
    match s.phase with
    | .fetch => s.fetchByte.map decodeByte
    | .exec | .waitIn | .waitOut => s.cur
    | .resume | .check | .done | .fault => none

/-- The FSM has come from `s` to `t` as the recursive pseudocode's result `r` says: the operation completed with its effects and
the control stack as it was, or its fault was raised. -/
def UnitResult.reachedAt (r : UnitResult) (s t : State) : Prop :=
  match r with
  | .done u => t.phase = .exec ∧ t.cur = none ∧ t.frames = s.frames ∧ t.arch = u.arch
  | .raised u => t.phase = .fault ∧ t.arch = u.arch
  | .waiting _ => False

/-- The same state with hosts that answer at once: the polls at which they do nothing are taken out. -/
def State.undelayed (s : State) : State :=
  { s with
    input := { s.input with events := s.input.events.filter (fun e => decide (e ≠ .silent)) }
    output := { s.output with events := s.output.events.filter (fun e => decide (e ≠ .busy)) } }

end Sys2Proof.Machine
end

