-- ==== Sys2Proof/Certificates/Slice0/Obligations.lean ====
section
/-! DEFINITION. The statements for the provers: what the numbered rules of spec/ say the engine does, as propositions about the
model. `s.cell j` and `s.word a` read one cell of the stack and of the data memory; the frame predicates are in Safety.lean.
A word is its signed reading (log entry 1): `s.wrap n` is `word(n)` at the state's own W, `widen w v x` is `(v << 8) | x` in
W = `w` bits, and WordsAreTheirSignedReadings says which bits these are. -/

open Sys2Proof Sys2Proof.Machine

/-! ### Encoding -/

/-- Rules R61 and R62: byte mode splits a byte into the low three bits and the upper five, and the top-level value is the
immediate zero-extended, a word of every width that rule R8 allows. -/
def Obligations.ByteDecodeSplitsTheByte : Prop :=
  ∀ b : Byte,
    (decodeFields b).1.num = b.toNat % 8 ∧ (decodeFields b).2.toNat = b.toNat / 8 ∧
    (decodeByte b).opcode = (decodeFields b).1 ∧ (decodeByte b).value = (decodeFields b).2.toNat ∧
    0 ≤ (decodeByte b).value ∧ (decodeByte b).value ≤ 31 ∧
    ∀ w : Nat, 9 ≤ w → isWord w (decodeByte b).value ∧
      BitVec.ofInt w (decodeByte b).value = (decodeFields b).2.setWidth w

/-- Rule R63: which opcode each value of the low three bits is, at every immediate. -/
def Obligations.OpcodeNumbersSelectTheEightInstructions : Prop :=
  ∀ imm : BitVec 5,
    decodeByte (imm ++ 0#3) = .push imm.toNat ∧ decodeByte (imm ++ 1#3) = .pop imm.toNat ∧
    decodeByte (imm ++ 2#3) = .add imm.toNat ∧ decodeByte (imm ++ 3#3) = .rep imm.toNat ∧
    decodeByte (imm ++ 4#3) = .extend imm.toNat ∧ decodeByte (imm ++ 5#3) = .conditional imm.toNat ∧
    decodeByte (imm ++ 6#3) = .load imm.toNat ∧ decodeByte (imm ++ 7#3) = .store imm.toNat

/-- One byte of each row of the opcode table, written bit by bit from its encoding. -/
def Obligations.WrittenOutWordsDecode : Prop :=
  decodeTableWord 8 0b00101000 = some (.push 5) ∧ decodeTableWord 8 0b00010001 = some (.pop 2) ∧
  decodeTableWord 8 0b00011010 = some (.add 3) ∧ decodeTableWord 8 0b00101011 = some (.rep 5) ∧
  decodeTableWord 8 0b01011100 = some (.extend 11) ∧ decodeTableWord 8 0b10100101 = some (.conditional 20) ∧
  decodeTableWord 8 0b00110110 = some (.load 6) ∧ decodeTableWord 8 0b11111111 = some (.store 31)

/-- Rule R67: both round trips, on the fields, on instructions and on bytes. -/
def Obligations.EncodeThenDecodeIsTheIdentity : Prop :=
  (∀ i : Instr, i.WellFormed → ∃ b, encode i = .ok b ∧ decodeByte b = i) ∧
  (∀ op imm : Nat, op ≤ 7 → imm ≤ 31 →
    ∃ b, encodeFields op imm = .ok b ∧ (decodeFields b).1.num = op ∧ (decodeFields b).2.toNat = imm) ∧
  (∀ b : Byte, encode (decodeByte b) = .ok b)

/-- Rule R66: the encoder accepts exactly the fields that fit and gives `imm * 8 + op`; at every width `desc(Op, k)` is a cell that
decodes to `(Op, k)`. -/
def Obligations.EncoderAcceptsExactlyTheFieldsThatFit : Prop :=
  (∀ op imm : Int, 0 ≤ op ∧ op ≤ 7 ∧ 0 ≤ imm ∧ imm ≤ 31 →
    ∃ b : Byte, encodeFields op imm = .ok b ∧ (b.toNat : Int) = imm * 8 + op) ∧
  (∀ op imm : Int, ¬ (0 ≤ op ∧ op ≤ 7 ∧ 0 ≤ imm ∧ imm ≤ 31) → encodeFields op imm = .error .immediateOutOfRange) ∧
  (∀ (w : Nat) (op : Opcode) (k : Int), 9 ≤ w → -2 ^ (w - 4) ≤ k → k ≤ 2 ^ (w - 4) - 1 →
    isWord w (descriptor w op k) ∧ decodeCell (descriptor w op k) = (op, k))

/-- Rule R64: at every width, cell mode takes the low three bits of the cell as the opcode and the signed rest as the constant. -/
def Obligations.CellDecodeKeepsTheSign : Prop :=
  ∀ (w : Nat) (d : Int), 9 ≤ w → isWord w d →
    (decodeCell d).1.num = ((BitVec.ofInt w d).extractLsb' 0 3).toNat ∧
    BitVec.ofInt w (decodeCell d).2 = (BitVec.ofInt w d).sshiftRight 3 ∧
    -2 ^ (w - 4) ≤ (decodeCell d).2 ∧ (decodeCell d).2 ≤ 2 ^ (w - 4) - 1

/-- Rule R65: on a cell holding 0 to 255 the two modes agree. -/
def Obligations.CellDecodeAgreesWithByteDecode : Prop :=
  ∀ b : Byte, decodeCell b.toNat = ((decodeFields b).1, ((decodeFields b).2.toNat : Int))

/-- Rule R68: every byte is one of the eight instructions, with a 5-bit immediate, and every cell is the descriptor of what it
decodes to; the decoder refuses neither. -/
def Obligations.NoEncodingTraps : Prop :=
  (∀ (b : Byte) (rest : List Byte), ∃ (op : Opcode) (imm : BitVec 5),
    decode (b :: rest) = .ok (op.instr imm.toNat, rest) ∧ decodeByte b = op.instr imm.toNat) ∧
  (∀ (w : Nat) (d : Int), 9 ≤ w → isWord w d → descriptor w (decodeCell d).1 (decodeCell d).2 = d)

/-- Every state, reachable or not, has a next state. That a fault and an ended run answer one is log entry 12, and that the states
no run reaches do is log entry 16: the model's choices. -/
def Obligations.EveryStepAnswers : Prop :=
  ∀ s : State, ∃ t, step s = .next t

/-- A word as its signed reading (rules R9, R10; log entry 1): at every width, `word(n)` is in range, its bits are those of `n`, two
words with the same bits are one, sums and differences are those of the bits, the order is the signed order of the bits,
an input byte is zero-extended, and `widen` shifts and ORs the bits. -/
def Obligations.WordsAreTheirSignedReadings : Prop :=
  ∀ w : Nat, 9 ≤ w →
    (∀ n : Int, isWord w (wordOf w n) ∧ BitVec.ofInt w (wordOf w n) = BitVec.ofInt w n ∧ (2 ^ w : Int) ∣ wordOf w n - n) ∧
    (∀ x y : Int, isWord w x → isWord w y → (BitVec.ofInt w x = BitVec.ofInt w y ↔ x = y) ∧
      (BitVec.ofInt w x).toInt = x ∧ ((BitVec.ofInt w x).slt (BitVec.ofInt w y) = true ↔ x < y) ∧
      BitVec.ofInt w (wordOf w (x + y)) = BitVec.ofInt w x + BitVec.ofInt w y ∧
      BitVec.ofInt w (wordOf w (x - y)) = BitVec.ofInt w x - BitVec.ofInt w y ∧
      isWord w (widen w x y) ∧ BitVec.ofInt w (widen w x y) = (BitVec.ofInt w x <<< 8) ||| BitVec.ofInt w y) ∧
    (∀ b : Byte, isWord w (inputWord b) ∧ BitVec.ofInt w (inputWord b) = b.setWidth w)

/-! ### Access checks -/

/-- Rules R41, R42 and R43: a stack access below 0 or at STACK_CAP and above is refused with the index and the depth, and nothing
is read or written; in range it reads or writes that cell and no other. -/
def Obligations.StackAccessesAreChecked : Prop :=
  ∀ (s : State) (k : Nat) (i x : Int),
    (i < 0 →
      s.stackRead k i = .error { cause := .stackUnderflow, index := i, addr := 0, depth := k } ∧
      s.stackWrite k i x = .error { cause := .stackUnderflow, index := i, addr := 0, depth := k }) ∧
    ((s.params.stackCap : Int) ≤ i → 0 ≤ i →
      s.stackRead k i = .error { cause := .stackOverflow, index := i, addr := 0, depth := k } ∧
      s.stackWrite k i x = .error { cause := .stackOverflow, index := i, addr := 0, depth := k }) ∧
    (s.inStack i → s.stackRead k i = .ok (s.cell i.toNat) ∧
      (Memory.wf s.stk = true → ∃ t, s.stackWrite k i x = .ok t ∧ t.cell i.toNat = x ∧
        (∀ j, j ≠ i.toNat → t.cell j = s.cell j) ∧ t = { s with stk := t.stk }))

/-- Rule R46: a memory address outside `0 .. MEM_CAP-1`, read as signed, is refused with MemoryOutOfRange before any access; no
address in range is refused. -/
def Obligations.MemoryAddressesAreChecked : Prop :=
  ∀ (s : State) (k : Nat) (a x : Int),
    (a < 0 ∨ (s.params.memCap : Int) ≤ a →
      s.memRead k a = .error { cause := .memoryOutOfRange, index := 0, addr := a, depth := k } ∧
      s.memWrite k a x = .error { cause := .memoryOutOfRange, index := 0, addr := a, depth := k }) ∧
    (s.inMemory a → s.memRead k a = .ok (s.word a.toNat) ∧
      (Memory.wf s.mem = true → ∃ t, s.memWrite k a x = .ok t ∧ t.word a.toNat = x ∧
        (∀ b, b ≠ a.toNat → t.word b = s.word b) ∧ t = { s with mem := t.mem }))

/-! ### The eight instructions -/

/-- Rule R90: Push moves `top` up by one and writes there; at a new `top` out of range it raises with `top` already moved and no
cell written. -/
def Obligations.PushWritesTheNewTop : Prop :=
  (∀ imm : BitVec 5, decodeByte (imm ++ 0#3) = .push imm.toNat) ∧
  ∀ (s : State) (v : Int), s.CellsInv →
    (s.inStack (s.wrap (s.top + 1)) → ∃ t, exec (.push v) s = .next t ∧ t.top = s.wrap (s.top + 1) ∧
      t.cell (s.wrap (s.top + 1)).toNat = v ∧ (∀ j, j ≠ (s.wrap (s.top + 1)).toNat → t.cell j = s.cell j) ∧
      s.sameMemory t ∧ s.samePorts t ∧ s.completedFrom t) ∧
    (¬ s.inStack (s.wrap (s.top + 1)) → ∃ t, exec (.push v) s = .next t ∧ t.top = s.wrap (s.top + 1) ∧ s.samePorts t ∧
      s.faultedFrom t (stackCause (s.wrap (s.top + 1))) (s.wrap (s.top + 1)) 0 s.depth)

/-- Rule R91: Pop subtracts `v` from `top` modulo `2^W`, touches no cell and raises nothing itself; at the top level the check
then finds an underflow exactly when `v` is more than `top`. -/
def Obligations.PopLowersTopOnly : Prop :=
  (∀ imm : BitVec 5, decodeByte (imm ++ 1#3) = .pop imm.toNat) ∧
  (∀ (s : State) (v : Int), ∃ t, exec (.pop v) s = .next t ∧ t.top = s.wrap (s.top - v) ∧
    s.sameCells t ∧ s.sameMemory t ∧ s.samePorts t ∧ s.completedFrom t) ∧
  (∀ (s : State) (imm : BitVec 5), s.rst = false → s.phase = .fetch → s.params.wf → s.inStack s.top →
    s.program[s.pc]? = some (imm ++ 1#3) → ∃ t, step s = .next t ∧ t.top = s.top - imm.toNat ∧
      (t.status.cause = .stackUnderflow ∧ t.phase = .fault ↔ (imm.toNat : Int) > s.top) ∧
      ((imm.toNat : Int) ≤ s.top → t.phase = .fetch ∧ t.pc = s.pc + 1))

/-- Rule R92: Add adds `v` to the cell at `top` modulo `2^W`; `top` does not move; out of range the read is refused. -/
def Obligations.AddAddsToTheTopCell : Prop :=
  (∀ imm : BitVec 5, decodeByte (imm ++ 2#3) = .add imm.toNat) ∧
  ∀ (s : State) (v : Int), s.CellsInv →
    (s.inStack s.top → ∃ t, exec (.add v) s = .next t ∧ t.top = s.top ∧
      t.cell s.top.toNat = s.wrap (s.cell s.top.toNat + v) ∧
      (∀ j, j ≠ s.top.toNat → t.cell j = s.cell j) ∧ s.sameMemory t ∧ s.samePorts t ∧ s.completedFrom t) ∧
    (¬ s.inStack s.top → ∃ t, exec (.add v) s = .next t ∧ t.top = s.top ∧ s.samePorts t ∧
      s.faultedFrom t (stackCause s.top) s.top 0 s.depth)

/-- Rule R93: after `Push(v)` and `Pop(1)` the stack pointer and every cell but the one above it are as before; that one holds
`v`. -/
def Obligations.PopOneUndoesPush : Prop :=
  ∀ (s : State) (v : Int), s.CellsInv → s.params.wf → isWord s.width s.top → s.inStack (s.wrap (s.top + 1)) →
    ∃ t u, exec (.push v) s = .next t ∧ exec (.pop 1) t = .next u ∧ u.top = s.top ∧
      (∀ j, j ≠ (s.wrap (s.top + 1)).toNat → u.cell j = s.cell j) ∧ u.cell (s.wrap (s.top + 1)).toNat = v

/-- Repeat as the FSM of rule R148 begins it (rules R85, R100): the descriptor is popped once and its opcode and count, with the
Repeat's own value and depth, become a frame; nothing else changes. -/
def Obligations.RepeatPopsItsDescriptorIntoAFrame : Prop :=
  ∀ (s : State) (v : Int),
    (s.inStack s.top → ∃ t, exec (.rep v) s = .next t ∧ t.top = s.wrap (s.top - 1) ∧
      t.frames = { depth := s.depth, op := (decodeCell (s.cell s.top.toNat)).1, value := v,
                   remaining := (decodeCell (s.cell s.top.toNat)).2 } :: s.frames ∧
      t.phase = .exec ∧ t.cur = none ∧ t.pc = s.pc ∧ t.depth = s.depth ∧
      s.sameCells t ∧ s.sameMemory t ∧ s.samePorts t ∧ s.sameReports t ∧ s.sameLaunch t) ∧
    (¬ s.inStack s.top → ∃ t, exec (.rep v) s = .next t ∧ t.top = s.top ∧ s.samePorts t ∧
      s.faultedFrom t (stackCause s.top) s.top 0 s.depth)

/-- Extend (rule R102): the descriptor is popped and its opcode becomes the current operation one level deeper, with the value
`(v << 8) | t`; beyond MAX_DEPTH it raises NestingDepthExceeded with the descriptor popped. -/
def Obligations.ExtendDispatchesTheWidenedValue : Prop :=
  (∀ imm : BitVec 5, decodeByte (imm ++ 4#3) = .extend imm.toNat) ∧
  ∀ (s : State) (v : Int),
    (s.inStack s.top → s.params.allowsDepth (s.depth + 1) = true →
      ∃ t, exec (.extend v) s = .next t ∧ t.top = s.wrap (s.top - 1) ∧
        t.cur = some ((decodeCell (s.cell s.top.toNat)).1.instr
          (widen s.width v (decodeCell (s.cell s.top.toNat)).2)) ∧
        t.phase = .exec ∧ t.depth = s.depth + 1 ∧ t.frames = s.frames ∧ t.pc = s.pc ∧
        s.sameCells t ∧ s.sameMemory t ∧ s.samePorts t ∧ s.sameReports t ∧ s.sameLaunch t) ∧
    (s.inStack s.top → s.params.allowsDepth (s.depth + 1) = false →
      ∃ t, exec (.extend v) s = .next t ∧ t.top = s.wrap (s.top - 1) ∧ s.samePorts t ∧
        s.faultedFrom t .nestingDepthExceeded 0 0 (s.depth + 1)) ∧
    (¬ s.inStack s.top → ∃ t, exec (.extend v) s = .next t ∧ t.top = s.top ∧ s.samePorts t ∧
      s.faultedFrom t (stackCause s.top) s.top 0 s.depth)

/-- Conditional (rule R104): the descriptor is popped either way; the inner operation becomes the current one, with the
Conditional's own value, exactly when the guard is strictly positive as a signed number. -/
def Obligations.ConditionalFiresOnAPositiveGuard : Prop :=
  (∀ imm : BitVec 5, decodeByte (imm ++ 5#3) = .conditional imm.toNat) ∧
  ∀ (s : State) (v : Int),
    (s.inStack s.top → 0 < (decodeCell (s.cell s.top.toNat)).2 →
      s.params.allowsDepth (s.depth + 1) = true →
      ∃ t, exec (.conditional v) s = .next t ∧ t.top = s.wrap (s.top - 1) ∧
        t.cur = some ((decodeCell (s.cell s.top.toNat)).1.instr v) ∧
        t.phase = .exec ∧ t.depth = s.depth + 1 ∧ t.frames = s.frames ∧ t.pc = s.pc ∧
        s.sameCells t ∧ s.sameMemory t ∧ s.samePorts t ∧ s.sameReports t ∧ s.sameLaunch t) ∧
    (s.inStack s.top → 0 < (decodeCell (s.cell s.top.toNat)).2 →
      s.params.allowsDepth (s.depth + 1) = false →
      ∃ t, exec (.conditional v) s = .next t ∧ t.top = s.wrap (s.top - 1) ∧ s.samePorts t ∧
        s.faultedFrom t .nestingDepthExceeded 0 0 (s.depth + 1)) ∧
    (s.inStack s.top → (decodeCell (s.cell s.top.toNat)).2 ≤ 0 →
      ∃ t, exec (.conditional v) s = .next t ∧ t.top = s.wrap (s.top - 1) ∧
        s.sameCells t ∧ s.sameMemory t ∧ s.samePorts t ∧ s.completedFrom t) ∧
    (¬ s.inStack s.top → ∃ t, exec (.conditional v) s = .next t ∧ t.top = s.top ∧ s.samePorts t ∧
      s.faultedFrom t (stackCause s.top) s.top 0 s.depth)

/-- The memory path of Load (rules R48, R51, R120): with `v != 0` the cell at `top` becomes the memory word at
`(v << 8) | stk[top]`; an address out of range, or a `top` out of range, raises with nothing changed. -/
def Obligations.LoadReadsTheMemoryWord : Prop :=
  ∀ (s : State) (v : Int), s.CellsInv → v ≠ 0 →
    (s.inStack s.top → s.inMemory (loadAddress s.width v (s.cell s.top.toNat)) →
      ∃ t, exec (.load v) s = .next t ∧ t.top = s.top ∧
        t.cell s.top.toNat = s.word (loadAddress s.width v (s.cell s.top.toNat)).toNat ∧
        (∀ j, j ≠ s.top.toNat → t.cell j = s.cell j) ∧ s.sameMemory t ∧ s.samePorts t ∧ s.completedFrom t) ∧
    (s.inStack s.top → ¬ s.inMemory (loadAddress s.width v (s.cell s.top.toNat)) →
      ∃ t, exec (.load v) s = .next t ∧ t.top = s.top ∧ s.samePorts t ∧
        s.faultedFrom t .memoryOutOfRange 0 (loadAddress s.width v (s.cell s.top.toNat)) s.depth) ∧
    (¬ s.inStack s.top → ∃ t, exec (.load v) s = .next t ∧ t.top = s.top ∧ s.samePorts t ∧
      s.faultedFrom t (stackCause s.top) s.top 0 s.depth)

/-- The input hook (rules R120, R123, R125): `Load(0)` puts the next input byte, zero-extended, into the cell at `top` and takes
exactly that byte from the port; with `top` out of range it raises and takes no byte. -/
def Obligations.LoadZeroTakesOneInputByte : Prop :=
  ∀ (s : State), s.CellsInv →
    (∀ (b : Byte) (es : List InputEvent), s.inStack s.top → s.input.events = .byte b :: es →
      ∃ t, exec (.load 0) s = .next t ∧ t.top = s.top ∧ t.cell s.top.toNat = b.toNat ∧
        (∀ j, j ≠ s.top.toNat → t.cell j = s.cell j) ∧ s.sameMemory t ∧
        t.input = { s.input with events := es } ∧ t.output = s.output ∧
        t.phase = .exec ∧ t.cur = none ∧ s.sameControl t ∧ t.status = { s.status with waitIn := false } ∧
        t.faultPc = s.faultPc ∧ t.faultIndex = s.faultIndex ∧ t.faultAddr = s.faultAddr ∧
        t.faultDepth = s.faultDepth ∧ s.sameLaunch t) ∧
    (¬ s.inStack s.top → ∃ t, exec (.load 0) s = .next t ∧ t.top = s.top ∧ s.samePorts t ∧
      s.faultedFrom t (stackCause s.top) s.top 0 s.depth)

/-- Rule R126: when the host answers end-of-input, `Load(0)` raises EndOfInput; no cell changes. -/
def Obligations.EndOfInputIsRaised : Prop :=
  ∀ (s : State), s.inStack s.top → s.input.events = [] → s.input.tail = .endOfInput →
    ∃ t, exec (.load 0) s = .next t ∧ t.top = s.top ∧ s.samePorts t ∧ s.faultedFrom t .endOfInput 0 0 s.depth

/-- The memory path of Store (rules R49, R51, R121): with `v != 0` the word at address `v` becomes the cell at `top` and `top`
goes down by one; out of range it raises with nothing written. -/
def Obligations.StoreWritesTheMemoryWord : Prop :=
  ∀ (s : State) (v : Int), s.CellsInv → v ≠ 0 →
    (s.inStack s.top → s.inMemory (storeAddress v) →
      ∃ t, exec (.store v) s = .next t ∧ t.top = s.wrap (s.top - 1) ∧ storeAddress v = v ∧
        t.word (storeAddress v).toNat = s.cell s.top.toNat ∧
        (∀ a, a ≠ (storeAddress v).toNat → t.word a = s.word a) ∧
        s.sameCells t ∧ s.samePorts t ∧ s.completedFrom t) ∧
    (s.inStack s.top → ¬ s.inMemory (storeAddress v) →
      ∃ t, exec (.store v) s = .next t ∧ t.top = s.top ∧ s.samePorts t ∧
        s.faultedFrom t .memoryOutOfRange 0 v s.depth) ∧
    (¬ s.inStack s.top → ∃ t, exec (.store v) s = .next t ∧ t.top = s.top ∧ s.samePorts t ∧
      s.faultedFrom t (stackCause s.top) s.top 0 s.depth)

/-- The output hook (rules R121, R123, R128): `Store(0)` offers the cell at `top`; when the sink takes it the log grows by that
word and `top` goes down by one; while it does not, the FSM is in WAIT_OUT and nothing else of the engine changes; with `top`
out of range it raises and offers nothing. -/
def Obligations.StoreZeroEmitsTheTopCell : Prop :=
  ∀ (s : State),
    (∀ es : List SinkEvent, s.inStack s.top →
      s.output.events = .takes :: es ∨ (s.output.events = [] ∧ es = [] ∧ s.output.tail = .takes) →
      ∃ t, exec (.store 0) s = .next t ∧ t.top = s.wrap (s.top - 1) ∧ t.input = s.input ∧
        t.output = { s.output with events := es, log := s.output.log ++ [s.cell s.top.toNat] } ∧
        s.sameCells t ∧ s.sameMemory t ∧ s.completedFrom t) ∧
    (∀ es : List SinkEvent, s.inStack s.top →
      s.output.events = .busy :: es ∨ (s.output.events = [] ∧ es = [] ∧ s.output.tail = .busy) →
      exec (.store 0) s = .next { s with phase := .waitOut, output := { s.output with events := es } }) ∧
    (¬ s.inStack s.top → ∃ t, exec (.store 0) s = .next t ∧ t.top = s.top ∧ s.samePorts t ∧
      s.faultedFrom t (stackCause s.top) s.top 0 s.depth)

/-- Rule R122: a word stored at a nonzero address in range comes back by any Load whose address is that one, in any later state
where that word has not changed; and every nonzero address has such a Load, at every width: from 256 up one with
`v = a >> 8` and the low byte, a 5-bit value below 8192; below 256 one with `v = c * 2^(W-8)`. -/
def Obligations.StoreThenLoadReturnsTheWord : Prop :=
  (∀ (s t u : State) (a v : Int), s.CellsInv → a ≠ 0 → s.inStack s.top → s.inMemory a → exec (.store a) s = .next t →
    u.CellsInv → u.word a.toNat = t.word a.toNat → u.params = s.params → u.inStack u.top → v ≠ 0 →
    loadAddress u.width v (u.cell u.top.toNat) = a →
    ∃ w, exec (.load v) u = .next w ∧ w.top = u.top ∧ w.cell u.top.toNat = s.cell s.top.toNat) ∧
  (∀ (w : Nat) (a : Int), 9 ≤ w → 256 ≤ a → isWord w a →
    isWord w (a >>> (8 : Nat)) ∧ a >>> (8 : Nat) ≠ 0 ∧ (a < 8192 → a >>> (8 : Nat) < 32) ∧
      0 ≤ a % 256 ∧ a % 256 < 256 ∧ loadAddress w (a >>> (8 : Nat)) (a % 256) = a) ∧
  (∀ (w : Nat) (a c : Int), 9 ≤ w → 0 ≤ a → a < 256 → 1 ≤ c → c ≤ 255 →
    isWord w (wordOf w (c * 2 ^ (w - 8))) ∧ wordOf w (c * 2 ^ (w - 8)) ≠ 0 ∧
      loadAddress w (wordOf w (c * 2 ^ (w - 8))) a = a)

/-! ### What only some instructions do -/

/-- Only Store with `v != 0` writes the data memory, and only at `v`; only Push, Add and Load write a stack cell, and only the
one at the stack pointer they leave (rules R21, R22, R31). Over every step that is not a reset. -/
def Obligations.OnlyTheirInstructionsWriteCells : Prop :=
  ∀ s t : State, s.rst = false → step s = .next t →
    (∀ a, t.word a ≠ s.word a → ∃ v, s.performs = some (.store v) ∧ v ≠ 0 ∧ a = v.toNat) ∧
    (∀ j, t.cell j ≠ s.cell j →
      (∃ v, s.performs = some (.push v) ∧ j = (s.wrap (s.top + 1)).toNat) ∨
      (∃ v, s.performs = some (.add v) ∧ j = s.top.toNat) ∨
      (∃ v, s.performs = some (.load v) ∧ j = s.top.toNat))

/-- Rule R124: only `Load(0)` takes anything from the input port and only `Store(0)` touches the output port, over every step that
is not a reset. -/
def Obligations.HooksAreTheOnlyPortUsers : Prop :=
  ∀ s t : State, s.rst = false → step s = .next t →
    (t.input ≠ s.input → s.performs = some (.load 0)) ∧ (t.output ≠ s.output → s.performs = some (.store 0))

/-- Rule R129: a step leaves the output log alone or, performing `Store(0)`, adds the cell at `top` at its end; no step, not even
a reset, takes a word out. -/
def Obligations.OutputLogIsAppendOnly : Prop :=
  ∀ s t : State, step s = .next t →
    t.output.log = s.output.log ∨
    (s.performs = some (.store 0) ∧ t.output.log = s.output.log ++ [s.cell s.top.toNat])

/-- What each operation does to `top` (rule R23): Push adds one; Pop subtracts `v`; the compositions and Store subtract one, or
leave it where they raise or wait; Add and Load leave it. -/
def Obligations.TopMovesByOpcode : Prop :=
  ∀ (i : Instr) (s t : State), exec i s = .next t →
    match i with
    | .push _ => t.top = s.wrap (s.top + 1)
    | .pop v => t.top = s.wrap (s.top - v)
    | .add _ | .load _ => t.top = s.top
    | .rep _ | .extend _ | .conditional _ =>
      (s.inStack s.top ∧ t.top = s.wrap (s.top - 1)) ∨ (¬ s.inStack s.top ∧ t.top = s.top ∧ t.phase = .fault)
    | .store _ => t.top = s.wrap (s.top - 1) ∨ (t.top = s.top ∧ (t.phase = .fault ∨ t.phase = .waitOut))

/-- No step but a reset changes what the run was launched with: the program is read-only (rules R27, R58), the parameters are
fixed. That a reset keeps them too, and what stands at both ports, is the model's choice (log entries 2 and 8). -/
def Obligations.LaunchIsNeverWritten : Prop :=
  ∀ s t : State, step s = .next t →
    t.program = s.program ∧ t.params = s.params ∧ (s.rst = true → s.samePorts t)

/-- Rules R26 and R144: a step that is not a reset leaves `pc` alone or adds one; it adds one exactly when the FSM is back in
FETCH, with `top` in range and nothing of the instruction left; a step that ends in a fault leaves `pc`. -/
def Obligations.PcAdvancesOnlyPastAnInstructionInRange : Prop :=
  ∀ s t : State, s.rst = false → step s = .next t →
    (t.phase = .fetch ∧ t.pc = s.pc + 1 ∧ t.inStack t.top) ∨ (t.phase ≠ .fetch ∧ t.pc = s.pc)

/-! ### Nesting -/

/-- Rule R84: NestingDepthExceeded is reported only with a finite MAX_DEPTH, and the depth it records is the first forbidden one,
MAX_DEPTH + 1; an inner dispatch to a depth within the limit does not raise it. -/
def Obligations.NestingFaultRecordsTheFirstForbiddenDepth : Prop :=
  (∀ s t : State, s.Inv → s.status.state = .running → step s = .next t → t.status.cause = .nestingDepthExceeded →
    ∃ d, s.params.maxDepth = some d ∧ t.faultDepth = d + 1) ∧
  (∀ (s : State) (k : Nat) (op : Opcode) (v : Int),
    ((∃ d, s.params.maxDepth = some d ∧ d < k + 1) →
      s.dispatch k op v = s.raise { cause := .nestingDepthExceeded, index := 0, addr := 0, depth := k + 1 }) ∧
    ((∀ d, s.params.maxDepth = some d → k + 1 ≤ d) →
      s.dispatch k op v = { s with phase := .exec, cur := some (op.instr v), depth := k + 1 }))

/-- Rule R103: a chain of Extend descriptors, read from `top` downward, hands the last one's operation the value
`x_n`, `x_j = (x_(j-1) << 8) | t_j`, at depth `n` more; with a 5-bit first value, tails of one byte and `8n + 5 <= W - 1` that
value is the number with those base-256 digits. -/
def Obligations.ExtendChainBuildsTheWideValue : Prop :=
  (∀ (s : State) (v0 : Int) (op : Opcode) (ts : List Int), s.rst = false → s.phase = .exec → s.params.wf →
    s.cur = some (.extend v0) → s.inStack s.top → ts ≠ [] → (ts.length : Int) ≤ s.top + 1 →
    s.params.allowsDepth (s.depth + ts.length) = true →
    (∀ (j : Nat) (h : j < ts.length), decodeCell (s.cell (s.top.toNat - j)) =
      (if j + 1 = ts.length then op else .extend, ts[j])) →
    ∃ t, runSteps ts.length s = .next t ∧
      t.cur = some (op.instr (ts.foldl (widen s.width) v0)) ∧ t.phase = .exec ∧
      t.depth = s.depth + ts.length ∧ t.top = s.top - ts.length ∧ t.frames = s.frames ∧ t.pc = s.pc ∧
      s.sameCells t ∧ s.sameMemory t ∧ s.samePorts t ∧ s.sameReports t ∧ s.sameLaunch t) ∧
  (∀ (w : Nat) (v0 : Int) (ts : List Int), 0 ≤ v0 → v0 < 32 → (∀ d ∈ ts, 0 ≤ d ∧ d < 256) → 9 ≤ w →
    8 * ts.length + 5 ≤ w - 1 →
    ts.foldl (widen w) v0 = ts.foldl (fun n d : Int => n * 256 + d) v0)

/-- Repeat runs its inner operation as often as its count says (rules R100, R101), shown for Add: a top-level `Repeat(imm)` whose
descriptor is `desc(Add, n)` takes `n + 1` steps, adds `imm` to the cell below the descriptor `n` times, consumes the one
descriptor and goes on to the next byte. -/
def Obligations.RepeatOfAddAddsCountTimes : Prop :=
  ∀ (s : State) (imm : BitVec 5) (n : Nat), s.rst = false → s.phase = .fetch → s.CellsInv → s.params.wf →
    isWord s.width (s.cell (s.top.toNat - 1)) →
    s.program[s.pc]? = some (imm ++ 3#3) → s.inStack s.top → 1 ≤ s.top → s.params.allowsDepth 1 = true →
    n < 2 ^ (s.width - 4) → s.cell s.top.toNat = descriptor s.width .add n →
    ∃ t, runSteps (n + 1) s = .next t ∧ t.phase = .fetch ∧ t.pc = s.pc + 1 ∧ t.top = s.top - 1 ∧
      t.cell (s.top.toNat - 1) = s.wrap (s.cell (s.top.toNat - 1) + n * imm.toNat) ∧
      (∀ j, j ≠ s.top.toNat - 1 → t.cell j = s.cell j) ∧ t.frames = [] ∧
      s.sameMemory t ∧ s.samePorts t ∧ s.sameReports t ∧ s.sameLaunch t

/-- A Repeat with a count of zero or below (rules R85, R100) consumes its one descriptor and does nothing else, whatever its
inner opcode and even with MAX_DEPTH = 0: one step at the top level, then the next byte. -/
def Obligations.RepeatWithoutCountConsumesOneCell : Prop :=
  ∀ (s : State) (imm : BitVec 5), s.rst = false → s.phase = .fetch → s.params.wf → s.program[s.pc]? = some (imm ++ 3#3) →
    s.inStack s.top → 1 ≤ s.top → (decodeCell (s.cell s.top.toNat)).2 ≤ 0 →
    ∃ t, step s = .next t ∧ t.phase = .fetch ∧ t.pc = s.pc + 1 ∧ t.top = s.top - 1 ∧ t.frames = [] ∧ t.depth = 0 ∧
      t.cur = none ∧ s.sameCells t ∧ s.sameMemory t ∧ s.samePorts t ∧ s.sameReports t ∧ s.sameLaunch t

/-- Rule R87: when a nested operation ends and a Repeat around it has iterations left, `top` is not tested: in the same step the
next iteration is dispatched, with the frames inside that one used up and dropped, whatever `top` holds. -/
def Obligations.NestedOperationsAreNotChecked : Prop :=
  ∀ (s u : State) (i : Instr) (used : List Frame) (f : Frame) (rest : List Frame), s.rst = false →
    s.phase = .exec ∨ s.phase = .waitIn ∨ s.phase = .waitOut → s.cur = some i → exec i s = .next u →
    u.phase = .exec → u.cur = none → u.frames = used ++ f :: rest → (∀ g ∈ used, g.remaining ≤ 0) →
    0 < f.remaining → s.params.allowsDepth (f.depth + 1) = true →
    ∃ t, step s = .next t ∧ t.phase = .exec ∧ t.cur = some (f.op.instr f.value) ∧ t.depth = f.depth + 1 ∧
      t.frames = { f with remaining := f.remaining - 1 } :: rest ∧ t.top = u.top ∧ t.pc = s.pc ∧
      u.sameCells t ∧ u.sameMemory t ∧ u.samePorts t ∧ u.sameReports t ∧ s.sameLaunch t

/-- Rule R148's bound: in a state that meets the invariant the control stack holds at most MAX_DEPTH + 1 frames. -/
def Obligations.ControlStackIsBounded : Prop :=
  ∀ (s : State) (d : Nat), s.ControlInv → s.params.maxDepth = some d → s.frames.length ≤ d + 1

/-! ### The run loop, faults and reset -/

/-- A step from FETCH is `exec` of the decoded instruction at depth 0 with an empty control stack, and a step from EXEC is `exec`
of the current operation, each followed by the FSM's states RESUME and CHECK (`thenSettle`; log entry 5). The second
clause is the same for the byte of any well-formed instruction. -/
def Obligations.StepRunsTheDecodedInstruction : Prop :=
  (∀ (s : State) (b : Byte), s.rst = false → s.phase = .fetch → s.program[s.pc]? = some b →
    step s = thenSettle (exec (decodeByte b) (s.beginInstr (decodeByte b)))) ∧
  (∀ (s : State) (i : Instr) (b : Byte), s.rst = false → s.phase = .fetch → i.WellFormed → encode i = .ok b →
    s.program[s.pc]? = some b → step s = thenSettle (exec i (s.beginInstr i))) ∧
  (∀ (s : State) (i : Instr), s.rst = false → s.phase = .exec → s.cur = some i → step s = thenSettle (exec i s))

/-- Rule R143: in the step that ends a top-level instruction (no operation left, every Repeat used up), a negative `top` raises
StackUnderflow and a `top` of STACK_CAP or more raises StackOverflow, with the index `top` and depth 0; in range nothing is
raised and the next byte is due; after a fault the check is skipped. `u` is the state the last operation leaves. -/
def Obligations.TopLevelCheckTestsTop : Prop :=
  ∀ (s u : State) (i : Instr), s.rst = false →
    (∃ b, s.phase = .fetch ∧ s.program[s.pc]? = some b ∧ i = decodeByte b ∧ exec i (s.beginInstr i) = .next u) ∨
      ((s.phase = .exec ∨ s.phase = .waitIn ∨ s.phase = .waitOut) ∧ s.cur = some i ∧ exec i s = .next u) →
    (u.phase = .exec → u.cur = none → (∀ f ∈ u.frames, f.remaining ≤ 0) →
      (u.top < 0 → ∃ t, step s = .next t ∧ t.top = u.top ∧ u.samePorts t ∧
        u.faultedFrom t .stackUnderflow u.top 0 0) ∧
      ((u.params.stackCap : Int) ≤ u.top → 0 ≤ u.top → ∃ t, step s = .next t ∧ t.top = u.top ∧
        u.samePorts t ∧ u.faultedFrom t .stackOverflow u.top 0 0) ∧
      (u.inStack u.top → step s = .next { u with pc := u.pc + 1, phase := .fetch, depth := 0, frames := [] })) ∧
    (u.phase = .fault → step s = .next u)

/-- Rules R145 and R146: with the whole program consumed the run ends in SUCCESS and nothing else changes; from reset with the
empty program this is the first step, and STATUS then reads 1. -/
def Obligations.ConsumedProgramIsSuccess : Prop :=
  (∀ s : State, s.rst = false → s.phase = .fetch → s.pc = s.program.length →
    step s = .next { s with status := { s.status with state := .success }, phase := .done }) ∧
  (∀ (p : Config.Params) (i : InputPort) (o : OutputPort),
    ∃ t, step { State.reset with params := p, input := i, output := o } = .next t ∧ t.status.word = 1 ∧ t.pc = 0 ∧
      t.top = 0 ∧ t.stk = [] ∧ t.mem = [] ∧ t.faultPc = 0 ∧ t.faultIndex = 0 ∧ t.faultAddr = 0 ∧ t.faultDepth = 0 ∧
      t.frames = [] ∧ t.depth = 0 ∧ t.input = i ∧ t.output = o)

/-- Rule R163: what `raise` writes and what it keeps; nothing of the abandoned work is performed after it. -/
def Obligations.RaiseWritesTheFaultRegistersOnly : Prop :=
  ∀ (s : State) (r : FaultReport),
    (s.raise r).status.word = 2 ||| ((r.cause.code.setWidth 32) <<< 3) ∧ (s.raise r).faultPc = s.pc ∧
    (s.raise r).faultIndex = r.index ∧ (s.raise r).faultAddr = r.addr ∧ (s.raise r).faultDepth = r.depth ∧
    (s.raise r).phase = .fault ∧ (s.raise r).performs = none ∧ (s.raise r).top = s.top ∧ (s.raise r).stk = s.stk ∧
    (s.raise r).mem = s.mem ∧ (s.raise r).pc = s.pc ∧ s.samePorts (s.raise r) ∧ s.sameLaunch (s.raise r)

/-- What a fault that a step raises leaves in the registers (rules R161, R164): the program index; for a stack fault the
offending `top`, which is out of range on the side the cause names; for a memory fault the refused address, which is out of
range; zero in the registers not named; the depth. That the abandoned control stack reads as empty then is the model's
choice (log entry 9). -/
def Obligations.FaultRegistersMatchTheCause : Prop :=
  ∀ s t : State, s.Inv → s.status.state = .running → step s = .next t → t.status.state = .fault →
    t.faultPc = s.pc ∧ t.pc = s.pc ∧ t.frames = [] ∧
    ((t.status.cause = .stackUnderflow ∧ t.top < 0 ∧ t.faultIndex = t.top ∧ t.faultAddr = 0 ∧
        (t.faultDepth = 0 ∨ t.faultDepth = s.depth)) ∨
     (t.status.cause = .stackOverflow ∧ (s.params.stackCap : Int) ≤ t.top ∧ t.faultIndex = t.top ∧
        t.faultAddr = 0 ∧ (t.faultDepth = 0 ∨ t.faultDepth = s.depth)) ∨
     (t.status.cause = .memoryOutOfRange ∧ ¬ s.inMemory t.faultAddr ∧ t.faultIndex = 0 ∧ t.faultDepth = s.depth) ∨
     (t.status.cause = .endOfInput ∧ t.faultIndex = 0 ∧ t.faultAddr = 0 ∧ t.faultDepth = s.depth) ∨
     (t.status.cause = .nestingDepthExceeded ∧ t.faultIndex = 0 ∧ t.faultAddr = 0 ∧
        ∃ d, s.params.maxDepth = some d ∧ t.faultDepth = d + 1))

/-- Rules R151 and R168: a run that has ended stays as it is, over any number of steps, until reset; a reset then starts a run
from the reset state. -/
def Obligations.EndedRunsStayUntilReset : Prop :=
  ∀ s : State, s.halted →
    (s.rst = false → ∀ n, runSteps n s = .next s) ∧
    (s.rst = true → ∃ t, step s = .next t ∧ t.phase = .fetch ∧ t.status.state = .running ∧ t.pc = 0)

/-- Rule R180: from every state, a reset gives every piece of the engine's state the value of rule R36 and starts in FETCH; what
had been emitted stays emitted. -/
def Obligations.ResetEstablishesTheResetState : Prop :=
  ∀ s : State, s.rst = true → ∃ t, step s = .next t ∧ (∀ j, t.cell j = 0) ∧ t.top = 0 ∧ (∀ a, t.word a = 0) ∧ t.pc = 0 ∧
    t.status.word = 0 ∧ t.faultPc = 0 ∧ t.faultIndex = 0 ∧ t.faultAddr = 0 ∧ t.faultDepth = 0 ∧ t.frames = [] ∧
    t.depth = 0 ∧ t.phase = .fetch ∧ t.output.log = s.output.log

/-- Rule R29: the fields of STATUS stand where the rule puts them with the codes of rules R29 and R161, the reserved bits and
codes never appear, CAUSE is 0 and WAIT_IN clear outside their states, and STATE once it has left RUNNING stays until reset. -/
def Obligations.StatusWordHasItsLayout : Prop :=
  (∀ st : Status, st.word.extractLsb' 0 2 = st.state.code ∧ st.word.getLsbD 2 = st.waitIn ∧
    st.word.extractLsb' 3 3 = st.cause.code ∧ st.word.toNat < 64 ∧ st.word.extractLsb' 0 2 ≠ 3#2 ∧
    st.cause.code.toNat ≤ 5) ∧
  (RunState.code .running = 0 ∧ RunState.code .success = 1 ∧ RunState.code .fault = 2 ∧ Cause.code .none = 0 ∧
    Cause.code .stackUnderflow = 1 ∧ Cause.code .stackOverflow = 2 ∧ Cause.code .memoryOutOfRange = 3 ∧
    Cause.code .endOfInput = 4 ∧ Cause.code .nestingDepthExceeded = 5) ∧
  (∀ s t : State, s.Inv → step s = .next t →
    (t.status.word.extractLsb' 3 3 = 0#3 ↔ t.status.word.extractLsb' 0 2 ≠ 2#2) ∧
    (t.status.word.getLsbD 2 = true ↔ t.phase = .waitIn) ∧
    (s.rst = false → s.status.word.extractLsb' 0 2 ≠ 0#2 → t.status.word = s.status.word))

/-! ### The ports -/

/-- Rule R127: while the host is silent, `Load(0)` sets WAIT_IN and nothing else of the engine changes; the answer clears it;
a host that never answers leaves the machine in that wait for ever. -/
def Obligations.SilentInputIsWaitedFor : Prop :=
  ∀ s : State, s.rst = false → s.phase = .exec ∨ s.phase = .waitIn → s.cur = some (.load 0) → s.inStack s.top →
    (∀ es, s.input.events = .silent :: es → step s = .next { s with
      input := { s.input with events := es }, status := { s.status with waitIn := true }, phase := .waitIn }) ∧
    (∀ b es, s.input.events = .byte b :: es → ∃ t, step s = .next t ∧ t.status.waitIn = false ∧ t.phase ≠ .waitIn) ∧
    (s.input.events = [] → s.input.tail = .silent → ∀ n, runSteps (n + 1) s = .next { s with
      status := { s.status with waitIn := true }, phase := .waitIn })

/-- A wait does not show afterwards (rules R127, R186): a byte that comes after `n` silent polls leaves, `n` steps later, the
very state it would have left at once. -/
def Obligations.InputDelayLeavesNoTrace : Prop :=
  ∀ (s : State) (n : Nat) (b : Byte) (es : List InputEvent), s.rst = false → s.phase = .exec ∨ s.phase = .waitIn →
    s.cur = some (.load 0) → s.inStack s.top → s.input.events = List.replicate n .silent ++ .byte b :: es →
    runSteps (n + 1) s = step { s with input := { s.input with events := .byte b :: es } }

/-- Rule R186, over whole runs of the recursive pseudocode: a run ends exactly when the run with every idle poll of the hosts taken
out does, and leaves the same. -/
def Obligations.RunsDoNotDependOnPortDelays : Prop :=
  ∀ s : State,
    (∀ (fuel : Nat) (t : State), interpret fuel s = some t →
      ∃ m u, interpret m s.undelayed = some u ∧ u.undelayed.arch = t.undelayed.arch) ∧
    (∀ (m : Nat) (u : State), interpret m s.undelayed = some u →
      ∃ fuel t, interpret fuel s = some t ∧ t.undelayed.arch = u.undelayed.arch)

/-! ### Invariants -/

/-- Every step keeps the cell arrays in canonical form (log entry 4), within their capacities, and memory cell 0 at zero. -/
def Obligations.StepKeepsTheCellArrays : Prop :=
  ∀ s t : State, s.CellsInv → step s = .next t → t.CellsInv

/-- The invariant holds after reset, for every program, every host and every choice of parameters within rule R8's constraints;
what had been emitted stays in the log, so it must have been words. -/
def Obligations.ResetMeetsTheInvariant : Prop :=
  State.reset.Inv ∧ ∀ s : State, s.params.wf → (∀ x ∈ s.output.log, isWord s.width x) → s.applyReset.Inv

/-- Every step keeps the whole invariant: canonical cell arrays, W-bit words everywhere, STATUS and the fault registers in
agreement with the FSM, a control stack of strictly falling depths within MAX_DEPTH, and `pc` and `top` in range between
instructions (rules R10, R25, R26, R29, R30, R32, R148). That the control stack is empty after a fault is log entry 9. -/
def Obligations.StepKeepsTheInvariant : Prop :=
  ∀ s t : State, s.Inv → step s = .next t → t.Inv

/-! ### The FSM and the recursive pseudocode -/

/-- A step is one or more transitions of rule R147's table; how many is the model's choice (log entry 5). -/
def Obligations.StepIsARunOfFsmTransitions : Prop :=
  ∀ s : State, ∃ n, step s = fsmRun (n + 1) s

/-- Rule R149, one operation: whenever the recursive pseudocode completes or raises, the FSM with that operation current comes to
the same effects, at any depth and under any frames, with the control stack as it was or the same fault raised. -/
def Obligations.FsmPerformsTheRecursiveOperation : Prop :=
  ∀ (fuel : Nat) (op : Opcode) (v : Int) (s : State) (r : UnitResult), s.rst = false →
    s.phase = .exec ∨ s.phase = .waitIn ∨ s.phase = .waitOut → s.cur = some (op.instr v) →
    execute fuel s.depth op v s = some r → ∃ n t, fsmRun n s = .next t ∧ r.reachedAt s t

/-- Rule R149, a whole run: whenever `interpret` ends, so does the machine, in DONE or FAULT, with the same stack, memory,
registers, status, input left and output emitted. -/
def Obligations.MachineRunsAsInterpretDoes : Prop :=
  ∀ (fuel : Nat) (s t : State), s.rst = false → s.phase = .fetch → interpret fuel s = some t →
    ∃ n u, runSteps n s = .next u ∧ u.halted ∧ u.arch = t.arch
end

