-- ==== Sys2Proof/Laws/Memory.lean ====
section
/-! SUPPORT. The laws of the cell arrays: a read after a write, and that a write keeps the canonical form and the bound. -/

namespace Sys2Proof.Machine

@[simp] theorem Memory.read_nil (a : Nat) : Memory.read [] a = Memory.unlisted := rfl

@[simp] theorem Memory.wf_nil : Memory.wf [] = true := rfl

@[simp] theorem Memory.within_nil (cap : Nat) : Memory.within [] cap = true := rfl

theorem Memory.wf_cons (a : Nat) (x : Int) (m : Memory) :
    Memory.wf ((a, x) :: m) = true ↔ x ≠ Memory.unlisted ∧ (∀ c ∈ m, a < c.1) ∧ Memory.wf m = true := by
  simp [Memory.wf, and_assoc]

theorem Memory.within_iff (m : Memory) (cap : Nat) : Memory.within m cap = true ↔ ∀ c ∈ m, c.1 < cap := by
  simp [Memory.within]

/-- An index below every listed one reads as unlisted. -/
theorem Memory.read_of_lt (m : Memory) (a : Nat) (h : ∀ c ∈ m, a < c.1) : Memory.read m a = Memory.unlisted := by
  induction m with
  | nil => rfl
  | cons c m ih =>
    have hc : a < c.1 := h c (by simp)
    rw [Memory.read, if_neg (by omega)]
    exact ih fun d hd => h d (by simp [hd])

/-- A write lists no index but the old ones and its own. -/
theorem Memory.mem_write (m : Memory) (a : Nat) (x : Int) (c : Nat × Int) (h : c ∈ Memory.write m a x) :
    c ∈ m ∨ c = (a, x) := by
  induction m with
  | nil => simp only [Memory.write] at h; split at h <;> simp_all
  | cons d m ih =>
    obtain ⟨b, y⟩ := d
    simp only [Memory.write] at h
    split at h
    · split at h <;> simp_all
      rcases h with h | h | h <;> simp [h]
    · split at h
      · split at h
        · simp_all
        · simp only [List.mem_cons] at h ⊢; rcases h with h | h <;> simp [h]
      · simp only [List.mem_cons] at h ⊢
        rcases h with h | h
        · simp [h]
        · rcases ih h with h | h <;> simp [h]

/-- A write keeps the canonical form. -/
theorem Memory.wf_write (m : Memory) (a : Nat) (x : Int) (h : Memory.wf m = true) :
    Memory.wf (Memory.write m a x) = true := by
  induction m with
  | nil =>
    simp only [Memory.write]
    split
    · rfl
    · simp [Memory.wf_cons, *]
  | cons d m ih =>
    obtain ⟨b, y⟩ := d
    have hm := (Memory.wf_cons b y m).1 h
    simp only [Memory.write]
    split
    · rename_i hab
      split
      · exact h
      · refine (Memory.wf_cons ..).2 ⟨by assumption, fun c hc => ?_, h⟩
        rcases List.mem_cons.1 hc with rfl | hc
        · exact hab
        · exact Nat.lt_trans hab (hm.2.1 c hc)
    · split
      · rename_i hab
        subst hab
        split
        · exact hm.2.2
        · exact (Memory.wf_cons ..).2 ⟨by assumption, hm.2.1, hm.2.2⟩
      · refine (Memory.wf_cons ..).2 ⟨hm.1, fun c hc => ?_, ih hm.2.2⟩
        rcases Memory.mem_write m a x c hc with hc | rfl
        · exact hm.2.1 c hc
        · simp only; omega

/-- A write below the bound keeps the bound. -/
theorem Memory.within_write (m : Memory) (a cap : Nat) (x : Int) (h : Memory.within m cap = true) (ha : a < cap) :
    Memory.within (Memory.write m a x) cap = true := by
  rw [Memory.within_iff] at h ⊢
  intro c hc
  rcases Memory.mem_write m a x c hc with hc | rfl
  · exact h c hc
  · exact ha

/-- A read of the cell just written gives the word written. -/
theorem Memory.read_write_same (m : Memory) (a : Nat) (x : Int) (h : Memory.wf m = true) :
    Memory.read (Memory.write m a x) a = x := by
  induction m with
  | nil => simp only [Memory.write]; split <;> simp_all [Memory.read]
  | cons d m ih =>
    obtain ⟨b, y⟩ := d
    have hm := (Memory.wf_cons b y m).1 h
    simp only [Memory.write]
    split
    · rename_i hab
      split
      · rename_i hx
        rw [hx]
        refine Memory.read_of_lt _ _ fun c hc => ?_
        rcases List.mem_cons.1 hc with rfl | hc
        · exact hab
        · exact Nat.lt_trans hab (hm.2.1 c hc)
      · simp [Memory.read]
    · split
      · rename_i hab
        subst hab
        split
        · rename_i hx
          rw [hx]
          exact Memory.read_of_lt _ _ hm.2.1
        · simp [Memory.read]
      · rename_i hab
        rw [Memory.read, if_neg hab]
        exact ih hm.2.2

/-- A write leaves every other cell alone. -/
theorem Memory.read_write_other (m : Memory) (a b : Nat) (x : Int) (h : b ≠ a) :
    Memory.read (Memory.write m a x) b = Memory.read m b := by
  induction m with
  | nil => simp only [Memory.write]; split <;> simp [Memory.read, h]
  | cons d m ih =>
    obtain ⟨c, y⟩ := d
    simp only [Memory.write]
    split
    · split
      · rfl
      · rw [Memory.read, if_neg h]
    · split
      · rename_i hac
        subst hac
        split <;> simp [Memory.read, h]
      · simp only [Memory.read]
        split
        · rfl
        · exact ih

end Sys2Proof.Machine
end

