-- ==== Sys2Proof/Laws/State.lean ====
section
/-! SUPPORT. One lemma for each field and each named update of State, true by rfl, so that no proof unfolds a record update. -/

namespace Sys2Proof.Machine

variable (s : State)

@[simp] theorem State.setTop_stk (x : Int) : (s.setTop x).stk = s.stk := rfl
@[simp] theorem State.setTop_top (x : Int) : (s.setTop x).top = x := rfl
@[simp] theorem State.setTop_mem (x : Int) : (s.setTop x).mem = s.mem := rfl
@[simp] theorem State.setTop_pc (x : Int) : (s.setTop x).pc = s.pc := rfl
@[simp] theorem State.setTop_status (x : Int) : (s.setTop x).status = s.status := rfl
@[simp] theorem State.setTop_faultPc (x : Int) : (s.setTop x).faultPc = s.faultPc := rfl
@[simp] theorem State.setTop_faultIndex (x : Int) : (s.setTop x).faultIndex = s.faultIndex := rfl
@[simp] theorem State.setTop_faultAddr (x : Int) : (s.setTop x).faultAddr = s.faultAddr := rfl
@[simp] theorem State.setTop_faultDepth (x : Int) : (s.setTop x).faultDepth = s.faultDepth := rfl
@[simp] theorem State.setTop_phase (x : Int) : (s.setTop x).phase = s.phase := rfl
@[simp] theorem State.setTop_cur (x : Int) : (s.setTop x).cur = s.cur := rfl
@[simp] theorem State.setTop_depth (x : Int) : (s.setTop x).depth = s.depth := rfl
@[simp] theorem State.setTop_frames (x : Int) : (s.setTop x).frames = s.frames := rfl
@[simp] theorem State.setTop_params (x : Int) : (s.setTop x).params = s.params := rfl
@[simp] theorem State.setTop_program (x : Int) : (s.setTop x).program = s.program := rfl
@[simp] theorem State.setTop_input (x : Int) : (s.setTop x).input = s.input := rfl
@[simp] theorem State.setTop_output (x : Int) : (s.setTop x).output = s.output := rfl
@[simp] theorem State.setTop_rst (x : Int) : (s.setTop x).rst = s.rst := rfl

@[simp] theorem State.retire_stk : (s.retire).stk = s.stk := rfl
@[simp] theorem State.retire_top : (s.retire).top = s.top := rfl
@[simp] theorem State.retire_mem : (s.retire).mem = s.mem := rfl
@[simp] theorem State.retire_pc : (s.retire).pc = s.pc := rfl
@[simp] theorem State.retire_status : (s.retire).status = s.status := rfl
@[simp] theorem State.retire_faultPc : (s.retire).faultPc = s.faultPc := rfl
@[simp] theorem State.retire_faultIndex : (s.retire).faultIndex = s.faultIndex := rfl
@[simp] theorem State.retire_faultAddr : (s.retire).faultAddr = s.faultAddr := rfl
@[simp] theorem State.retire_faultDepth : (s.retire).faultDepth = s.faultDepth := rfl
@[simp] theorem State.retire_phase : (s.retire).phase = .exec := rfl
@[simp] theorem State.retire_cur : (s.retire).cur = none := rfl
@[simp] theorem State.retire_depth : (s.retire).depth = s.depth := rfl
@[simp] theorem State.retire_frames : (s.retire).frames = s.frames := rfl
@[simp] theorem State.retire_params : (s.retire).params = s.params := rfl
@[simp] theorem State.retire_program : (s.retire).program = s.program := rfl
@[simp] theorem State.retire_input : (s.retire).input = s.input := rfl
@[simp] theorem State.retire_output : (s.retire).output = s.output := rfl
@[simp] theorem State.retire_rst : (s.retire).rst = s.rst := rfl

@[simp] theorem State.raise_stk (r : FaultReport) : (s.raise r).stk = s.stk := rfl
@[simp] theorem State.raise_top (r : FaultReport) : (s.raise r).top = s.top := rfl
@[simp] theorem State.raise_mem (r : FaultReport) : (s.raise r).mem = s.mem := rfl
@[simp] theorem State.raise_pc (r : FaultReport) : (s.raise r).pc = s.pc := rfl
@[simp] theorem State.raise_status (r : FaultReport) : (s.raise r).status = { state := .fault, waitIn := false, cause := r.cause } := rfl
@[simp] theorem State.raise_faultPc (r : FaultReport) : (s.raise r).faultPc = s.pc := rfl
@[simp] theorem State.raise_faultIndex (r : FaultReport) : (s.raise r).faultIndex = r.index := rfl
@[simp] theorem State.raise_faultAddr (r : FaultReport) : (s.raise r).faultAddr = r.addr := rfl
@[simp] theorem State.raise_faultDepth (r : FaultReport) : (s.raise r).faultDepth = r.depth := rfl
@[simp] theorem State.raise_phase (r : FaultReport) : (s.raise r).phase = .fault := rfl
@[simp] theorem State.raise_cur (r : FaultReport) : (s.raise r).cur = none := rfl
@[simp] theorem State.raise_depth (r : FaultReport) : (s.raise r).depth = 0 := rfl
@[simp] theorem State.raise_frames (r : FaultReport) : (s.raise r).frames = [] := rfl
@[simp] theorem State.raise_params (r : FaultReport) : (s.raise r).params = s.params := rfl
@[simp] theorem State.raise_program (r : FaultReport) : (s.raise r).program = s.program := rfl
@[simp] theorem State.raise_input (r : FaultReport) : (s.raise r).input = s.input := rfl
@[simp] theorem State.raise_output (r : FaultReport) : (s.raise r).output = s.output := rfl
@[simp] theorem State.raise_rst (r : FaultReport) : (s.raise r).rst = s.rst := rfl

@[simp] theorem State.awaitInput_stk (p : InputPort) : (s.awaitInput p).stk = s.stk := rfl
@[simp] theorem State.awaitInput_top (p : InputPort) : (s.awaitInput p).top = s.top := rfl
@[simp] theorem State.awaitInput_mem (p : InputPort) : (s.awaitInput p).mem = s.mem := rfl
@[simp] theorem State.awaitInput_pc (p : InputPort) : (s.awaitInput p).pc = s.pc := rfl
@[simp] theorem State.awaitInput_status (p : InputPort) : (s.awaitInput p).status = { s.status with waitIn := true } := rfl
@[simp] theorem State.awaitInput_faultPc (p : InputPort) : (s.awaitInput p).faultPc = s.faultPc := rfl
@[simp] theorem State.awaitInput_faultIndex (p : InputPort) : (s.awaitInput p).faultIndex = s.faultIndex := rfl
@[simp] theorem State.awaitInput_faultAddr (p : InputPort) : (s.awaitInput p).faultAddr = s.faultAddr := rfl
@[simp] theorem State.awaitInput_faultDepth (p : InputPort) : (s.awaitInput p).faultDepth = s.faultDepth := rfl
@[simp] theorem State.awaitInput_phase (p : InputPort) : (s.awaitInput p).phase = .waitIn := rfl
@[simp] theorem State.awaitInput_cur (p : InputPort) : (s.awaitInput p).cur = s.cur := rfl
@[simp] theorem State.awaitInput_depth (p : InputPort) : (s.awaitInput p).depth = s.depth := rfl
@[simp] theorem State.awaitInput_frames (p : InputPort) : (s.awaitInput p).frames = s.frames := rfl
@[simp] theorem State.awaitInput_params (p : InputPort) : (s.awaitInput p).params = s.params := rfl
@[simp] theorem State.awaitInput_program (p : InputPort) : (s.awaitInput p).program = s.program := rfl
@[simp] theorem State.awaitInput_input (p : InputPort) : (s.awaitInput p).input = p := rfl
@[simp] theorem State.awaitInput_output (p : InputPort) : (s.awaitInput p).output = s.output := rfl
@[simp] theorem State.awaitInput_rst (p : InputPort) : (s.awaitInput p).rst = s.rst := rfl

@[simp] theorem State.inputAnswered_stk (p : InputPort) : (s.inputAnswered p).stk = s.stk := rfl
@[simp] theorem State.inputAnswered_top (p : InputPort) : (s.inputAnswered p).top = s.top := rfl
@[simp] theorem State.inputAnswered_mem (p : InputPort) : (s.inputAnswered p).mem = s.mem := rfl
@[simp] theorem State.inputAnswered_pc (p : InputPort) : (s.inputAnswered p).pc = s.pc := rfl
@[simp] theorem State.inputAnswered_status (p : InputPort) : (s.inputAnswered p).status = { s.status with waitIn := false } := rfl
@[simp] theorem State.inputAnswered_faultPc (p : InputPort) : (s.inputAnswered p).faultPc = s.faultPc := rfl
@[simp] theorem State.inputAnswered_faultIndex (p : InputPort) : (s.inputAnswered p).faultIndex = s.faultIndex := rfl
@[simp] theorem State.inputAnswered_faultAddr (p : InputPort) : (s.inputAnswered p).faultAddr = s.faultAddr := rfl
@[simp] theorem State.inputAnswered_faultDepth (p : InputPort) : (s.inputAnswered p).faultDepth = s.faultDepth := rfl
@[simp] theorem State.inputAnswered_phase (p : InputPort) : (s.inputAnswered p).phase = s.phase := rfl
@[simp] theorem State.inputAnswered_cur (p : InputPort) : (s.inputAnswered p).cur = s.cur := rfl
@[simp] theorem State.inputAnswered_depth (p : InputPort) : (s.inputAnswered p).depth = s.depth := rfl
@[simp] theorem State.inputAnswered_frames (p : InputPort) : (s.inputAnswered p).frames = s.frames := rfl
@[simp] theorem State.inputAnswered_params (p : InputPort) : (s.inputAnswered p).params = s.params := rfl
@[simp] theorem State.inputAnswered_program (p : InputPort) : (s.inputAnswered p).program = s.program := rfl
@[simp] theorem State.inputAnswered_input (p : InputPort) : (s.inputAnswered p).input = p := rfl
@[simp] theorem State.inputAnswered_output (p : InputPort) : (s.inputAnswered p).output = s.output := rfl
@[simp] theorem State.inputAnswered_rst (p : InputPort) : (s.inputAnswered p).rst = s.rst := rfl

@[simp] theorem State.beginInstr_stk (i : Instr) : (s.beginInstr i).stk = s.stk := rfl
@[simp] theorem State.beginInstr_top (i : Instr) : (s.beginInstr i).top = s.top := rfl
@[simp] theorem State.beginInstr_mem (i : Instr) : (s.beginInstr i).mem = s.mem := rfl
@[simp] theorem State.beginInstr_pc (i : Instr) : (s.beginInstr i).pc = s.pc := rfl
@[simp] theorem State.beginInstr_status (i : Instr) : (s.beginInstr i).status = s.status := rfl
@[simp] theorem State.beginInstr_faultPc (i : Instr) : (s.beginInstr i).faultPc = s.faultPc := rfl
@[simp] theorem State.beginInstr_faultIndex (i : Instr) : (s.beginInstr i).faultIndex = s.faultIndex := rfl
@[simp] theorem State.beginInstr_faultAddr (i : Instr) : (s.beginInstr i).faultAddr = s.faultAddr := rfl
@[simp] theorem State.beginInstr_faultDepth (i : Instr) : (s.beginInstr i).faultDepth = s.faultDepth := rfl
@[simp] theorem State.beginInstr_phase (i : Instr) : (s.beginInstr i).phase = .exec := rfl
@[simp] theorem State.beginInstr_cur (i : Instr) : (s.beginInstr i).cur = some i := rfl
@[simp] theorem State.beginInstr_depth (i : Instr) : (s.beginInstr i).depth = 0 := rfl
@[simp] theorem State.beginInstr_frames (i : Instr) : (s.beginInstr i).frames = [] := rfl
@[simp] theorem State.beginInstr_params (i : Instr) : (s.beginInstr i).params = s.params := rfl
@[simp] theorem State.beginInstr_program (i : Instr) : (s.beginInstr i).program = s.program := rfl
@[simp] theorem State.beginInstr_input (i : Instr) : (s.beginInstr i).input = s.input := rfl
@[simp] theorem State.beginInstr_output (i : Instr) : (s.beginInstr i).output = s.output := rfl
@[simp] theorem State.beginInstr_rst (i : Instr) : (s.beginInstr i).rst = s.rst := rfl

@[simp] theorem State.pushFrame_stk (f : Frame) : (s.pushFrame f).stk = s.stk := rfl
@[simp] theorem State.pushFrame_top (f : Frame) : (s.pushFrame f).top = s.top := rfl
@[simp] theorem State.pushFrame_mem (f : Frame) : (s.pushFrame f).mem = s.mem := rfl
@[simp] theorem State.pushFrame_pc (f : Frame) : (s.pushFrame f).pc = s.pc := rfl
@[simp] theorem State.pushFrame_status (f : Frame) : (s.pushFrame f).status = s.status := rfl
@[simp] theorem State.pushFrame_faultPc (f : Frame) : (s.pushFrame f).faultPc = s.faultPc := rfl
@[simp] theorem State.pushFrame_faultIndex (f : Frame) : (s.pushFrame f).faultIndex = s.faultIndex := rfl
@[simp] theorem State.pushFrame_faultAddr (f : Frame) : (s.pushFrame f).faultAddr = s.faultAddr := rfl
@[simp] theorem State.pushFrame_faultDepth (f : Frame) : (s.pushFrame f).faultDepth = s.faultDepth := rfl
@[simp] theorem State.pushFrame_phase (f : Frame) : (s.pushFrame f).phase = s.phase := rfl
@[simp] theorem State.pushFrame_cur (f : Frame) : (s.pushFrame f).cur = s.cur := rfl
@[simp] theorem State.pushFrame_depth (f : Frame) : (s.pushFrame f).depth = s.depth := rfl
@[simp] theorem State.pushFrame_frames (f : Frame) : (s.pushFrame f).frames = f :: s.frames := rfl
@[simp] theorem State.pushFrame_params (f : Frame) : (s.pushFrame f).params = s.params := rfl
@[simp] theorem State.pushFrame_program (f : Frame) : (s.pushFrame f).program = s.program := rfl
@[simp] theorem State.pushFrame_input (f : Frame) : (s.pushFrame f).input = s.input := rfl
@[simp] theorem State.pushFrame_output (f : Frame) : (s.pushFrame f).output = s.output := rfl
@[simp] theorem State.pushFrame_rst (f : Frame) : (s.pushFrame f).rst = s.rst := rfl

@[simp] theorem State.leaveFrames_stk : (s.leaveFrames).stk = s.stk := rfl
@[simp] theorem State.leaveFrames_top : (s.leaveFrames).top = s.top := rfl
@[simp] theorem State.leaveFrames_mem : (s.leaveFrames).mem = s.mem := rfl
@[simp] theorem State.leaveFrames_pc : (s.leaveFrames).pc = s.pc := rfl
@[simp] theorem State.leaveFrames_status : (s.leaveFrames).status = s.status := rfl
@[simp] theorem State.leaveFrames_faultPc : (s.leaveFrames).faultPc = s.faultPc := rfl
@[simp] theorem State.leaveFrames_faultIndex : (s.leaveFrames).faultIndex = s.faultIndex := rfl
@[simp] theorem State.leaveFrames_faultAddr : (s.leaveFrames).faultAddr = s.faultAddr := rfl
@[simp] theorem State.leaveFrames_faultDepth : (s.leaveFrames).faultDepth = s.faultDepth := rfl
@[simp] theorem State.leaveFrames_phase : (s.leaveFrames).phase = .check := rfl
@[simp] theorem State.leaveFrames_cur : (s.leaveFrames).cur = none := rfl
@[simp] theorem State.leaveFrames_depth : (s.leaveFrames).depth = 0 := rfl
@[simp] theorem State.leaveFrames_frames : (s.leaveFrames).frames = [] := rfl
@[simp] theorem State.leaveFrames_params : (s.leaveFrames).params = s.params := rfl
@[simp] theorem State.leaveFrames_program : (s.leaveFrames).program = s.program := rfl
@[simp] theorem State.leaveFrames_input : (s.leaveFrames).input = s.input := rfl
@[simp] theorem State.leaveFrames_output : (s.leaveFrames).output = s.output := rfl
@[simp] theorem State.leaveFrames_rst : (s.leaveFrames).rst = s.rst := rfl

@[simp] theorem State.succeed_stk : (s.succeed).stk = s.stk := rfl
@[simp] theorem State.succeed_top : (s.succeed).top = s.top := rfl
@[simp] theorem State.succeed_mem : (s.succeed).mem = s.mem := rfl
@[simp] theorem State.succeed_pc : (s.succeed).pc = s.pc := rfl
@[simp] theorem State.succeed_status : (s.succeed).status = { s.status with state := .success } := rfl
@[simp] theorem State.succeed_faultPc : (s.succeed).faultPc = s.faultPc := rfl
@[simp] theorem State.succeed_faultIndex : (s.succeed).faultIndex = s.faultIndex := rfl
@[simp] theorem State.succeed_faultAddr : (s.succeed).faultAddr = s.faultAddr := rfl
@[simp] theorem State.succeed_faultDepth : (s.succeed).faultDepth = s.faultDepth := rfl
@[simp] theorem State.succeed_phase : (s.succeed).phase = .done := rfl
@[simp] theorem State.succeed_cur : (s.succeed).cur = s.cur := rfl
@[simp] theorem State.succeed_depth : (s.succeed).depth = s.depth := rfl
@[simp] theorem State.succeed_frames : (s.succeed).frames = s.frames := rfl
@[simp] theorem State.succeed_params : (s.succeed).params = s.params := rfl
@[simp] theorem State.succeed_program : (s.succeed).program = s.program := rfl
@[simp] theorem State.succeed_input : (s.succeed).input = s.input := rfl
@[simp] theorem State.succeed_output : (s.succeed).output = s.output := rfl
@[simp] theorem State.succeed_rst : (s.succeed).rst = s.rst := rfl

@[simp] theorem State.applyReset_stk : (s.applyReset).stk = [] := rfl
@[simp] theorem State.applyReset_top : (s.applyReset).top = 0 := rfl
@[simp] theorem State.applyReset_mem : (s.applyReset).mem = [] := rfl
@[simp] theorem State.applyReset_pc : (s.applyReset).pc = 0 := rfl
@[simp] theorem State.applyReset_status : (s.applyReset).status = { state := .running, waitIn := false, cause := .none } := rfl
@[simp] theorem State.applyReset_faultPc : (s.applyReset).faultPc = 0 := rfl
@[simp] theorem State.applyReset_faultIndex : (s.applyReset).faultIndex = 0 := rfl
@[simp] theorem State.applyReset_faultAddr : (s.applyReset).faultAddr = 0 := rfl
@[simp] theorem State.applyReset_faultDepth : (s.applyReset).faultDepth = 0 := rfl
@[simp] theorem State.applyReset_phase : (s.applyReset).phase = .fetch := rfl
@[simp] theorem State.applyReset_cur : (s.applyReset).cur = none := rfl
@[simp] theorem State.applyReset_depth : (s.applyReset).depth = 0 := rfl
@[simp] theorem State.applyReset_frames : (s.applyReset).frames = [] := rfl
@[simp] theorem State.applyReset_params : (s.applyReset).params = s.params := rfl
@[simp] theorem State.applyReset_program : (s.applyReset).program = s.program := rfl
@[simp] theorem State.applyReset_input : (s.applyReset).input = s.input := rfl
@[simp] theorem State.applyReset_output : (s.applyReset).output = s.output := rfl
@[simp] theorem State.applyReset_rst : (s.applyReset).rst = false := rfl

@[simp] theorem State.arch_stk : (s.arch).stk = s.stk := rfl
@[simp] theorem State.arch_top : (s.arch).top = s.top := rfl
@[simp] theorem State.arch_mem : (s.arch).mem = s.mem := rfl
@[simp] theorem State.arch_pc : (s.arch).pc = s.pc := rfl
@[simp] theorem State.arch_status : (s.arch).status = s.status := rfl
@[simp] theorem State.arch_faultPc : (s.arch).faultPc = s.faultPc := rfl
@[simp] theorem State.arch_faultIndex : (s.arch).faultIndex = s.faultIndex := rfl
@[simp] theorem State.arch_faultAddr : (s.arch).faultAddr = s.faultAddr := rfl
@[simp] theorem State.arch_faultDepth : (s.arch).faultDepth = s.faultDepth := rfl
@[simp] theorem State.arch_phase : (s.arch).phase = .fetch := rfl
@[simp] theorem State.arch_cur : (s.arch).cur = none := rfl
@[simp] theorem State.arch_depth : (s.arch).depth = 0 := rfl
@[simp] theorem State.arch_frames : (s.arch).frames = [] := rfl
@[simp] theorem State.arch_params : (s.arch).params = s.params := rfl
@[simp] theorem State.arch_program : (s.arch).program = s.program := rfl
@[simp] theorem State.arch_input : (s.arch).input = s.input := rfl
@[simp] theorem State.arch_output : (s.arch).output = s.output := rfl
@[simp] theorem State.arch_rst : (s.arch).rst = s.rst := rfl

end Sys2Proof.Machine
end

