-- ==== Sys2Proof/Laws/Ops.lean ====
section
/-! SUPPORT. For each shared operation, one lemma that says everything it can do; the proofs about instructions and steps cite
these and do not unfold the operations. -/

namespace Sys2Proof.Machine

/-! ### Range checks -/

/-- The three cases of the stack index check (rule R41). -/
theorem indexFault_cases (cap : Nat) (i : Int) :
    (indexFault cap i = some .stackUnderflow ∧ i < 0) ∨
    (indexFault cap i = some .stackOverflow ∧ (cap : Int) ≤ i ∧ 0 ≤ i) ∨
    (indexFault cap i = none ∧ 0 ≤ i ∧ i < cap) := by
  unfold indexFault
  split
  · exact .inl ⟨rfl, by assumption⟩
  · split
    · exact .inr (.inl ⟨rfl, by assumption, by omega⟩)
    · exact .inr (.inr ⟨rfl, by omega, by omega⟩)

theorem indexFault_none (cap : Nat) (i : Int) : indexFault cap i = none ↔ 0 ≤ i ∧ i < cap := by
  rcases indexFault_cases cap i with h | h | h <;> simp [h.1] <;> omega

theorem indexFault_of_neg {cap : Nat} {i : Int} (h : i < 0) : indexFault cap i = some .stackUnderflow := by
  simp [indexFault, h]

theorem indexFault_of_le {cap : Nat} {i : Int} (h : (cap : Int) ≤ i) : indexFault cap i = some .stackOverflow := by
  rw [indexFault, if_neg (by omega), if_pos h]

theorem addressRefused_iff (cap : Nat) (a : Int) :
    addressRefused cap a = true ↔ a < 0 ∨ (cap : Int) ≤ a := by
  simp [addressRefused]

theorem addressRefused_false (cap : Nat) (a : Int) :
    addressRefused cap a = false ↔ 0 ≤ a ∧ a < cap := by
  simp [addressRefused]

/-! ### The stack-access controller and the data memory -/

/-- Everything a stack read can answer (rule R42). -/
theorem State.stackRead_cases (s : State) (k : Nat) (i : Int) :
    (∃ c, indexFault s.params.stackCap i = some c ∧
      s.stackRead k i = .error { cause := c, index := i, depth := k }) ∨
    (s.inStack i ∧ s.stackRead k i = .ok (s.cell i.toNat)) := by
  unfold State.stackRead
  split
  · exact .inl ⟨_, by assumption, rfl⟩
  · rename_i h
    exact .inr ⟨(indexFault_none _ _).1 h, rfl⟩

theorem State.stackRead_ok {s : State} (k : Nat) {i : Int} (h : s.inStack i) :
    s.stackRead k i = .ok (s.cell i.toNat) := by
  simp [State.stackRead, (indexFault_none _ _).2 h]

/-- Everything a stack write can answer (rule R43). -/
theorem State.stackWrite_cases (s : State) (k : Nat) (i x : Int) :
    (∃ c, indexFault s.params.stackCap i = some c ∧
      s.stackWrite k i x = .error { cause := c, index := i, depth := k }) ∨
    (s.inStack i ∧ s.stackWrite k i x = .ok { s with stk := Memory.write s.stk i.toNat x }) := by
  unfold State.stackWrite
  split
  · exact .inl ⟨_, by assumption, rfl⟩
  · rename_i h
    exact .inr ⟨(indexFault_none _ _).1 h, rfl⟩

theorem State.stackWrite_ok {s : State} (k : Nat) {i : Int} (x : Int) (h : s.inStack i) :
    s.stackWrite k i x = .ok { s with stk := Memory.write s.stk i.toNat x } := by
  simp [State.stackWrite, (indexFault_none _ _).2 h]

/-- Everything a memory read can answer (rules R46, R47). -/
theorem State.memRead_cases (s : State) (k : Nat) (a : Int) :
    (¬ s.inMemory a ∧ s.memRead k a = .error { cause := .memoryOutOfRange, addr := a, depth := k }) ∨
    (s.inMemory a ∧ s.memRead k a = .ok (s.word a.toNat)) := by
  unfold State.memRead
  split
  · rename_i h
    rw [addressRefused_iff] at h
    exact .inl ⟨by simp only [State.inMemory]; omega, rfl⟩
  · rename_i h
    rw [addressRefused_iff] at h
    exact .inr ⟨by simp only [State.inMemory]; omega, rfl⟩

/-- Everything a memory write can answer (rules R46, R47). -/
theorem State.memWrite_cases (s : State) (k : Nat) (a x : Int) :
    (¬ s.inMemory a ∧ s.memWrite k a x = .error { cause := .memoryOutOfRange, addr := a, depth := k }) ∨
    (s.inMemory a ∧ s.memWrite k a x = .ok { s with mem := Memory.write s.mem a.toNat x }) := by
  unfold State.memWrite
  split
  · rename_i h
    rw [addressRefused_iff] at h
    exact .inl ⟨by simp only [State.inMemory]; omega, rfl⟩
  · rename_i h
    rw [addressRefused_iff] at h
    exact .inr ⟨by simp only [State.inMemory]; omega, rfl⟩

/-! ### Descriptors, ports and the FSM's own work -/

/-- Everything a descriptor pop can answer (rule R85). -/
theorem State.popDescriptor_cases (s : State) (k : Nat) :
    (∃ c, indexFault s.params.stackCap s.top = some c ∧
      s.popDescriptor k = .error { cause := c, index := s.top, depth := k }) ∨
    (s.inStack s.top ∧
      s.popDescriptor k = .ok (decodeCell (s.cell s.top.toNat), s.setTop (s.wrap (s.top - 1)))) := by
  unfold State.popDescriptor
  rcases s.stackRead_cases k s.top with ⟨c, hc, h⟩ | ⟨hi, h⟩
  · exact .inl ⟨c, hc, by rw [h]⟩
  · exact .inr ⟨hi, by rw [h]⟩

/-- Everything a poll of the input port can answer (rules R125 to R127). -/
theorem InputPort.poll_cases (p : InputPort) :
    (p.events = [] ∧ p.tail = .endOfInput ∧ p.poll = (.endOfInput, p)) ∨
    (p.events = [] ∧ p.tail = .silent ∧ p.poll = (.silent, p)) ∨
    (∃ es, p.events = .silent :: es ∧ p.poll = (.silent, { p with events := es })) ∨
    (∃ b es, p.events = .byte b :: es ∧ p.poll = (.byte b, { p with events := es })) := by
  obtain ⟨es, t⟩ := p
  rcases es with _ | ⟨_ | b, es⟩
  · cases t
    · exact .inl ⟨rfl, rfl, rfl⟩
    · exact .inr (.inl ⟨rfl, rfl, rfl⟩)
  · exact .inr (.inr (.inl ⟨es, rfl, rfl⟩))
  · exact .inr (.inr (.inr ⟨b, es, rfl, rfl⟩))

/-- Everything an offer to the sink can answer (rules R128, R129). -/
theorem OutputPort.offer_cases (p : OutputPort) (x : Int) :
    (∃ es, p.offer x = (true, { p with events := es, log := p.log ++ [x] })) ∨
    (∃ es, p.offer x = (false, { p with events := es })) := by
  obtain ⟨es, t, l⟩ := p
  rcases es with _ | ⟨_ | _, es⟩
  · cases t
    · exact .inl ⟨[], rfl⟩
    · exact .inr ⟨[], rfl⟩
  · exact .inl ⟨es, rfl⟩
  · exact .inr ⟨es, rfl⟩

/-- Everything an inner dispatch can do (rules R82, R84). -/
theorem State.dispatch_cases (s : State) (k : Nat) (op : Opcode) (v : Int) :
    (s.params.allowsDepth (k + 1) = true ∧
      s.dispatch k op v = { s with phase := .exec, cur := some (op.instr v), depth := k + 1 }) ∨
    (s.params.allowsDepth (k + 1) = false ∧
      s.dispatch k op v = s.raise { cause := .nestingDepthExceeded, depth := k + 1 }) := by
  unfold State.dispatch
  cases h : s.params.allowsDepth (k + 1)
  · exact .inr ⟨rfl, rfl⟩
  · exact .inl ⟨rfl, rfl⟩

/-- Everything the top-level check can do (rules R143, R144). -/
theorem State.topLevelCheck_cases (s : State) :
    (∃ c, indexFault s.params.stackCap s.top = some c ∧
      s.topLevelCheck = s.raise { cause := c, index := s.top, depth := 0 }) ∨
    (s.inStack s.top ∧ s.topLevelCheck = { s with pc := s.pc + 1, phase := .fetch }) := by
  unfold State.topLevelCheck
  split
  · exact .inl ⟨_, by assumption, rfl⟩
  · rename_i h
    exact .inr ⟨(indexFault_none _ _).1 h, rfl⟩

/-- Everything the RESUME loop can do (rule R148): it drops the frames whose count is used up, and either dispatches one more
iteration of the first that remains or, with none left, makes the top-level check. -/
theorem State.resumeFrames_cases (s : State) (fs : List Frame) :
    (s.resumeFrames fs = s.leaveFrames.topLevelCheck ∧ ∀ f ∈ fs, ¬ 0 < f.remaining) ∨
    (∃ used f rest, fs = used ++ f :: rest ∧ (∀ g ∈ used, ¬ 0 < g.remaining) ∧ 0 < f.remaining ∧
      s.resumeFrames fs = s.iterate f rest) := by
  induction fs with
  | nil => exact .inl ⟨rfl, by simp⟩
  | cons f rest ih =>
    unfold State.resumeFrames
    split
    · exact .inr ⟨[], f, rest, rfl, by simp, by assumption, rfl⟩
    · rename_i hf
      rcases ih with ⟨h, ha⟩ | ⟨used, g, tl, rfl, hu, hg, h⟩
      · exact .inl ⟨h, List.forall_mem_cons.2 ⟨hf, ha⟩⟩
      · exact .inr ⟨f :: used, g, tl, rfl, List.forall_mem_cons.2 ⟨hf, hu⟩, hg, h⟩

end Sys2Proof.Machine
end

