-- ==== Sys2Proof/Laws/Units.lean ====
section
/-! SUPPORT. Everything each operation unit can do, and everything `exec` can answer. -/

namespace Sys2Proof.Machine

@[simp] theorem UnitResult.outcome_done (s : State) : (UnitResult.done s).outcome = .next s.retire := rfl
@[simp] theorem UnitResult.outcome_raised (s : State) : (UnitResult.raised s).outcome = .next s := rfl
@[simp] theorem UnitResult.outcome_waiting (s : State) : (UnitResult.waiting s).outcome = .next s := rfl

/-- Push: the new top is written, or refused with `top` already incremented (rule R90). -/
theorem pushUnit_cases (k : Nat) (v : Int) (s : State) :
    (∃ c, indexFault s.params.stackCap (s.wrap (s.top + 1)) = some c ∧
      pushUnit k v s = .raised ((s.setTop (s.wrap (s.top + 1))).raise { cause := c, index := s.wrap (s.top + 1), depth := k })) ∨
    (s.inStack (s.wrap (s.top + 1)) ∧ pushUnit k v s =
      .done { s with top := s.wrap (s.top + 1), stk := Memory.write s.stk (s.wrap (s.top + 1)).toNat v }) := by
  unfold pushUnit
  rcases (s.setTop (s.wrap (s.top + 1))).stackWrite_cases k (s.wrap (s.top + 1)) v with ⟨c, hc, h⟩ | ⟨hi, h⟩
  · exact .inl ⟨c, hc, by simp only [State.setTop_top, h]⟩
  · exact .inr ⟨hi, by simp only [State.setTop_top, h]; rfl⟩

/-- Add: the cell at `top` is increased, or its read is refused (rule R92). -/
theorem addUnit_cases (k : Nat) (v : Int) (s : State) :
    (∃ c, indexFault s.params.stackCap s.top = some c ∧
      addUnit k v s = .raised (s.raise { cause := c, index := s.top, depth := k })) ∨
    (s.inStack s.top ∧ addUnit k v s =
      .done { s with stk := Memory.write s.stk s.top.toNat (s.wrap (s.cell s.top.toNat + v)) }) := by
  unfold addUnit
  rcases s.stackRead_cases k s.top with ⟨c, hc, h⟩ | ⟨hi, h⟩
  · exact .inl ⟨c, hc, by rw [h]⟩
  · exact .inr ⟨hi, by rw [h]; simp only [State.stackWrite_ok k _ hi]⟩

/-- A memory Load: the stack index is refused, the address is refused, or the cell at `top` is replaced (rule R120). -/
theorem loadMemory_cases (k : Nat) (v : Int) (s : State) :
    (∃ c, indexFault s.params.stackCap s.top = some c ∧
      loadMemory k v s = .raised (s.raise { cause := c, index := s.top, depth := k })) ∨
    (s.inStack s.top ∧ ¬ s.inMemory (loadAddress s.width v (s.cell s.top.toNat)) ∧ loadMemory k v s = .raised (s.raise
      { cause := .memoryOutOfRange, addr := loadAddress s.width v (s.cell s.top.toNat), depth := k })) ∨
    (s.inStack s.top ∧ s.inMemory (loadAddress s.width v (s.cell s.top.toNat)) ∧ loadMemory k v s =
      .done { s with stk := Memory.write s.stk s.top.toNat
                       (s.word (loadAddress s.width v (s.cell s.top.toNat)).toNat) }) := by
  unfold loadMemory
  rcases s.stackRead_cases k s.top with ⟨c, hc, h⟩ | ⟨hi, h⟩
  · exact .inl ⟨c, hc, by rw [h]⟩
  · simp only [h]
    rcases s.memRead_cases k (loadAddress s.width v (s.cell s.top.toNat)) with ⟨ha, h2⟩ | ⟨ha, h2⟩
    · exact .inr (.inl ⟨hi, ha, by rw [h2]⟩)
    · exact .inr (.inr ⟨hi, ha, by rw [h2]; simp only [State.stackWrite_ok k _ hi]⟩)

/-- An input Load: the stack index is refused, the host is silent, the stream is over, or the cell at `top` is replaced
(rules R120, R125 to R127). -/
theorem loadInput_cases (k : Nat) (s : State) :
    (∃ c, indexFault s.params.stackCap s.top = some c ∧
      loadInput k s = .raised (s.raise { cause := c, index := s.top, depth := k })) ∨
    (s.inStack s.top ∧ ∃ p, s.input.poll = (.silent, p) ∧ loadInput k s = .waiting (s.awaitInput p)) ∨
    (s.inStack s.top ∧ ∃ p, s.input.poll = (.endOfInput, p) ∧
      loadInput k s = .raised ((s.inputAnswered p).raise { cause := .endOfInput, depth := k })) ∨
    (s.inStack s.top ∧ ∃ b p, s.input.poll = (.byte b, p) ∧ loadInput k s =
      .done { s.inputAnswered p with stk := Memory.write s.stk s.top.toNat (inputWord b) }) := by
  unfold loadInput
  rcases s.stackRead_cases k s.top with ⟨c, hc, h⟩ | ⟨hi, h⟩
  · exact .inl ⟨c, hc, by rw [h]⟩
  · simp only [h]
    rcases hp : s.input.poll with ⟨_ | b | _, p⟩
    · exact .inr (.inl ⟨hi, p, rfl, rfl⟩)
    · refine .inr (.inr (.inr ⟨hi, b, p, rfl, ?_⟩))
      simp only [State.stackWrite_ok (s := s.inputAnswered p) k (inputWord b) hi]
      rfl
    · exact .inr (.inr (.inl ⟨hi, p, rfl, rfl⟩))

/-- Store: the stack index is refused, the address is refused, the cell is stored, the sink is busy, or the sink takes the
word (rules R121, R128, R129). -/
theorem storeUnit_cases (k : Nat) (v : Int) (s : State) :
    (∃ c, indexFault s.params.stackCap s.top = some c ∧
      storeUnit k v s = .raised (s.raise { cause := c, index := s.top, depth := k })) ∨
    (s.inStack s.top ∧ v ≠ 0 ∧ ¬ s.inMemory (storeAddress v) ∧ storeUnit k v s =
      .raised (s.raise { cause := .memoryOutOfRange, addr := storeAddress v, depth := k })) ∨
    (s.inStack s.top ∧ v ≠ 0 ∧ s.inMemory (storeAddress v) ∧ storeUnit k v s =
      .done { s with top := s.wrap (s.top - 1), mem := Memory.write s.mem (storeAddress v).toNat (s.cell s.top.toNat) }) ∨
    (s.inStack s.top ∧ v = 0 ∧ ∃ p, s.output.offer (s.cell s.top.toNat) = (false, p) ∧
      storeUnit k v s = .waiting { s with output := p, phase := .waitOut }) ∨
    (s.inStack s.top ∧ v = 0 ∧ ∃ p, s.output.offer (s.cell s.top.toNat) = (true, p) ∧
      storeUnit k v s = .done { s with output := p, top := s.wrap (s.top - 1) }) := by
  unfold storeUnit
  rcases s.stackRead_cases k s.top with ⟨c, hc, h⟩ | ⟨hi, h⟩
  · exact .inl ⟨c, hc, by rw [h]⟩
  · simp only [h]
    by_cases hv : v = 0
    · simp only [hv, ne_eq, not_true_eq_false, if_false]
      rcases hp : s.output.offer (s.cell s.top.toNat) with ⟨_ | _, p⟩
      · exact .inr (.inr (.inr (.inl ⟨hi, trivial, p, rfl, rfl⟩)))
      · exact .inr (.inr (.inr (.inr ⟨hi, trivial, p, rfl, rfl⟩)))
    · simp only [ne_eq, hv, not_false_eq_true, if_true]
      rcases s.memWrite_cases k (storeAddress v) (s.cell s.top.toNat) with ⟨ha, h2⟩ | ⟨ha, h2⟩
      · exact .inr (.inl ⟨hi, trivial, ha, by rw [h2]⟩)
      · exact .inr (.inr (.inl ⟨hi, trivial, ha, by rw [h2]; rfl⟩))

/-- Repeat: the descriptor is refused, or popped and its frame pushed (rules R85, R100, R148). -/
theorem execRepeat_cases (v : Int) (s : State) :
    (∃ c, indexFault s.params.stackCap s.top = some c ∧
      execRepeat v s = .next (s.raise { cause := c, index := s.top, depth := s.depth })) ∨
    (s.inStack s.top ∧ execRepeat v s = .next ((s.setTop (s.wrap (s.top - 1))).pushFrame
      { depth := s.depth, op := (decodeCell (s.cell s.top.toNat)).1, value := v,
        remaining := (decodeCell (s.cell s.top.toNat)).2 }).retire) := by
  unfold execRepeat
  rcases s.popDescriptor_cases s.depth with ⟨c, hc, h⟩ | ⟨hi, h⟩
  · exact .inl ⟨c, hc, by rw [h]⟩
  · exact .inr ⟨hi, by rw [h]⟩

/-- Extend: the descriptor is refused, or popped and the inner operation dispatched with the widened value (rule R102). -/
theorem execExtend_cases (v : Int) (s : State) :
    (∃ c, indexFault s.params.stackCap s.top = some c ∧
      execExtend v s = .next (s.raise { cause := c, index := s.top, depth := s.depth })) ∨
    (s.inStack s.top ∧ execExtend v s = .next ((s.setTop (s.wrap (s.top - 1))).dispatch s.depth
      (decodeCell (s.cell s.top.toNat)).1 (widen s.width v (decodeCell (s.cell s.top.toNat)).2))) := by
  unfold execExtend
  rcases s.popDescriptor_cases s.depth with ⟨c, hc, h⟩ | ⟨hi, h⟩
  · exact .inl ⟨c, hc, by rw [h]⟩
  · exact .inr ⟨hi, by rw [h]⟩

/-- Conditional: the descriptor is refused, or popped and the inner operation dispatched exactly when the guard is positive
(rule R104). -/
theorem execConditional_cases (v : Int) (s : State) :
    (∃ c, indexFault s.params.stackCap s.top = some c ∧
      execConditional v s = .next (s.raise { cause := c, index := s.top, depth := s.depth })) ∨
    (s.inStack s.top ∧ 0 < (decodeCell (s.cell s.top.toNat)).2 ∧ execConditional v s =
      .next ((s.setTop (s.wrap (s.top - 1))).dispatch s.depth (decodeCell (s.cell s.top.toNat)).1 v)) ∨
    (s.inStack s.top ∧ ¬ 0 < (decodeCell (s.cell s.top.toNat)).2 ∧
      execConditional v s = .next (s.setTop (s.wrap (s.top - 1))).retire) := by
  unfold execConditional
  rcases s.popDescriptor_cases s.depth with ⟨c, hc, h⟩ | ⟨hi, h⟩
  · exact .inl ⟨c, hc, by rw [h]⟩
  · rw [h]
    by_cases hg : 0 < (decodeCell (s.cell s.top.toNat)).2
    · exact .inr (.inl ⟨hi, hg, if_pos hg⟩)
    · exact .inr (.inr ⟨hi, hg, if_neg hg⟩)

/-! ### The instructions as their units -/

theorem exec_push (v : Int) (s : State) : exec (.push v) s = (pushUnit s.depth v s).outcome := rfl
theorem exec_pop (v : Int) (s : State) : exec (.pop v) s = .next (s.setTop (s.wrap (s.top - v))).retire := rfl
theorem exec_add (v : Int) (s : State) : exec (.add v) s = (addUnit s.depth v s).outcome := rfl
theorem exec_store (v : Int) (s : State) : exec (.store v) s = (storeUnit s.depth v s).outcome := rfl

theorem exec_load_memory {v : Int} (h : v ≠ 0) (s : State) : exec (.load v) s = (loadMemory s.depth v s).outcome := by
  rw [exec, execLoad, loadUnit, if_pos h]

theorem exec_load_input (s : State) : exec (.load 0) s = (loadInput s.depth s).outcome := by
  rw [exec, execLoad, loadUnit, if_neg (by simp)]

/-- An operation unit's end is always a next state. -/
theorem UnitResult.outcome_next (r : UnitResult) : ∃ t, r.outcome = .next t := by
  cases r <;> exact ⟨_, rfl⟩

/-- Every instruction answers a next state, from every state (rule R68). -/
theorem exec_next (i : Instr) (s : State) : ∃ t, exec i s = .next t := by
  cases i with
  | push v => exact UnitResult.outcome_next _
  | pop v => exact ⟨_, rfl⟩
  | add v => exact UnitResult.outcome_next _
  | rep v => rcases execRepeat_cases v s with ⟨_, _, h⟩ | ⟨_, h⟩ <;> exact ⟨_, h⟩
  | extend v => rcases execExtend_cases v s with ⟨_, _, h⟩ | ⟨_, h⟩ <;> exact ⟨_, h⟩
  | conditional v => rcases execConditional_cases v s with ⟨_, _, h⟩ | ⟨_, _, h⟩ | ⟨_, _, h⟩ <;> exact ⟨_, h⟩
  | load v => exact UnitResult.outcome_next _
  | store v => exact UnitResult.outcome_next _

end Sys2Proof.Machine
end

