-- ==== Sys2Proof/Laws/Step.lean ====
section
/-! SUPPORT. Everything the FSM's own work and a step can do, said once; and what every instruction leaves alone. -/

namespace Sys2Proof.Machine

/-! ### RESUME and CHECK -/

/-- The FSM is in a state that an operation or a port has to move on. -/
abbrev State.performing (s : State) : Prop := s.phase = .exec ∨ s.phase = .waitIn ∨ s.phase = .waitOut

/-- Everything `settle` can do. -/
theorem State.settle_cases (s : State) :
    (s.settle = s ∧ ((s.performing ∧ s.cur.isSome = true) ∨ s.phase = .fetch ∨ s.phase = .done ∨ s.phase = .fault)) ∨
    (((s.performing ∧ s.cur = none) ∨ s.phase = .resume) ∧ s.settle = s.resumeFrames s.frames) ∨
    (s.phase = .check ∧ s.settle = s.topLevelCheck) := by
  unfold State.settle State.performing
  cases hp : s.phase <;> cases hc : s.cur <;> simp

/-- An operation that chose the next one: nothing is left to do. -/
theorem State.settle_of_cur {s : State} {i : Instr} (hp : s.phase = .exec) (hc : s.cur = some i) : s.settle = s := by
  simp [State.settle, hp, hc]

/-- A fault ends the step. -/
theorem State.settle_of_fault {s : State} (hp : s.phase = .fault) : s.settle = s := by simp [State.settle, hp]

@[simp] theorem State.settle_raise (s : State) (r : FaultReport) : (s.raise r).settle = s.raise r := rfl

@[simp] theorem State.settle_retire (s : State) : s.retire.settle = s.retire.resumeFrames s.frames := rfl

@[simp] theorem State.raise_leaveFrames (s : State) (r : FaultReport) : s.leaveFrames.raise r = s.raise r := rfl

@[simp] theorem State.raise_retire (s : State) (r : FaultReport) : s.retire.raise r = s.raise r := rfl

/-- Everything one more iteration of a Repeat can do (rules R82, R148). -/
theorem State.iterate_cases (s : State) (f : Frame) (rest : List Frame) :
    (s.params.allowsDepth (f.depth + 1) = true ∧ s.iterate f rest = { s with
      phase := .exec, cur := some (f.op.instr f.value), depth := f.depth + 1,
      frames := { f with remaining := f.remaining - 1 } :: rest }) ∨
    (s.params.allowsDepth (f.depth + 1) = false ∧
      s.iterate f rest = s.raise { cause := .nestingDepthExceeded, depth := f.depth + 1 }) := by
  unfold State.iterate
  rcases State.dispatch_cases { s with frames := { f with remaining := f.remaining - 1 } :: rest } f.depth f.op f.value with
    ⟨ha, h⟩ | ⟨ha, h⟩
  · exact .inl ⟨ha, by rw [h]⟩
  · exact .inr ⟨ha, by rw [h]; rfl⟩

/-- Everything the RESUME loop can end in, with CHECK. -/
theorem State.resumeFrames_ends (s : State) (fs : List Frame) :
    (s.inStack s.top ∧ s.resumeFrames fs = { s with pc := s.pc + 1, phase := .fetch, cur := none, depth := 0, frames := [] }) ∨
    (∃ c, indexFault s.params.stackCap s.top = some c ∧
      s.resumeFrames fs = s.raise { cause := c, index := s.top, depth := 0 }) ∨
    (∃ used f rest, fs = used ++ f :: rest ∧ 0 < f.remaining ∧ s.params.allowsDepth (f.depth + 1) = true ∧
      s.resumeFrames fs = { s with phase := .exec, cur := some (f.op.instr f.value), depth := f.depth + 1,
                                   frames := { f with remaining := f.remaining - 1 } :: rest }) ∨
    (∃ used f rest, fs = used ++ f :: rest ∧ 0 < f.remaining ∧ s.params.allowsDepth (f.depth + 1) = false ∧
      s.resumeFrames fs = s.raise { cause := .nestingDepthExceeded, depth := f.depth + 1 }) := by
  rcases s.resumeFrames_cases fs with ⟨h, _⟩ | ⟨used, f, rest, hfs, _, hf, h⟩
  · rcases s.leaveFrames.topLevelCheck_cases with ⟨c, hc, h2⟩ | ⟨hi, h2⟩
    · exact .inr (.inl ⟨c, hc, by rw [h, h2]; rfl⟩)
    · exact .inl ⟨hi, by rw [h, h2]; rfl⟩
  · rcases s.iterate_cases f rest with ⟨ha, h2⟩ | ⟨ha, h2⟩
    · exact .inr (.inr (.inl ⟨used, f, rest, hfs, hf, ha, by rw [h, h2]⟩))
    · exact .inr (.inr (.inr ⟨used, f, rest, hfs, hf, ha, by rw [h, h2]⟩))

/-! ### A step -/

/-- Everything a step can do: serve a reset, end the run, run the fetched instruction, run the current operation, follow the FSM
where no operation is current, or, after the end of the run, nothing. -/
theorem step_cases {s t : State} (h : step s = .next t) :
    (s.rst = true ∧ t = s.applyReset) ∨
    (s.rst = false ∧ s.phase = .fetch ∧ s.fetchByte = none ∧ t = s.succeed) ∨
    (s.rst = false ∧ s.phase = .fetch ∧ ∃ b u, s.fetchByte = some b ∧
      exec (decodeByte b) (s.beginInstr (decodeByte b)) = .next u ∧ t = u.settle) ∨
    (s.rst = false ∧ s.performing ∧ ∃ i u, s.cur = some i ∧ exec i s = .next u ∧ t = u.settle) ∨
    (s.rst = false ∧ ((s.performing ∧ s.cur = none) ∨ s.phase = .resume ∨ s.phase = .check) ∧ t = s.settle) ∨
    (s.rst = false ∧ s.halted ∧ t = s) := by
  have run : ∀ i v, thenSettle (exec i v) = .next t → ∃ u, exec i v = .next u ∧ t = u.settle := by
    intro i v hv
    obtain ⟨u, hu⟩ := exec_next i v
    rw [hu] at hv
    exact ⟨u, hu, by cases hv; rfl⟩
  unfold step at h
  cases hr : s.rst
  · simp only [hr, Bool.false_eq_true, if_false] at h
    unfold State.performing State.halted
    cases hp : s.phase <;> simp only [hp] at h
    case fetch =>
      cases hb : s.fetchByte <;> simp only [hb] at h
      · cases h; simp
      · obtain ⟨u, hu, rfl⟩ := run _ _ h
        exact .inr (.inr (.inl ⟨rfl, rfl, _, u, rfl, hu, rfl⟩))
    case exec | waitIn | waitOut =>
      cases hc : s.cur <;> simp only [hc] at h
      · cases h; simp
      · obtain ⟨u, hu, rfl⟩ := run _ _ h
        exact .inr (.inr (.inr (.inl ⟨rfl, by simp, _, u, rfl, hu, rfl⟩)))
    all_goals cases h; simp
  · simp only [hr, if_true] at h
    cases h
    exact .inl ⟨rfl, rfl⟩

/-- A step from an operation that is current. -/
theorem step_of_cur {s u : State} {i : Instr} (hr : s.rst = false) (hp : s.performing) (hc : s.cur = some i)
    (hu : exec i s = .next u) : step s = .next u.settle := by
  rcases hp with hp | hp | hp <;> simp [step, hr, hp, hc, hu, thenSettle]

/-- A step from FETCH. -/
theorem step_of_fetch {s u : State} {b : Byte} (hr : s.rst = false) (hp : s.phase = .fetch) (hb : s.fetchByte = some b)
    (hu : exec (decodeByte b) (s.beginInstr (decodeByte b)) = .next u) : step s = .next u.settle := by
  simp [step, hr, hp, hb, hu, thenSettle]

/-! ### Runs -/

theorem runSteps_succ {n : Nat} {s u : State} (h : step s = .next u) : runSteps (n + 1) s = runSteps n u := by
  rw [runSteps, h]

/-- Two runs one after the other are one run. -/
theorem runSteps_add {m : Nat} (n : Nat) {s u : State} (h : runSteps m s = .next u) :
    runSteps (m + n) s = runSteps n u := by
  induction m generalizing s with
  | zero => cases h; simp
  | succ m ih =>
    rcases hs : step s with v | r | r
    · rw [runSteps_succ hs] at h
      rw [show m + 1 + n = (m + n) + 1 by omega, runSteps_succ hs]
      exact ih h
    · exact nomatch r
    · rw [runSteps, hs] at h; cases h

/-- One step of the host's run, for any machine. -/
theorem host_run_succ (M : Host.Core) (n : Nat) {s u : M.State} (h : M.step s = .next u) :
    Host.Core.run M (n + 1) s = Host.Core.run M n u := by
  rw [Host.Core.run, h]

/-- The host's run of this machine is `runSteps`, whenever every step of it answers. -/
theorem core_run_eq {n : Nat} {s t : State} (h : runSteps n s = .next t) : Host.Core.run Sys2Proof.core n s = .next t := by
  induction n generalizing s with
  | zero => exact h
  | succ n ih =>
    rcases hs : step s with v | r | r
    · rw [runSteps_succ hs] at h
      exact (host_run_succ Sys2Proof.core n hs).trans (ih h)
    · exact nomatch r
    · rw [runSteps, hs] at h; cases h

theorem fsmRun_succ {n : Nat} {s u : State} (h : fsmStep s = .next u) : fsmRun (n + 1) s = fsmRun n u := by
  rw [fsmRun, h]

/-- Two runs of the FSM one after the other are one run. -/
theorem fsmRun_add {m : Nat} (n : Nat) {s u : State} (h : fsmRun m s = .next u) : fsmRun (m + n) s = fsmRun n u := by
  induction m generalizing s with
  | zero => cases h; simp
  | succ m ih =>
    rcases hs : fsmStep s with v | r | r
    · rw [fsmRun_succ hs] at h
      rw [show m + 1 + n = (m + n) + 1 by omega, fsmRun_succ hs]
      exact ih h
    · exact nomatch r
    · rw [fsmRun, hs] at h; cases h

end Sys2Proof.Machine
end

