-- ==== Sys2Proof/Laws/Exec.lean ====
section
/-! SUPPORT. Every way an instruction can end, one constructor each, and that `exec` ends in one of them; a proof about all
instructions is a case analysis over these. -/

namespace Sys2Proof.Machine

/-- The cell at `top`. -/
abbrev State.topCell (s : State) : Int := s.cell s.top.toNat

/-- The ends of `exec i s`: it completed, it chose an inner operation, it waits, or it raised. -/
inductive ExecEnd : Instr → State → State → Prop where
  | pushed {v : Int} {s : State} (hi : s.inStack (s.wrap (s.top + 1))) : ExecEnd (.push v) s
      { s with top := s.wrap (s.top + 1), stk := Memory.write s.stk (s.wrap (s.top + 1)).toNat v, phase := .exec, cur := none }
  | popped {v : Int} {s : State} : ExecEnd (.pop v) s { s with top := s.wrap (s.top - v), phase := .exec, cur := none }
  | added {v : Int} {s : State} (hi : s.inStack s.top) : ExecEnd (.add v) s
      { s with stk := Memory.write s.stk s.top.toNat (s.wrap (s.topCell + v)), phase := .exec, cur := none }
  | loaded {v : Int} {s : State} (hv : v ≠ 0) (hi : s.inStack s.top) (hm : s.inMemory (loadAddress s.width v s.topCell)) :
      ExecEnd (.load v) s { s with
        stk := Memory.write s.stk s.top.toNat (s.word (loadAddress s.width v s.topCell).toNat), phase := .exec, cur := none }
  | read {s : State} {b : Byte} {p : InputPort} (hi : s.inStack s.top) (hp : s.input.poll = (.byte b, p)) :
      ExecEnd (.load 0) s { s with
        stk := Memory.write s.stk s.top.toNat (inputWord b), input := p,
        status := { s.status with waitIn := false }, phase := .exec, cur := none }
  | awaits {s : State} {p : InputPort} (hi : s.inStack s.top) (hp : s.input.poll = (.silent, p)) :
      ExecEnd (.load 0) s { s with input := p, status := { s.status with waitIn := true }, phase := .waitIn }
  | stored {v : Int} {s : State} (hv : v ≠ 0) (hi : s.inStack s.top) (hm : s.inMemory v) :
      ExecEnd (.store v) s { s with
        top := s.wrap (s.top - 1), mem := Memory.write s.mem v.toNat s.topCell, phase := .exec, cur := none }
  | emitted {s : State} {p : OutputPort} (hi : s.inStack s.top) (hp : s.output.offer s.topCell = (true, p)) :
      ExecEnd (.store 0) s { s with output := p, top := s.wrap (s.top - 1), phase := .exec, cur := none }
  | offers {s : State} {p : OutputPort} (hi : s.inStack s.top) (hp : s.output.offer s.topCell = (false, p)) :
      ExecEnd (.store 0) s { s with output := p, phase := .waitOut }
  | framed {v : Int} {s : State} (hi : s.inStack s.top) : ExecEnd (.rep v) s
      { s with top := s.wrap (s.top - 1), phase := .exec, cur := none,
               frames := { depth := s.depth, op := (decodeCell s.topCell).1, value := v,
                           remaining := (decodeCell s.topCell).2 } :: s.frames }
  | extended {v : Int} {s : State} (hi : s.inStack s.top) (ha : s.params.allowsDepth (s.depth + 1) = true) :
      ExecEnd (.extend v) s { s with
        top := s.wrap (s.top - 1), phase := .exec, depth := s.depth + 1,
        cur := some ((decodeCell s.topCell).1.instr (widen s.width v (decodeCell s.topCell).2)) }
  | fired {v : Int} {s : State} (hi : s.inStack s.top) (hg : 0 < (decodeCell s.topCell).2)
      (ha : s.params.allowsDepth (s.depth + 1) = true) : ExecEnd (.conditional v) s { s with
        top := s.wrap (s.top - 1), phase := .exec, depth := s.depth + 1, cur := some ((decodeCell s.topCell).1.instr v) }
  | passed {v : Int} {s : State} (hi : s.inStack s.top) (hg : ¬ 0 < (decodeCell s.topCell).2) :
      ExecEnd (.conditional v) s { s with top := s.wrap (s.top - 1), phase := .exec, cur := none }
  | pushRefused {v : Int} {s : State} {c : Cause} (hc : indexFault s.params.stackCap (s.wrap (s.top + 1)) = some c) :
      ExecEnd (.push v) s ((s.setTop (s.wrap (s.top + 1))).raise { cause := c, index := s.wrap (s.top + 1), depth := s.depth })
  | accessRefused {i : Instr} {s : State} {c : Cause} (hc : indexFault s.params.stackCap s.top = some c)
      (hi : i.opcode ≠ .push ∧ i.opcode ≠ .pop) :
      ExecEnd i s (s.raise { cause := c, index := s.top, depth := s.depth })
  | loadRefused {v : Int} {s : State} (hv : v ≠ 0) (hi : s.inStack s.top) (hm : ¬ s.inMemory (loadAddress s.width v s.topCell)) :
      ExecEnd (.load v) s
        (s.raise { cause := .memoryOutOfRange, addr := loadAddress s.width v s.topCell, depth := s.depth })
  | storeRefused {v : Int} {s : State} (hv : v ≠ 0) (hi : s.inStack s.top) (hm : ¬ s.inMemory v) :
      ExecEnd (.store v) s (s.raise { cause := .memoryOutOfRange, addr := v, depth := s.depth })
  | inputEnded {s : State} {p : InputPort} (hi : s.inStack s.top) (hp : s.input.poll = (.endOfInput, p)) :
      ExecEnd (.load 0) s ((s.inputAnswered p).raise { cause := .endOfInput, depth := s.depth })
  | tooDeep {i : Instr} {s : State} (hi : s.inStack s.top) (ha : s.params.allowsDepth (s.depth + 1) = false)
      (hc : i.opcode = .extend ∨ i.opcode = .conditional) :
      ExecEnd i s ((s.setTop (s.wrap (s.top - 1))).raise { cause := .nestingDepthExceeded, depth := s.depth + 1 })

/-- `exec` ends in one of these. -/
theorem exec_end {i : Instr} {s u : State} (h : exec i s = .next u) : ExecEnd i s u := by
  cases i with
  | push v =>
    rw [exec_push] at h
    rcases pushUnit_cases s.depth v s with ⟨c, hc, h2⟩ | ⟨hi, h2⟩ <;> rw [h2] at h <;> cases h
    · exact .pushRefused hc
    · exact .pushed hi
  | pop v => rw [exec_pop] at h; cases h; exact .popped
  | add v =>
    rw [exec_add] at h
    rcases addUnit_cases s.depth v s with ⟨c, hc, h2⟩ | ⟨hi, h2⟩ <;> rw [h2] at h <;> cases h
    · exact .accessRefused hc (by simp [Instr.opcode])
    · exact .added hi
  | rep v =>
    replace h : execRepeat v s = .next u := h
    rcases execRepeat_cases v s with ⟨c, hc, h2⟩ | ⟨hi, h2⟩ <;> rw [h2] at h <;> cases h
    · exact .accessRefused hc (by simp [Instr.opcode])
    · exact .framed hi
  | extend v =>
    replace h : execExtend v s = .next u := h
    rcases execExtend_cases v s with ⟨c, hc, h2⟩ | ⟨hi, h2⟩ <;> rw [h2] at h
    · cases h; exact .accessRefused hc (by simp [Instr.opcode])
    · rcases (s.setTop (s.wrap (s.top - 1))).dispatch_cases s.depth (decodeCell s.topCell).1
        (widen s.width v (decodeCell s.topCell).2) with ⟨ha, h3⟩ | ⟨ha, h3⟩ <;> rw [h3] at h <;> cases h
      · exact .extended hi ha
      · exact .tooDeep hi ha (.inl rfl)
  | conditional v =>
    replace h : execConditional v s = .next u := h
    rcases execConditional_cases v s with ⟨c, hc, h2⟩ | ⟨hi, hg, h2⟩ | ⟨hi, hg, h2⟩ <;> rw [h2] at h
    · cases h; exact .accessRefused hc (by simp [Instr.opcode])
    · rcases (s.setTop (s.wrap (s.top - 1))).dispatch_cases s.depth (decodeCell s.topCell).1 v with ⟨ha, h3⟩ | ⟨ha, h3⟩ <;>
        rw [h3] at h <;> cases h
      · exact .fired hi hg ha
      · exact .tooDeep hi ha (.inr rfl)
    · cases h; exact .passed hi hg
  | load v =>
    by_cases hv : v = 0
    · subst hv
      rw [exec_load_input] at h
      rcases loadInput_cases s.depth s with ⟨c, hc, h2⟩ | ⟨hi, p, hp, h2⟩ | ⟨hi, p, hp, h2⟩ | ⟨hi, b, p, hp, h2⟩ <;>
        rw [h2] at h <;> cases h
      · exact .accessRefused hc (by simp [Instr.opcode])
      · exact .awaits hi hp
      · exact .inputEnded hi hp
      · exact .read hi hp
    · rw [exec_load_memory hv] at h
      rcases loadMemory_cases s.depth v s with ⟨c, hc, h2⟩ | ⟨hi, hm, h2⟩ | ⟨hi, hm, h2⟩ <;> rw [h2] at h <;> cases h
      · exact .accessRefused hc (by simp [Instr.opcode])
      · exact .loadRefused hv hi hm
      · exact .loaded hv hi hm
  | store v =>
    rw [exec_store] at h
    rcases storeUnit_cases s.depth v s with ⟨c, hc, h2⟩ | ⟨hi, hv, hm, h2⟩ | ⟨hi, hv, hm, h2⟩ | ⟨hi, hv, p, hp, h2⟩ |
      ⟨hi, hv, p, hp, h2⟩ <;> rw [h2] at h <;> cases h
    · exact .accessRefused hc (by simp [Instr.opcode])
    · exact .storeRefused hv hi hm
    · exact .stored hv hi hm
    · subst hv; exact .offers hi hp
    · subst hv; exact .emitted hi hp

/-- No instruction changes the launch or the program index. -/
theorem exec_launch {i : Instr} {s u : State} (h : exec i s = .next u) : s.sameLaunch u ∧ u.pc = s.pc := by
  cases exec_end h <;> exact ⟨⟨rfl, rfl, rfl⟩, rfl⟩

/-- Where the FSM is after an instruction. -/
theorem exec_phase {i : Instr} {s u : State} (h : exec i s = .next u) :
    u.phase = .exec ∨ u.phase = .waitIn ∨ u.phase = .waitOut ∨ u.phase = .fault := by
  cases exec_end h <;> simp

/-- The ends of `settle`: it was at rest, the instruction is finished, the top-level check or a dispatch raised, or one more
iteration of a Repeat is current. -/
inductive SettleEnd (s : State) : State → Prop where
  | rest (h : (s.performing ∧ s.cur.isSome = true) ∨ s.phase = .fetch ∨ s.phase = .done ∨ s.phase = .fault) :
      SettleEnd s s
  | finished (h : (s.performing ∧ s.cur = none) ∨ s.phase = .resume) (hi : s.inStack s.top) :
      SettleEnd s { s with pc := s.pc + 1, phase := .fetch, cur := none, depth := 0, frames := [] }
  | checked (h : s.phase = .check) (hi : s.inStack s.top) : SettleEnd s { s with pc := s.pc + 1, phase := .fetch }
  | outOfRange {c : Cause} (h : (s.performing ∧ s.cur = none) ∨ s.phase = .resume ∨ s.phase = .check)
      (hc : indexFault s.params.stackCap s.top = some c) :
      SettleEnd s (s.raise { cause := c, index := s.top, depth := 0 })
  | again {used rest : List Frame} {f : Frame} (h : (s.performing ∧ s.cur = none) ∨ s.phase = .resume)
      (hf : s.frames = used ++ f :: rest) (hr : 0 < f.remaining) (ha : s.params.allowsDepth (f.depth + 1) = true) :
      SettleEnd s { s with phase := .exec, cur := some (f.op.instr f.value), depth := f.depth + 1,
                           frames := { f with remaining := f.remaining - 1 } :: rest }
  | tooDeep {used rest : List Frame} {f : Frame} (h : (s.performing ∧ s.cur = none) ∨ s.phase = .resume)
      (hf : s.frames = used ++ f :: rest) (hr : 0 < f.remaining) (ha : s.params.allowsDepth (f.depth + 1) = false) :
      SettleEnd s (s.raise { cause := .nestingDepthExceeded, depth := f.depth + 1 })

/-- `settle` ends in one of these. -/
theorem State.settle_end (s : State) : SettleEnd s s.settle := by
  rcases s.settle_cases with ⟨h, h2⟩ | ⟨h2, h⟩ | ⟨h2, h⟩ <;> rw [h]
  · exact .rest h2
  · rcases s.resumeFrames_ends s.frames with ⟨hi, h⟩ | ⟨c, hc, h⟩ | ⟨used, f, rest, hf, hr, ha, h⟩ |
      ⟨used, f, rest, hf, hr, ha, h⟩ <;> rw [h]
    · exact .finished h2 hi
    · exact .outOfRange (h2.imp_right .inl) hc
    · exact .again h2 hf hr ha
    · exact .tooDeep h2 hf hr ha
  · rcases s.topLevelCheck_cases with ⟨c, hc, h⟩ | ⟨hi, h⟩ <;> rw [h]
    · exact .outOfRange (.inr (.inr h2)) hc
    · exact .checked h2 hi

/-- What the FSM's states RESUME and CHECK never change. -/
theorem State.settle_keeps (s : State) :
    s.settle.stk = s.stk ∧ s.settle.mem = s.mem ∧ s.settle.top = s.top ∧ s.samePorts s.settle ∧ s.sameLaunch s.settle := by
  have h := s.settle_end
  revert h
  generalize s.settle = t
  rintro (_ | _ | _ | _ | _ | _) <;> exact ⟨rfl, rfl, rfl, ⟨rfl, rfl⟩, rfl, rfl, rfl⟩

end Sys2Proof.Machine
end

