-- ==== Sys2Proof/Laws/PerInstr.lean ====
section
/-! SUPPORT. The family Rebuild: an instruction is its opcode with its value, its opcode's number is the one rule R63 gives its
constructor, and it is well-formed exactly when the encoder of rule R66 accepts its two fields. -/

namespace Sys2Proof.Laws.Rebuild

/-- An instruction is rebuilt from its opcode and value, and the range test of the encoder is its well-formedness. -/
def Statement (i : Instr) : Prop :=
  i.opcode.instr i.value = i ∧ i.opcode.num ≤ 7 ∧ Opcode.ofBits (BitVec.ofNat 3 i.opcode.num) = i.opcode ∧
    (i.WellFormed ↔ encode i ≠ .error .immediateOutOfRange)

theorem num_le_seven (op : Opcode) : op.num ≤ 7 := by cases op <;> decide

/-- The range test of the encoder, for any opcode. -/
theorem encode_refuses_iff (op : Opcode) (v : Int) :
    (0 ≤ v ∧ v < 32) ↔ encodeFields op.num v ≠ .error .immediateOutOfRange := by
  have h7 := num_le_seven op
  unfold encodeFields
  split <;> simp <;> omega

theorem push (v : Int) : Statement (.push v) := ⟨rfl, num_le_seven _, rfl, encode_refuses_iff .push v⟩
theorem pop (v : Int) : Statement (.pop v) := ⟨rfl, num_le_seven _, rfl, encode_refuses_iff .pop v⟩
theorem add (v : Int) : Statement (.add v) := ⟨rfl, num_le_seven _, rfl, encode_refuses_iff .add v⟩
theorem rep (v : Int) : Statement (.rep v) := ⟨rfl, num_le_seven _, rfl, encode_refuses_iff .rep v⟩
theorem extend (v : Int) : Statement (.extend v) := ⟨rfl, num_le_seven _, rfl, encode_refuses_iff .extend v⟩
theorem conditional (v : Int) : Statement (.conditional v) := ⟨rfl, num_le_seven _, rfl, encode_refuses_iff .conditional v⟩
theorem load (v : Int) : Statement (.load v) := ⟨rfl, num_le_seven _, rfl, encode_refuses_iff .load v⟩
theorem store (v : Int) : Statement (.store v) := ⟨rfl, num_le_seven _, rfl, encode_refuses_iff .store v⟩

end Sys2Proof.Laws.Rebuild
end

