-- ==== Sys2Proof/Laws/Recursive.lean ====
section
/-! SUPPORT. The recursive pseudocode does not read the FSM's control fields: its results, up to `State.arch`, are a function of
`State.arch` alone. -/

namespace Sys2Proof.Machine

/-- A result with its state's control fields removed. -/
def UnitResult.arch : UnitResult → UnitResult
  | .done s => .done s.arch
  | .raised s => .raised s.arch
  | .waiting s => .waiting s.arch

@[simp] theorem State.arch_arch (s : State) : s.arch.arch = s.arch := rfl
@[simp] theorem UnitResult.arch_done (s : State) : (UnitResult.done s).arch = .done s.arch := rfl
@[simp] theorem UnitResult.arch_raised (s : State) : (UnitResult.raised s).arch = .raised s.arch := rfl
@[simp] theorem UnitResult.arch_waiting (s : State) : (UnitResult.waiting s).arch = .waiting s.arch := rfl

theorem State.arch_raise (s : State) (r : FaultReport) : (s.arch.raise r).arch = (s.raise r).arch := rfl

/-! ### The units -/

theorem pushUnit_arch (k : Nat) (v : Int) (s : State) : (pushUnit k v s.arch).arch = (pushUnit k v s).arch := by
  cases s
  simp only [pushUnit, State.stackWrite, State.setTop, State.arch]
  generalize indexFault _ _ = c
  cases c <;> rfl

theorem addUnit_arch (k : Nat) (v : Int) (s : State) : (addUnit k v s.arch).arch = (addUnit k v s).arch := by
  cases s
  simp only [addUnit, State.stackRead, State.stackWrite, State.arch]
  generalize indexFault _ _ = c
  cases c <;> rfl

theorem loadMemory_arch (k : Nat) (v : Int) (s : State) : (loadMemory k v s.arch).arch = (loadMemory k v s).arch := by
  obtain ⟨stk, top, mem, pc, status, fpc, fix, fad, fdp, phase, cur, depth, frames, params, program, input, output, rst⟩ := s
  simp only [loadMemory, State.stackRead, State.stackWrite, State.memRead, State.width, State.arch]
  generalize indexFault _ _ = c
  cases c
  · by_cases h : addressRefused params.memCap (loadAddress params.width v (Memory.read stk top.toNat)) = true <;>
      simp only [h, if_true, if_false, Bool.false_eq_true] <;> rfl
  · rfl

theorem loadInput_arch (k : Nat) (s : State) : (loadInput k s.arch).arch = (loadInput k s).arch := by
  cases s
  simp only [loadInput, State.stackRead, State.stackWrite, State.inputAnswered, State.awaitInput, State.arch]
  generalize indexFault _ _ = c
  cases c
  · simp only
    generalize InputPort.poll _ = p
    rcases p with ⟨_ | _ | _, p⟩ <;> rfl
  · rfl

theorem storeUnit_arch (k : Nat) (v : Int) (s : State) : (storeUnit k v s.arch).arch = (storeUnit k v s).arch := by
  obtain ⟨stk, top, mem, pc, status, fpc, fix, fad, fdp, phase, cur, depth, frames, params, program, input, output, rst⟩ := s
  simp only [storeUnit, State.stackRead, State.memWrite, State.arch]
  generalize indexFault _ _ = c
  cases c
  · by_cases hv : v = 0
    · simp only [hv, ne_eq, not_true_eq_false, if_false]
      generalize OutputPort.offer _ _ = p
      rcases p with ⟨_ | _, p⟩ <;> rfl
    · by_cases h : addressRefused params.memCap (storeAddress v) = true <;>
        simp only [ne_eq, hv, not_false_eq_true, h, if_true, if_false, Bool.false_eq_true] <;> rfl
  · rfl

theorem loadUnit_arch (k : Nat) (v : Int) (s : State) : (loadUnit k v s.arch).arch = (loadUnit k v s).arch := by
  unfold loadUnit
  split
  · exact loadMemory_arch k v s
  · exact loadInput_arch k s

/-! ### Descriptors, loops and the whole pseudocode -/

theorem popDescriptor_arch (k : Nat) (s : State) :
    (∃ r, s.popDescriptor k = .error r ∧ s.arch.popDescriptor k = .error r) ∨
    (∃ d s1, s.popDescriptor k = .ok (d, s1) ∧ s.arch.popDescriptor k = .ok (d, s1.arch)) := by
  cases s
  simp only [State.popDescriptor, State.stackRead, State.setTop, State.arch]
  generalize indexFault _ _ = c
  cases c
  · exact .inr ⟨_, _, rfl, rfl⟩
  · exact .inl ⟨_, rfl, rfl⟩

theorem repeatLoop_arch {body : State → Option UnitResult}
    (hb : ∀ s, (body s.arch).map UnitResult.arch = (body s).map UnitResult.arch) (n : Nat) (s : State) :
    (repeatLoop body n s.arch).map UnitResult.arch = (repeatLoop body n s).map UnitResult.arch := by
  induction n generalizing s with
  | zero => rfl
  | succ n ih =>
    have h := hb s
    simp only [repeatLoop]
    rcases h1 : body s with _ | ⟨u | u | u⟩ <;> rcases h2 : body s.arch with _ | ⟨w | w | w⟩ <;>
      rw [h1, h2] at h <;> simp at h ⊢
    · rw [← ih u, ← ih w, h]
    · exact h
    · exact h

theorem dispatchCall_arch {call : Nat → Opcode → Int → State → Option UnitResult} {k : Nat} {iop : Opcode} {v : Int}
    (hc : ∀ s, (call (k + 1) iop v s.arch).map UnitResult.arch = (call (k + 1) iop v s).map UnitResult.arch) (s : State) :
    (dispatchCall call k iop v s.arch).map UnitResult.arch = (dispatchCall call k iop v s).map UnitResult.arch := by
  unfold dispatchCall
  rw [show s.arch.params = s.params from rfl]
  split
  · exact hc s
  · rfl

theorem execute_arch (fuel k : Nat) (op : Opcode) (v : Int) (s : State) :
    (execute fuel k op v s.arch).map UnitResult.arch = (execute fuel k op v s).map UnitResult.arch := by
  induction fuel generalizing k op v s with
  | zero => rfl
  | succ fuel ih =>
    have hd : ∀ iop v', ∀ s : State, (dispatchCall (execute fuel) k iop v' s.arch).map UnitResult.arch =
        (dispatchCall (execute fuel) k iop v' s).map UnitResult.arch :=
      fun iop v' => dispatchCall_arch fun s => ih (k + 1) iop v' s
    cases op
    case push => simp [execute, pushUnit_arch]
    case pop => rfl
    case add => simp [execute, addUnit_arch]
    case rep =>
      rcases popDescriptor_arch k s with ⟨r, h1, h2⟩ | ⟨d, s1, h1, h2⟩ <;> simp only [execute, h1, h2]
      · rfl
      · exact repeatLoop_arch (hd _ _) _ _
    case extend =>
      rcases popDescriptor_arch k s with ⟨r, h1, h2⟩ | ⟨d, s1, h1, h2⟩ <;> simp only [execute, h1, h2]
      · rfl
      · exact hd _ _ _
    case conditional =>
      rcases popDescriptor_arch k s with ⟨r, h1, h2⟩ | ⟨d, s1, h1, h2⟩ <;> simp only [execute, h1, h2]
      · rfl
      · split
        · exact hd _ _ _
        · rfl
    case load =>
      have h := loadUnit_arch k v s
      simp only [execute]
      rcases h1 : loadUnit k v s with u | u | u <;> rcases h2 : loadUnit k v s.arch with w | w | w <;>
        rw [h1, h2] at h <;> simp at h ⊢
      · exact h
      · exact h
      · rw [← ih _ _ _ u, ← ih _ _ _ w, h]
    case store =>
      have h := storeUnit_arch k v s
      simp only [execute]
      rcases h1 : storeUnit k v s with u | u | u <;> rcases h2 : storeUnit k v s.arch with w | w | w <;>
        rw [h1, h2] at h <;> simp at h ⊢
      · exact h
      · exact h
      · rw [← ih _ _ _ u, ← ih _ _ _ w, h]

/-- From states that agree up to control fields, the pseudocode gives results that do. -/
theorem execute_congr {fuel k : Nat} {op : Opcode} {v : Int} {s t : State} {r : UnitResult} (h : s.arch = t.arch)
    (hr : execute fuel k op v s = some r) : ∃ r', execute fuel k op v t = some r' ∧ r'.arch = r.arch := by
  have h1 := execute_arch fuel k op v s
  rw [h, execute_arch fuel k op v t, hr] at h1
  rcases h2 : execute fuel k op v t with _ | r'
  · rw [h2] at h1; cases h1
  · rw [h2] at h1; exact ⟨r', rfl, by simpa using h1⟩

end Sys2Proof.Machine
end

