-- ==== Sys2Proof/Laws/Word.lean ====
section
/-! SUPPORT. The laws of words at any width: every result of an operation on words is a word, and a result in range is the exact
integer. -/

namespace Sys2Proof

/-- The two halves of the word range make its size. -/
theorem two_pow_half {w : Nat} (h : 1 ≤ w) : (2 : Int) ^ w = 2 * 2 ^ (w - 1) := by
  rw [← pow_succ', show w - 1 + 1 = w by omega]

theorem half_pos (w : Nat) : (0 : Int) < 2 ^ (w - 1) := by positivity

theorem half_ge {w : Nat} (h : 9 ≤ w) : (256 : Int) ≤ 2 ^ (w - 1) :=
  (show (256 : Int) = 2 ^ 8 by norm_num) ▸ pow_le_pow_right₀ (by norm_num) (by omega)

/-- `word(n)` is a word. -/
theorem wordOf_isWord {w : Nat} (h : 1 ≤ w) (n : Int) : isWord w (wordOf w n) := by
  have h1 := Int.le_bmod (x := n) (m := 2 ^ w) (by positivity)
  have h2 := Int.bmod_lt (x := n) (m := 2 ^ w) (by positivity)
  have h3 := two_pow_half h
  unfold isWord wordOf
  push_cast at h1 h2
  omega

/-- `word(n)` of an integer in range is that integer. -/
theorem wordOf_eq {w : Nat} (h : 1 ≤ w) {n : Int} (hn : isWord w n) : wordOf w n = n := by
  have h3 := two_pow_half h
  unfold isWord at hn
  unfold wordOf
  refine Int.bmod_eq_of_le ?_ ?_ <;> push_cast <;> omega

/-- `word(n)` is congruent to `n`: a word only depends on its integer modulo `2^W`. -/
theorem wordOf_congr {w : Nat} {n m : Int} (h : (2 : Int) ^ w ∣ n - m) : wordOf w n = wordOf w m := by
  unfold wordOf
  refine Int.bmod_eq_bmod_iff_bmod_sub_eq_zero.2 ?_
  rw [← Int.dvd_iff_bmod_eq_zero]
  exact_mod_cast h

/-- Reducing a summand first does not change a sum modulo `2^W`. -/
theorem wordOf_add_left (w : Nat) (n m : Int) : wordOf w (wordOf w n + m) = wordOf w (n + m) := by
  simp [wordOf]

theorem wordOf_sub_left (w : Nat) (n m : Int) : wordOf w (wordOf w n - m) = wordOf w (n - m) := by
  simp [wordOf]

/-- A word of `W >= 9` bits holds every byte. -/
theorem isWord_of_byte {w : Nat} (h : 9 ≤ w) {x : Int} (h0 : 0 ≤ x) (h1 : x < 256) : isWord w x := by
  have := half_ge h
  exact ⟨by omega, by omega⟩

/-- The reading of a bit vector is a word of its width. -/
theorem isWord_toInt {w : Nat} (h : 1 ≤ w) (x : BitVec w) : isWord w x.toInt := by
  have h1 := BitVec.two_mul_toInt_lt (x := x)
  have h2 := BitVec.le_two_mul_toInt (x := x)
  have h3 := two_pow_half h
  unfold isWord
  omega

/-- A cell's constant is the cell divided by 8, downwards (rule R64). -/
theorem decodeCell_snd (d : Int) : (decodeCell d).2 = d / 8 := by
  simp only [decodeCell, Int.shiftRight_eq_div_pow]
  norm_num

/-- The constant of a word is a word. -/
theorem decodeCell_isWord {w : Nat} {d : Int} (hd : isWord w d) : isWord w (decodeCell d).2 := by
  have := half_pos w
  rw [decodeCell_snd]
  unfold isWord at *
  omega

namespace Machine

theorem widen_isWord {w : Nat} (h : 1 ≤ w) (v x : Int) : isWord w (widen w v x) := isWord_toInt h _

theorem inputWord_isWord {w : Nat} (h : 9 ≤ w) (b : Byte) : isWord w (inputWord b) :=
  isWord_of_byte h (by simp [inputWord]) (by have := b.isLt; simp only [inputWord]; omega)

/-- A widened nonnegative value that fits is the number with the tail as its low byte (rules R48, R103). -/
theorem widen_eq {w : Nat} (h : 9 ≤ w) {v x : Int} (hv : 0 ≤ v) (hx : 0 ≤ x) (hx8 : x < 256)
    (hb : v * 256 + x < 2 ^ (w - 1)) : widen w v x = v * 256 + x := by
  obtain ⟨n, rfl⟩ := Int.eq_ofNat_of_zero_le hv
  obtain ⟨m, rfl⟩ := Int.eq_ofNat_of_zero_le hx
  have hw := two_pow_half (w := w) (by omega)
  have hb' : n * 256 + m < 2 ^ (w - 1) := by exact_mod_cast hb
  have hp : 2 ^ w = 2 * 2 ^ (w - 1) := by rw [← pow_succ', show w - 1 + 1 = w by omega]
  have hm : m < 2 ^ 8 := by norm_num; exact_mod_cast hx8
  have h0 : n * 256 < 2 ^ w := by
    rw [hp]
    exact lt_of_le_of_lt (Nat.le_add_right _ m) (by linarith [pow_pos (show 0 < 2 by norm_num) (w - 1)])
  have hn : n * 2 ^ 8 < 2 ^ w := h0
  have h1 : (BitVec.ofInt w n <<< 8).toNat = 2 ^ 8 * n := by
    rw [BitVec.toNat_shiftLeft, BitVec.ofInt_natCast, BitVec.toNat_ofNat, Nat.mod_eq_of_lt (show n < 2 ^ w by omega),
      Nat.shiftLeft_eq, Nat.mod_eq_of_lt hn, Nat.mul_comm]
  have h2 : (BitVec.ofInt w m).toNat = m := by
    rw [BitVec.ofInt_natCast, BitVec.toNat_ofNat, Nat.mod_eq_of_lt (show m < 2 ^ w by omega)]
  have key : ((BitVec.ofInt w n <<< 8) ||| BitVec.ofInt w m).toNat = n * 256 + m := by
    rw [BitVec.toNat_or, h1, h2, ← Nat.two_pow_add_eq_or_of_lt hm]
    omega
  rw [widen, BitVec.toInt_eq_toNat_of_lt (by rw [key]; omega), key]
  push_cast
  ring

end Machine

end Sys2Proof
end

