-- ==== Sys2Proof/Tests/Slice0.lean ====
section
/-! SUPPORT. Tests of the model: the well-formedness smoke tests, words written out from the spec's encodings, one step per
vector of spec/95_test_vectors.md (its number stands in the docstring; every expected value is the vector's, a word by its
signed reading: -1 for 0xFFFFFFFF, rule R10), and for each statement with hypotheses a concrete state and operands that meet
them. -/

namespace Sys2Proof.Tests

open Sys2Proof.Machine

/-! ### Helpers -/

/-- The state a step or a meaning answers, if it answers one. -/
def after : Host.Outcome State Fault Refusal → Option State
  | .next s => some s
  | .fault _ => none
  | .refused _ => none

/-- About to fetch the first byte of `p`, with this stack pointer, stack and memory. -/
def fetching (p : List Byte) (top : Int) (stk mem : Memory) : State :=
  { State.reset with program := p, top := top, stk := stk, mem := mem }

/-- In the middle of the first of one byte's operations: `i` is the current operation. -/
def performing (i : Instr) (top : Int) (stk mem : Memory) : State :=
  { fetching [0] top stk mem with phase := .exec, cur := some i }

/-- The same machine with another limit on the depth. -/
def limited (d : Nat) (s : State) : State := { s with params := { s.params with maxDepth := some d } }

/-- The same machine with these input bytes, then end-of-input. -/
def fed (bs : List Byte) (s : State) : State := { s with input := { events := bs.map .byte, tail := .endOfInput } }

/-- What is left of an outcome's state for a vector: FSM state, `top`, stack, memory. -/
def cells (o : Host.Outcome State Fault Refusal) : Option (Phase × Int × Memory × Memory) :=
  (after o).map (fun t => (t.phase, t.top, t.stk, t.mem))

/-- STATUS and the fault-information registers PC, INDEX, ADDR, DEPTH. -/
def report (o : Host.Outcome State Fault Refusal) : Option (BitVec 32 × Nat × Int × Int × Nat) :=
  (after o).map (fun t => (t.status.word, t.faultPc, t.faultIndex, t.faultAddr, t.faultDepth))

/-! ### Well-formedness: an ill-formed term of each constructor is refused (rules R62, R66) -/

theorem test_wf_refuses_values_above_31 :
    ¬ (Instr.push 32).WellFormed ∧ ¬ (Instr.pop 32).WellFormed ∧ ¬ (Instr.add 33).WellFormed ∧
    ¬ (Instr.rep 64).WellFormed ∧ ¬ (Instr.extend 256).WellFormed ∧ ¬ (Instr.conditional 32).WellFormed ∧
    ¬ (Instr.load (-1)).WellFormed ∧ ¬ (Instr.store 1000).WellFormed := by decide

theorem test_wf_accepts_values_up_to_31 :
    (Instr.push 0).WellFormed ∧ (Instr.store 31).WellFormed := by decide

/-- Section 2.1, encoder table. -/
theorem test_encode_fields :
    encodeFields 0 5 = .ok 0x28 ∧ encodeFields 7 31 = .ok 0xFF ∧ encodeFields 8 0 = .error .immediateOutOfRange ∧
    encodeFields 0 32 = .error .immediateOutOfRange ∧ encodeFields (-1) 0 = .error .immediateOutOfRange := by
  refine ⟨rfl, rfl, rfl, rfl, rfl⟩

theorem test_encode_refuses_ill_formed : encode (.push 32) = .error .immediateOutOfRange := rfl

/-! ### Decoding: words written out from rules R60, R61 and R63 (imm in bits 7:3, op in bits 2:0) -/

/-- Section 2.1, byte table: one byte of each constructor. -/
theorem test_decode_each_constructor :
    decodeByte 0b00101000 = .push 5 ∧ decodeByte 0b00010001 = .pop 2 ∧ decodeByte 0b00011010 = .add 3 ∧
    decodeByte 0b00101011 = .rep 5 ∧ decodeByte 0b01011100 = .extend 11 ∧ decodeByte 0b10100101 = .conditional 20 ∧
    decodeByte 0b00110110 = .load 6 ∧ decodeByte 0b11111111 = .store 31 := by decide

theorem test_decode_needs_a_byte : decode [] = .error .noByte := rfl

theorem test_decode_leaves_the_rest : decode [0x28, 0x1A] = .ok (.push 5, [0x1A]) := rfl

/-- Section 2.1, cell table. -/
theorem test_decode_cells :
    decodeCell 0 = (.push, 0) ∧ decodeCell 7 = (.store, 0) ∧ decodeCell 12 = (.extend, 1) ∧ decodeCell 26 = (.add, 3) ∧
    decodeCell 40 = (.push, 5) ∧ decodeCell 82 = (.add, 10) ∧ decodeCell 300 = (.extend, 37) ∧
    decodeCell 352 = (.push, 44) := by decide

/-- Section 2.1, cell table, the extremes. -/
theorem test_decode_cells_signed :
    decodeCell 0x7FFFFFFF = (.store, 268435455) ∧ decodeCell (-2147483648) = (.push, -268435456) ∧
    decodeCell (-1) = (.store, -1) ∧ decodeCell (-8) = (.push, -1) := by
  decide

/-- Section 2.1: `352 = desc(Push, 44)`, `0xFFFFFFF8 = desc(Push, -1)`; the word 0xFFFFFFF8 reads as -8. -/
theorem test_descriptor : descriptor 32 .push 44 = 352 ∧ descriptor 32 .push (-1) = -8 := by decide

/-! ### Single steps -/

/-- S1. -/
theorem test_push : cells (step (fetching [0x28] 0 [] [])) = some (.fetch, 1, [(1, 5)], []) := by decide

/-- S3. -/
theorem test_push_overflows :
    cells (step (fetching [0x18] 99 [(99, 7)] [])) = some (.fault, 100, [(99, 7)], []) ∧
    report (step (fetching [0x18] 99 [(99, 7)] [])) = some (0x12, 0, 100, 0, 0) := ⟨by decide, by decide⟩

/-- S5. -/
theorem test_pop : cells (step (fetching [0x11] 3 [(2, 8), (3, 9)] [])) = some (.fetch, 1, [(2, 8), (3, 9)], []) := by
  decide

/-- S7. -/
theorem test_pop_underflows :
    cells (step (fetching [0xF9] 0 [] [])) = some (.fault, -31, [], []) ∧
    report (step (fetching [0xF9] 0 [] [])) = some (0x0A, 0, -31, 0, 0) := ⟨by decide, by decide⟩

/-- S9. -/
theorem test_add_wraps_to_negative :
    cells (step (fetching [0x0A] 0 [(0, 0x7FFFFFFF)] [])) = some (.fetch, 0, [(0, -2147483648)], []) := by decide

/-- S10: the sum is zero, so the cell's entry goes. -/
theorem test_add_wraps_to_zero :
    cells (step (fetching [0x0A] 0 [(0, -1)] [])) = some (.fetch, 0, [], []) := by decide

/-- S13's first step: the descriptor pop leaves `top = -1` and `Add(3)` is dispatched at depth 1. -/
theorem test_repeat_dispatches_without_checking_top :
    (after (step (fetching [0x1B] 0 [(0, 10)] []))).map (fun t => (t.top, t.cur, t.depth)) =
      some (-1, some (.add 3), 1) := by decide

/-- K3: a count of -1 means no iteration. -/
theorem test_repeat_negative_count :
    cells (step (fetching [0x2B] 1 [(1, -6)] [])) = some (.fetch, 0, [(1, -6)], []) := by decide

/-- K7: the tail 300 merges with `1 << 8` by OR. -/
theorem test_extend_ors_without_carry :
    (after (step (fetching [0x0C] 1 [(1, 2400)] []))).map (fun t => (t.top, t.cur, t.depth)) =
      some (0, some (.push 300), 1) := by decide

/-- K12. -/
theorem test_extend_beyond_max_depth :
    cells (step (limited 0 (fetching [0x04] 1 [] []))) = some (.fault, 0, [], []) ∧
    report (step (limited 0 (fetching [0x04] 1 [] []))) = some (0x2A, 0, 0, 0, 1) := ⟨by decide, by decide⟩

/-- K10's first step: the inner operation gets the Conditional's own value. -/
theorem test_conditional_fires :
    (after (step (fetching [0x3D] 1 [(1, 40)] []))).map (fun t => (t.top, t.cur, t.depth)) =
      some (0, some (.push 7), 1) := by decide

/-- K11: a guard of -1 does not fire. -/
theorem test_conditional_negative_guard :
    cells (step (fetching [0x3D] 1 [(1, -8)] [])) = some (.fetch, 0, [(1, -8)], []) := by decide

/-- M11: the address is `256 | 256`. -/
theorem test_load_address_is_an_or :
    cells (step (fetching [0x0E] 0 [(0, 256)] [(256, 5)])) = some (.fetch, 0, [(0, 5)], [(256, 5)]) := by decide

/-- M2: an input byte is zero-extended. -/
theorem test_load_input_byte :
    cells (step (fed [0xFF] (fetching [0x06] 0 [] []))) = some (.fetch, 0, [(0, 255)], []) := by decide

/-- M15's second step: `Store(999)` at depth 1. -/
theorem test_store_writes_memory :
    cells (step (performing (.store 999) 1 [(1, 77)] [])) = some (.fetch, 0, [(1, 77)], [(999, 77)]) := by decide

/-- M14: the word is emitted, then the top-level check finds `top = -1`. -/
theorem test_store_output_stands :
    (after (step (fetching [0x07] 0 [] []))).map (fun t => (t.phase, t.top, t.output.log)) =
      some (.fault, -1, [0]) ∧
    report (step (fetching [0x07] 0 [] [])) = some (0x0A, 0, -1, 0, 0) := by decide

/-- M10: a negative address. -/
theorem test_memory_out_of_range :
    report (step (fetching [0x0E] 0 [(0, -1)] [])) = some (0x1A, 0, 0, -1, 0) := by decide

/-- M3. -/
theorem test_end_of_input : report (step (fetching [0x06] 0 [] [])) = some (0x22, 0, 0, 0, 0) := by decide

/-- M4. -/
theorem test_silent_input_waits :
    report (step { fetching [0x06] 0 [] [] with input := { events := [], tail := .silent } }) = some (0x04, 0, 0, 0, 0) := by
  decide

/-- M18: the sink is busy; WAIT_IN stays clear and `top` has not moved. -/
theorem test_busy_sink_waits :
    cells (step { fetching [0x07] 1 [(1, 8)] [] with output := { events := [], tail := .busy, log := [] } }) =
      some (.waitOut, 1, [(1, 8)], []) := by decide

/-- T1. -/
theorem test_empty_program : report (step State.reset) = some (0x01, 0, 0, 0, 0) := by decide

/-- The interface: a word placed for the next fetch is what the next step runs. -/
theorem test_with_fetch_word :
    cells (step (State.reset.withFetchWord 8 0x28)) = some (.fetch, 1, [(1, 5)], []) := by decide

/-- Rule R36's reset state lists no cell, and its memory form holds. -/
theorem test_reset_memory_wf : Memory.wf State.reset.mem = true ∧ Memory.wf State.reset.stk = true := by decide

/-- Rule R10 at the least width of rule R8, by hand: in 9 bits 255 + 1 is the word that reads as -256. -/
theorem test_narrow_add_wraps :
    cells (step { fetching [0x0A] 0 [(0, 255)] [] with params := { width := 9, stackCap := 100, memCap := 200, maxDepth := none } }) =
      some (.fetch, 0, [(0, -256)], []) := by decide

/-- Rule R102 at W = 9, by hand: `(31 << 8) | 5` keeps one bit of the shifted value, the sign. -/
theorem test_narrow_extend_drops_high_bits : widen 9 31 5 = -251 ∧ widen 9 2 5 = 5 := by decide

/-! ### Witnesses: what a statement assumes can be met -/

/-- A state of a run in the middle of nested work: `Repeat` at depth 0 holds a frame with two iterations left, and a `Load(0)` of
depth 1 is current. -/
def nested : State :=
  { performing (.load 0) 5 [(5, 7)] [(20, 9)] with
    params := { width := 32, stackCap := 100, memCap := 1000, maxDepth := some 3 }
    depth := 1
    frames := [{ depth := 0, op := .load, value := 0, remaining := 2 }] }

theorem test_witness_reset_inv : State.reset.Inv :=
  ⟨⟨by decide, by decide, by decide, by decide, by decide⟩,
   ⟨by decide, by decide, by decide, by decide, by decide, by decide, by decide⟩,
   ⟨by decide, by decide, by decide, by decide, by decide, by decide⟩,
   ⟨by decide, by decide, by decide, by decide, by decide, by decide⟩,
   ⟨by decide, by decide, by decide, by decide, by decide⟩⟩

theorem test_witness_nested_inv : nested.Inv :=
  ⟨⟨by decide, by decide, by decide, by decide, by decide⟩,
   ⟨by decide, by decide, by decide, by decide, by decide, by decide, by decide⟩,
   ⟨by decide, by decide, by decide, by decide, by decide, by decide⟩,
   ⟨by decide, by decide, by decide, by decide, by decide, by decide⟩,
   ⟨by decide, by decide, by decide, by decide, by decide⟩⟩

theorem test_witness_nested_cells : nested.CellsInv := test_witness_nested_inv.cells

/-- The same machine with other contents meets the invariant's cell clause whenever the decidable parts hold. -/
theorem cellsInv_of (s : State)
    (h : Memory.wf s.stk = true ∧ Memory.within s.stk s.params.stackCap = true ∧ Memory.wf s.mem = true ∧
      Memory.within s.mem s.params.memCap = true ∧ s.word 0 = 0) : s.CellsInv :=
  ⟨h.1, h.2.1, h.2.2.1, h.2.2.2.1, h.2.2.2.2⟩

theorem test_witness_EncodeThenDecodeIsTheIdentity : (Instr.store 31).WellFormed ∧ (7 ≤ 7 ∧ 31 ≤ 31) := by decide

theorem test_witness_EncoderAcceptsExactlyTheFieldsThatFit :
    ((0 : Int) ≤ 7 ∧ (7 : Int) ≤ 7 ∧ (0 : Int) ≤ 31 ∧ (31 : Int) ≤ 31) ∧
    ¬ ((0 : Int) ≤ 8 ∧ (8 : Int) ≤ 7 ∧ (0 : Int) ≤ 0 ∧ (0 : Int) ≤ 31) ∧
    (9 ≤ 9 ∧ -(2 : Int) ^ (9 - 4) ≤ -32 ∧ (-32 : Int) ≤ 2 ^ (9 - 4) - 1 ∧ (31 : Int) ≤ 2 ^ (9 - 4) - 1) := by decide

/-- The least and the greatest word of 32 bits, and the greatest of 9. -/
theorem test_witness_CellDecodeKeepsTheSign :
    9 ≤ 32 ∧ isWord 32 (-2147483648) ∧ isWord 32 2147483647 ∧ isWord 9 255 ∧ ¬ isWord 9 256 := by decide

theorem test_witness_NoEncodingTraps : 9 ≤ 9 ∧ isWord 9 (-256) := by decide

theorem test_witness_WordsAreTheirSignedReadings : 9 ≤ 9 ∧ isWord 9 (-256) ∧ isWord 9 255 := by decide

/-- The three clauses at their boundaries: -1, STACK_CAP, 0 and STACK_CAP - 1. -/
theorem test_witness_StackAccessesAreChecked :
    ((-1) : Int) < 0 ∧
    ((nested.params.stackCap : Int) ≤ (100 : Int) ∧ 0 ≤ (100 : Int)) ∧
    nested.inStack 0 ∧ nested.inStack 99 ∧ Memory.wf nested.stk = true := by decide

/-- Both clauses at their boundaries: -1, MEM_CAP, 0 and MEM_CAP - 1. -/
theorem test_witness_MemoryAddressesAreChecked :
    ((-1) : Int) < 0 ∧ (nested.params.memCap : Int) ≤ (1000 : Int) ∧
    nested.inMemory 0 ∧ nested.inMemory 999 ∧ Memory.wf nested.mem = true := by decide

/-- The last index in range, and the first above it. -/
theorem test_witness_PushWritesTheNewTop :
    (performing (.push 3) 98 [] []).CellsInv ∧
    (performing (.push 3) 98 [] []).inStack ((performing (.push 3) 98 [] []).wrap (98 + 1)) ∧
    (performing (.push 3) 99 [] []).CellsInv ∧
    ¬ (performing (.push 3) 99 [] []).inStack ((performing (.push 3) 99 [] []).wrap (99 + 1)) :=
  ⟨cellsInv_of _ (by decide), by decide, cellsInv_of _ (by decide), by decide⟩

/-- `Pop(3)` at the top level, at `top = 3`, where it just does not underflow. -/
theorem test_witness_PopLowersTopOnly :
    (fetching [0b00011001] 3 [] []).rst = false ∧ (fetching [0b00011001] 3 [] []).phase = .fetch ∧
    (fetching [0b00011001] 3 [] []).params.wf ∧ (fetching [0b00011001] 3 [] []).inStack 3 ∧
    (fetching [0b00011001] 3 [] []).program[0]? = some (3#5 ++ 1#3) := by
  decide

/-- `top` at the last cell, and one past it. -/
theorem test_witness_AddAddsToTheTopCell :
    (performing (.add 1) 99 [(99, 4)] []).CellsInv ∧ (performing (.add 1) 99 [(99, 4)] []).inStack 99 ∧
    (performing (.add 1) 100 [] []).CellsInv ∧ ¬ (performing (.add 1) 100 [] []).inStack 100 :=
  ⟨cellsInv_of _ (by decide), by decide, cellsInv_of _ (by decide), by decide⟩

theorem test_witness_PopOneUndoesPush :
    (performing (.push 9) 0 [] []).CellsInv ∧ (performing (.push 9) 0 [] []).params.wf ∧ isWord 32 0 ∧
    (performing (.push 9) 0 [] []).inStack ((performing (.push 9) 0 [] []).wrap (0 + 1)) :=
  ⟨cellsInv_of _ (by decide), by decide, by decide, by decide⟩

theorem test_witness_RepeatPopsItsDescriptorIntoAFrame :
    (performing (.rep 5) 0 [(0, 26)] []).inStack 0 ∧ ¬ (performing (.rep 5) (-1) [] []).inStack (-1) := by
  decide

/-- The depth allowed, the depth refused, and `top` out of range. -/
theorem test_witness_ExtendDispatchesTheWidenedValue :
    ((limited 1 (performing (.extend 1) 1 [(1, 352)] [])).inStack 1 ∧
      (limited 1 (performing (.extend 1) 1 [(1, 352)] [])).params.allowsDepth (0 + 1) = true) ∧
    (limited 0 (performing (.extend 1) 1 [(1, 352)] [])).params.allowsDepth (0 + 1) = false ∧
    ¬ (performing (.extend 1) (-1) [] []).inStack (-1) := by decide

/-- The guards 1 and 0 on either side of the test, with the depth allowed and refused. -/
theorem test_witness_ConditionalFiresOnAPositiveGuard :
    ((limited 1 (performing (.conditional 7) 1 [(1, 8)] [])).inStack 1 ∧
      0 < (decodeCell ((limited 1 (performing (.conditional 7) 1 [(1, 8)] [])).cell 1)).2 ∧
      (limited 1 (performing (.conditional 7) 1 [(1, 8)] [])).params.allowsDepth (0 + 1) = true ∧
      (limited 0 (performing (.conditional 7) 1 [(1, 8)] [])).params.allowsDepth (0 + 1) = false) ∧
    (decodeCell ((performing (.conditional 7) 1 [(1, 7)] []).cell 1)).2 ≤ 0 ∧
    ¬ (performing (.conditional 7) 100 [] []).inStack 100 := by decide

/-- The addresses 999 and 1000 on either side of the test, and `top` out of range. -/
theorem test_witness_LoadReadsTheMemoryWord :
    ((performing (.load 3) 0 [(0, 231)] [(999, 4)]).CellsInv ∧ (3 : Int) ≠ 0 ∧
      (performing (.load 3) 0 [(0, 231)] [(999, 4)]).inStack 0 ∧
      (performing (.load 3) 0 [(0, 231)] [(999, 4)]).inMemory (loadAddress 32 3 231)) ∧
    ((performing (.load 3) 0 [(0, 232)] []).CellsInv ∧ (performing (.load 3) 0 [(0, 232)] []).inStack 0 ∧
      ¬ (performing (.load 3) 0 [(0, 232)] []).inMemory (loadAddress 32 3 232)) ∧
    ((performing (.load 3) (-1) [] []).CellsInv ∧ ¬ (performing (.load 3) (-1) [] []).inStack (-1)) :=
  ⟨⟨cellsInv_of _ (by decide), by decide, by decide, by decide⟩, ⟨cellsInv_of _ (by decide), by decide, by decide⟩,
    cellsInv_of _ (by decide), by decide⟩

theorem test_witness_LoadZeroTakesOneInputByte :
    ((fed [0x41] (performing (.load 0) 0 [] [])).CellsInv ∧ (fed [0x41] (performing (.load 0) 0 [] [])).inStack 0 ∧
      (fed [0x41] (performing (.load 0) 0 [] [])).input.events = .byte 0x41 :: []) ∧
    ((performing (.load 0) 100 [] []).CellsInv ∧ ¬ (performing (.load 0) 100 [] []).inStack 100) :=
  ⟨⟨cellsInv_of _ (by decide), by decide, by decide⟩, cellsInv_of _ (by decide), by decide⟩

theorem test_witness_EndOfInputIsRaised :
    (performing (.load 0) 0 [] []).inStack 0 ∧ (performing (.load 0) 0 [] []).input.events = [] ∧
    (performing (.load 0) 0 [] []).input.tail = .endOfInput := by decide

/-- The addresses 999 and 1000 on either side of the test, and `top` out of range. -/
theorem test_witness_StoreWritesTheMemoryWord :
    ((performing (.store 999) 1 [(1, 77)] []).CellsInv ∧ (999 : Int) ≠ 0 ∧
      (performing (.store 999) 1 [(1, 77)] []).inStack 1 ∧
      (performing (.store 999) 1 [(1, 77)] []).inMemory (storeAddress 999)) ∧
    ¬ (performing (.store 1000) 1 [(1, 77)] []).inMemory (storeAddress 1000) ∧
    ¬ (performing (.store 999) (-1) [] []).inStack (-1) :=
  ⟨⟨cellsInv_of _ (by decide), by decide, by decide, by decide⟩, by decide, by decide⟩

/-- A sink that takes the word, listed and by its tail; a busy one, listed and by its tail; `top` out of range. -/
theorem test_witness_StoreZeroEmitsTheTopCell :
    (performing (.store 0) 1 [(1, 8)] []).inStack 1 ∧
    (SinkEvent.takes :: [SinkEvent.busy] = .takes :: [.busy]) ∧
    (performing (.store 0) 1 [(1, 8)] []).output.tail = .takes ∧
    ({ performing (.store 0) 1 [(1, 8)] [] with output := { events := [.busy], tail := .busy, log := [] } }).output.events =
      .busy :: [] ∧
    ({ performing (.store 0) 1 [(1, 8)] [] with output := { events := [], tail := .busy, log := [] } }).output.tail =
      .busy ∧
    ¬ (performing (.store 0) (-1) [] []).inStack (-1) := by decide

/-- A store of 9 at address 256 and the load that meets it (the vector P2); the bounds of the address ranges. -/
theorem test_witness_StoreThenLoadReturnsTheWord :
    (performing (.store 256) 1 [(1, 9)] []).CellsInv ∧ (256 : Int) ≠ 0 ∧ (performing (.store 256) 1 [(1, 9)] []).inStack 1 ∧
    (performing (.store 256) 1 [(1, 9)] []).inMemory 256 ∧
    (∃ t, exec (.store 256) (performing (.store 256) 1 [(1, 9)] []) = .next t ∧ t.CellsInv ∧ t.inStack t.top ∧
      (1 : Int) ≠ 0 ∧ loadAddress 32 1 (t.cell t.top.toNat) = 256) ∧
    (9 ≤ 32 ∧ (256 : Int) ≤ 256 ∧ isWord 32 256 ∧ isWord 32 8191 ∧ isWord 32 2147483647) ∧
    ((0 : Int) ≤ 255 ∧ (255 : Int) < 256 ∧ (1 : Int) ≤ 255) :=
  ⟨cellsInv_of _ (by decide), by decide, by decide, by decide,
    ⟨_, rfl, cellsInv_of _ (by decide), by decide, by decide, by decide⟩, by decide, by decide⟩

/-- A step that writes a memory word, and one that writes a stack cell. -/
theorem test_witness_OnlyTheirInstructionsWriteCells :
    (∃ t, step (performing (.store 999) 1 [(1, 77)] []) = .next t ∧
      t.word 999 ≠ (performing (.store 999) 1 [(1, 77)] []).word 999) ∧
    (∃ t, step (performing (.add 3) 1 [(1, 77)] []) = .next t ∧
      t.cell 1 ≠ (performing (.add 3) 1 [(1, 77)] []).cell 1) :=
  ⟨⟨_, rfl, by decide⟩, ⟨_, rfl, by decide⟩⟩

/-- A step that takes an input byte, and one that emits a word. -/
theorem test_witness_HooksAreTheOnlyPortUsers :
    (nested.rst = false ∧ ∃ t, step nested = .next t) ∧
    (∃ t, step (fed [0x41] nested) = .next t ∧ t.input ≠ (fed [0x41] nested).input) ∧
    (∃ t, step (performing (.store 0) 1 [(1, 8)] []) = .next t ∧
      t.output.log = (performing (.store 0) 1 [(1, 8)] []).output.log ++ [8]) :=
  ⟨⟨rfl, _, rfl⟩, ⟨_, rfl, by decide⟩, ⟨_, rfl, by decide⟩⟩

theorem test_witness_OutputLogIsAppendOnly : ∃ t, step (performing (.store 0) 1 [(1, 8)] []) = .next t := ⟨_, rfl⟩

theorem test_witness_TopMovesByOpcode : ∃ t, exec (.rep 5) (performing (.rep 5) 1 [(1, 26)] []) = .next t := ⟨_, rfl⟩

theorem test_witness_LaunchIsNeverWritten :
    (∃ t, step nested = .next t) ∧
    ∃ t, ({ nested with rst := true } : State).rst = true ∧ step { nested with rst := true } = .next t :=
  ⟨⟨_, rfl⟩, ⟨_, rfl, rfl⟩⟩

/-- Both cases: `Push(5)` that completes, and a fault. -/
theorem test_witness_PcAdvancesOnlyPastAnInstructionInRange :
    (∃ t, step (fetching [0x28] 0 [] []) = .next t ∧ t.phase = .fetch) ∧
    (∃ t, step (fetching [0x28] 99 [] []) = .next t ∧ t.phase = .fault) := ⟨⟨_, rfl, by decide⟩, ⟨_, rfl, by decide⟩⟩

/-- A state about to exceed MAX_DEPTH = 0 (the vector K12). -/
def tooDeep : State := limited 0 (fetching [0x04] 1 [] [])

theorem test_witness_tooDeep_inv : tooDeep.Inv :=
  ⟨⟨by decide, by decide, by decide, by decide, by decide⟩,
   ⟨by decide, by decide, by decide, by decide, by decide, by decide, by decide⟩,
   ⟨by decide, by decide, by decide, by decide, by decide, by decide⟩,
   ⟨by decide, by decide, by decide, by decide, by decide, by decide⟩,
   ⟨by decide, by decide, by decide, by decide, by decide⟩⟩

/-- The fault clause; and a limit on either side of the depth entered. -/
theorem test_witness_NestingFaultRecordsTheFirstForbiddenDepth :
    (tooDeep.Inv ∧ tooDeep.status.state = .running ∧
      ∃ t, step tooDeep = .next t ∧ t.status.cause = .nestingDepthExceeded) ∧
    (∃ d, nested.params.maxDepth = some d ∧ d < 3 + 1) ∧ (∀ d, nested.params.maxDepth = some d → 2 + 1 ≤ d) :=
  ⟨⟨test_witness_tooDeep_inv, by decide, _, rfl, by decide⟩, ⟨3, rfl, by decide⟩, by
    intro d h; injection h with h; subst h; decide⟩

/-- Two chained descriptors (the vector L1-4): `s2 = desc(Extend, 1)`, `s1 = desc(Push, 44)`. -/
def chained : State := limited 2 (performing (.extend 0) 2 [(1, 352), (2, 12)] [])

theorem test_witness_ExtendChainBuildsTheWideValue :
    (chained.rst = false ∧ chained.phase = .exec ∧ chained.params.wf ∧ chained.cur = some (.extend 0) ∧
      chained.inStack chained.top ∧
      ([1, 44] : List Int) ≠ [] ∧ (([1, 44] : List Int).length : Int) ≤ chained.top + 1 ∧
      chained.params.allowsDepth (chained.depth + ([1, 44] : List Int).length) = true ∧
      (∀ (j : Nat) (h : j < ([1, 44] : List Int).length), decodeCell (chained.cell (chained.top.toNat - j)) =
        (if j + 1 = ([1, 44] : List Int).length then Opcode.push else .extend, ([1, 44] : List Int)[j]))) ∧
    ((0 : Int) ≤ 31 ∧ (31 : Int) < 32 ∧ (∀ d ∈ ([255, 0, 255] : List Int), 0 ≤ d ∧ d < 256) ∧ 9 ≤ 32 ∧
      8 * ([255, 0, 255] : List Int).length + 5 ≤ 32 - 1) := by
  refine ⟨⟨rfl, rfl, by decide, rfl, by decide, by decide, by decide, by decide, fun j h => ?_⟩, by decide⟩
  obtain rfl | rfl : j = 0 ∨ j = 1 := by simp at h; omega
  · exact (by decide : decodeCell (chained.cell 2) = (.extend, 1))
  · exact (by decide : decodeCell (chained.cell 1) = (.push, 44))

/-- The vector K1, and the count zero of L1-3. -/
theorem test_witness_RepeatOfAddAddsCountTimes :
    (fetching [0b00101011] 1 [(1, 26)] []).CellsInv ∧ (fetching [0b00101011] 1 [(1, 26)] []).params.wf ∧
    (fetching [0b00101011] 1 [(1, 26)] []).program[0]? = some (5#5 ++ 3#3) ∧
    (fetching [0b00101011] 1 [(1, 26)] []).inStack 1 ∧ 1 ≤ (1 : Int) ∧
    isWord 32 ((fetching [0b00101011] 1 [(1, 26)] []).cell 0) ∧ 3 < 2 ^ (32 - 4) ∧
    (fetching [0b00101011] 1 [(1, 26)] []).params.allowsDepth 1 = true ∧
    (fetching [0b00101011] 1 [(1, 26)] []).cell 1 = descriptor 32 .add 3 ∧
    (fetching [0b00101011] 1 [(1, 2)] []).cell 1 = descriptor 32 .add 0 :=
  ⟨cellsInv_of _ (by decide), by decide, by decide, by decide, by decide, by decide, by decide, by decide, by decide,
    by decide⟩

/-- The vector K13: MAX_DEPTH = 0 and a count of zero. -/
theorem test_witness_RepeatWithoutCountConsumesOneCell :
    (limited 0 (fetching [0b00101011] 1 [(1, 2)] [])).params.wf ∧
    (limited 0 (fetching [0b00101011] 1 [(1, 2)] [])).program[0]? = some (5#5 ++ 3#3) ∧
    (limited 0 (fetching [0b00101011] 1 [(1, 2)] [])).inStack 1 ∧ 1 ≤ (1 : Int) ∧
    (decodeCell ((limited 0 (fetching [0b00101011] 1 [(1, 2)] [])).cell 1)).2 ≤ 0 := by decide

/-- The vector K4's end: the second iteration of a Repeat ends with `top` far below zero and, here, one more is due. -/
def unchecked : State :=
  { performing (.pop 9) 1 [] [] with depth := 2, frames := [⟨1, .add, 0, 0⟩, ⟨0, .pop, 9, 1⟩] }

theorem test_witness_NestedOperationsAreNotChecked :
    unchecked.rst = false ∧ unchecked.phase = .exec ∧ unchecked.cur = some (.pop 9) ∧
    (∃ u, exec (.pop 9) unchecked = .next u ∧ u.phase = .exec ∧ u.cur = none ∧ u.top < 0 ∧
      u.frames = [⟨1, .add, 0, 0⟩] ++ ⟨0, .pop, 9, 1⟩ :: []) ∧
    (∀ g ∈ [(⟨1, .add, 0, 0⟩ : Frame)], g.remaining ≤ 0) ∧ 0 < (⟨0, .pop, 9, 1⟩ : Frame).remaining ∧
    unchecked.params.allowsDepth (0 + 1) = true :=
  ⟨rfl, rfl, rfl, ⟨_, rfl, rfl, rfl, by decide, rfl⟩, by decide, by decide, by decide⟩

/-- The deepest control stack that MAX_DEPTH = 1 allows: two frames. -/
def fullControl : State :=
  { limited 1 (fetching [0] 0 [] []) with phase := .resume, frames := [⟨1, .add, 0, 0⟩, ⟨0, .rep, 0, 1⟩] }

theorem test_witness_ControlStackIsBounded : fullControl.ControlInv ∧ fullControl.params.maxDepth = some 1 :=
  ⟨⟨by decide, by decide, by decide, by decide, by decide, by decide⟩, rfl⟩

theorem test_witness_StepRunsTheDecodedInstruction :
    ((fetching [0x28] 0 [] []).rst = false ∧ (fetching [0x28] 0 [] []).phase = .fetch ∧
      (fetching [0x28] 0 [] []).program[0]? = some 0x28) ∧
    ((Instr.push 5).WellFormed ∧ encode (.push 5) = .ok 0x28) ∧ (nested.phase = .exec ∧ nested.cur = some (.load 0)) :=
  ⟨by decide, ⟨by decide, rfl⟩, by decide⟩

/-- `Pop` leaves `top` at -1, at STACK_CAP (by a value of -1) and at the last cell; a refused read is a fault. -/
theorem test_witness_TopLevelCheckTestsTop :
    (∃ u, exec (decodeByte 0x09) ((fetching [0x09] 0 [] []).beginInstr (decodeByte 0x09)) = .next u ∧ u.phase = .exec ∧
      u.cur = none ∧ (∀ f ∈ u.frames, f.remaining ≤ 0) ∧ u.top < 0) ∧
    (∃ u, exec (.pop (-1)) (performing (.pop (-1)) 99 [] []) = .next u ∧ u.phase = .exec ∧ u.cur = none ∧
      (∀ f ∈ u.frames, f.remaining ≤ 0) ∧ (u.params.stackCap : Int) ≤ u.top ∧ 0 ≤ u.top) ∧
    (∃ u, exec (.pop 0) (performing (.pop 0) 99 [] []) = .next u ∧ u.phase = .exec ∧ u.cur = none ∧
      (∀ f ∈ u.frames, f.remaining ≤ 0) ∧ u.inStack u.top) ∧
    (∃ u, exec (.add 1) (performing (.add 1) 100 [] []) = .next u ∧ u.phase = .fault) :=
  ⟨⟨_, rfl, rfl, rfl, by decide, by decide⟩, ⟨_, rfl, rfl, rfl, by decide, by decide, by decide⟩,
    ⟨_, rfl, rfl, rfl, by decide, by decide⟩, ⟨_, rfl, rfl⟩⟩

theorem test_witness_ConsumedProgramIsSuccess :
    ({ fetching [0x28] 1 [(1, 5)] [] with pc := 1 } : State).rst = false ∧
    ({ fetching [0x28] 1 [(1, 5)] [] with pc := 1 } : State).phase = .fetch ∧
    ({ fetching [0x28] 1 [(1, 5)] [] with pc := 1 } : State).pc = [(0x28 : Byte)].length := by decide

/-- Each of the five causes is raised by a step from a state that meets the invariant (the vectors S6, S3, M9, M3 and K12). -/
theorem test_witness_FaultRegistersMatchTheCause :
    (∃ s t : State, s.Inv ∧ s.status.state = .running ∧ step s = .next t ∧ t.status.cause = .stackUnderflow) ∧
    (∃ s t : State, s.Inv ∧ s.status.state = .running ∧ step s = .next t ∧ t.status.cause = .stackOverflow) ∧
    (∃ s t : State, s.Inv ∧ s.status.state = .running ∧ step s = .next t ∧ t.status.cause = .memoryOutOfRange) ∧
    (∃ s t : State, s.Inv ∧ s.status.state = .running ∧ step s = .next t ∧ t.status.cause = .endOfInput) ∧
    (∃ s t : State, s.Inv ∧ s.status.state = .running ∧ step s = .next t ∧ t.status.cause = .nestingDepthExceeded) := by
  refine ⟨⟨fetching [0x09] 0 [] [], _, ?_, by decide, rfl, by decide⟩,
    ⟨fetching [0x18] 99 [] [], _, ?_, by decide, rfl, by decide⟩,
    ⟨fetching [0x26] 0 [] [], _, ?_, by decide, rfl, by decide⟩, ⟨fetching [0x06] 0 [] [], _, ?_, by decide, rfl, by decide⟩,
    ⟨tooDeep, _, test_witness_tooDeep_inv, by decide, rfl, by decide⟩⟩ <;>
  exact ⟨⟨by decide, by decide, by decide, by decide, by decide⟩,
    ⟨by decide, by decide, by decide, by decide, by decide, by decide, by decide⟩,
    ⟨by decide, by decide, by decide, by decide, by decide, by decide⟩,
    ⟨by decide, by decide, by decide, by decide, by decide, by decide⟩,
    ⟨by decide, by decide, by decide, by decide, by decide⟩⟩

/-- A finished run, with and without a pending reset. -/
theorem test_witness_EndedRunsStayUntilReset :
    ({ State.reset with phase := .done, status := ⟨.success, false, .none⟩ } : State).halted ∧
    ({ State.reset with phase := .done, status := ⟨.success, false, .none⟩, rst := true } : State).rst = true :=
  ⟨.inl rfl, rfl⟩

theorem test_witness_ResetEstablishesTheResetState : ({ nested with rst := true } : State).rst = true := rfl

/-- A step of an ended run, where STATE has left RUNNING. -/
theorem test_witness_StatusWordHasItsLayout :
    (nested.Inv ∧ ∃ t, step nested = .next t) ∧
    ({ State.reset with phase := .done, status := ⟨.success, false, .none⟩ } : State).Inv ∧
    ({ State.reset with phase := .done, status := ⟨.success, false, .none⟩ } : State).rst = false ∧
    ({ State.reset with phase := .done, status := ⟨.success, false, .none⟩ } : State).status.word.extractLsb' 0 2 ≠ 0#2 :=
  ⟨⟨test_witness_nested_inv, _, rfl⟩,
   ⟨⟨by decide, by decide, by decide, by decide, by decide⟩,
    ⟨by decide, by decide, by decide, by decide, by decide, by decide, by decide⟩,
    ⟨by decide, by decide, by decide, by decide, by decide, by decide⟩,
    ⟨by decide, by decide, by decide, by decide, by decide, by decide⟩,
    ⟨by decide, by decide, by decide, by decide, by decide⟩⟩, rfl, by decide⟩

/-- The three hosts: one silent poll, a byte, silent for ever. -/
theorem test_witness_SilentInputIsWaitedFor :
    (nested.rst = false ∧ nested.phase = .exec ∧ nested.cur = some (.load 0) ∧ nested.inStack nested.top) ∧
    ({ nested with input := ⟨[.silent], .silent⟩ } : State).input.events = .silent :: [] ∧
    ({ nested with input := ⟨[.byte 65], .silent⟩ } : State).input.events = .byte 65 :: [] ∧
    ({ nested with input := ⟨[], .silent⟩ } : State).input.tail = .silent := by decide

theorem test_witness_InputDelayLeavesNoTrace :
    ({ nested with input := ⟨[.silent, .silent, .byte 65], .silent⟩ } : State).input.events =
      List.replicate 2 .silent ++ .byte 65 :: [] := by decide

/-- One byte, `Load(0)`, with a silent poll before the answer: the pseudocode ends, and so it does without the poll. -/
theorem test_witness_RunsDoNotDependOnPortDelays :
    (∃ t, interpret 3 { fetching [0x06] 0 [] [] with input := ⟨[.silent, .byte 65], .endOfInput⟩ } = some t) ∧
    ∃ u, interpret 2 ({ fetching [0x06] 0 [] [] with input := ⟨[.silent, .byte 65], .endOfInput⟩ } : State).undelayed = some u :=
  ⟨⟨_, rfl⟩, ⟨_, rfl⟩⟩

theorem test_witness_StepKeepsTheCellArrays : nested.CellsInv ∧ ∃ t, step nested = .next t :=
  ⟨test_witness_nested_cells, _, rfl⟩

/-- A state of allowed parameters that has emitted a word. -/
def emitted : State := { nested with output := { nested.output with log := [-1] } }

theorem test_witness_ResetMeetsTheInvariant :
    emitted.params.wf ∧ ∀ x ∈ emitted.output.log, isWord emitted.width x := by decide

theorem test_witness_StepKeepsTheInvariant : nested.Inv ∧ ∃ t, step nested = .next t := ⟨test_witness_nested_inv, _, rfl⟩

/-- `Extend` of `Push(300)` with fuel 2: the operation completes. -/
theorem test_witness_FsmPerformsTheRecursiveOperation :
    (performing (.extend 1) 1 [(1, 352)] []).rst = false ∧ (performing (.extend 1) 1 [(1, 352)] []).phase = .exec ∧
    (performing (.extend 1) 1 [(1, 352)] []).cur = some (Opcode.extend.instr 1) ∧
    ∃ r, execute 2 0 .extend 1 (performing (.extend 1) 1 [(1, 352)] []) = some r := ⟨rfl, rfl, rfl, _, rfl⟩

/-- The program P1, `28 1A 07`: the pseudocode ends. -/
theorem test_witness_MachineRunsAsInterpretDoes :
    (fetching [0x28, 0x1A, 0x07] 0 [] []).rst = false ∧ (fetching [0x28, 0x1A, 0x07] 0 [] []).phase = .fetch ∧
    ∃ t, interpret 4 (fetching [0x28, 0x1A, 0x07] 0 [] []) = some t := ⟨rfl, rfl, _, rfl⟩

end Sys2Proof.Tests
end

section
/-! PROOFS. A word and its bits: `word(n)` is the signed reading of the low W bits of `n`, at every width (rules R8 to R10). -/

namespace Sys2Proof

/-- `word(n)` is the signed reading of `n`'s bits (rule R10). -/
theorem wordOf_eq_toInt (w : Nat) (n : Int) : wordOf w n = (BitVec.ofInt w n).toInt :=
  (BitVec.toInt_ofInt n).symm

/-- `word(n)` has `n`'s bits. -/
@[simp] theorem ofInt_wordOf (w : Nat) (n : Int) : BitVec.ofInt w (wordOf w n) = BitVec.ofInt w n := by
  rw [wordOf_eq_toInt, BitVec.ofInt_toInt]

/-- `word(n)` is congruent to `n` modulo `2^W`. -/
theorem dvd_wordOf_sub (w : Nat) (n : Int) : (2 ^ w : Int) ∣ wordOf w n - n := by
  have h := Int.dvd_bmod_sub_self (x := n) (m := 2 ^ w)
  exact_mod_cast h

/-- The signed reading of a word's bits is the word. -/
theorem toInt_ofInt_of_isWord {w : Nat} (h : 1 ≤ w) {x : Int} (hx : isWord w x) : (BitVec.ofInt w x).toInt = x := by
  rw [← wordOf_eq_toInt, wordOf_eq h hx]

/-- Words with equal bits are equal. -/
theorem ofInt_inj_of_isWord {w : Nat} (h : 1 ≤ w) {x y : Int} (hx : isWord w x) (hy : isWord w y) :
    BitVec.ofInt w x = BitVec.ofInt w y ↔ x = y := by
  rw [← BitVec.toInt_inj, toInt_ofInt_of_isWord h hx, toInt_ofInt_of_isWord h hy]

/-- The signed order of the bits is the order of the words. -/
theorem slt_ofInt_of_isWord {w : Nat} (h : 1 ≤ w) {x y : Int} (hx : isWord w x) (hy : isWord w y) :
    (BitVec.ofInt w x).slt (BitVec.ofInt w y) = true ↔ x < y := by
  rw [BitVec.slt_iff_toInt_lt, toInt_ofInt_of_isWord h hx, toInt_ofInt_of_isWord h hy]

/-- The bits of a difference are the difference of the bits. -/
theorem ofInt_sub (w : Nat) (x y : Int) : BitVec.ofInt w (x - y) = BitVec.ofInt w x - BitVec.ofInt w y := by
  rw [Int.sub_eq_add_neg, BitVec.ofInt_add, BitVec.ofInt_neg, BitVec.sub_eq_add_neg]

namespace Machine

/-- A widened value has the bits that rule R48 shifts and ORs. -/
@[simp] theorem ofInt_widen (w : Nat) (v x : Int) :
    BitVec.ofInt w (widen w v x) = (BitVec.ofInt w v <<< 8) ||| BitVec.ofInt w x := by
  rw [widen, BitVec.ofInt_toInt]

/-- An input byte's word is its zero-extension (rule R125). -/
@[simp] theorem ofInt_inputWord (w : Nat) (b : Byte) : BitVec.ofInt w (inputWord b) = b.setWidth w := by
  rw [inputWord, BitVec.ofInt_natCast, BitVec.ofNat_toNat]

/-- Settles O10: each clause is the fact, proved above for every width, that `word(n)` is the signed reading of `n`'s bits. -/
theorem wordsAreTheirSignedReadings : Obligations.WordsAreTheirSignedReadings := by
  intro w hw
  have h1 : 1 ≤ w := by omega
  refine ⟨fun n => ⟨wordOf_isWord h1 n, ofInt_wordOf w n, dvd_wordOf_sub w n⟩, fun x y hx hy => ?_,
    fun b => ⟨inputWord_isWord hw b, ofInt_inputWord w b⟩⟩
  refine ⟨ofInt_inj_of_isWord h1 hx hy, toInt_ofInt_of_isWord h1 hx, slt_ofInt_of_isWord h1 hx hy, ?_, ?_,
    widen_isWord h1 x y, ofInt_widen w x y⟩
  · rw [ofInt_wordOf, BitVec.ofInt_add]
  · rw [ofInt_wordOf, ofInt_sub]

end Machine

end Sys2Proof
end

section
/-! PROOFS. The cell arrays under every operation: which words they hold, and that every step keeps their canonical form. -/

namespace Sys2Proof.Machine

/-- A cell reads as 0 or as a listed word. -/
theorem Memory.read_mem (m : Memory) (a : Nat) : Memory.read m a = Memory.unlisted ∨ ∃ c ∈ m, Memory.read m a = c.2 := by
  induction m with
  | nil => exact .inl rfl
  | cons d m ih =>
    rw [Memory.read]
    split
    · exact .inr ⟨d, List.mem_cons_self, rfl⟩
    · exact ih.imp_right fun ⟨c, hc, h⟩ => ⟨c, List.mem_cons_of_mem _ hc, h⟩

/-- In an array of words every cell reads as a word. -/
theorem Memory.isWord_read {w : Nat} {m : Memory} (h : ∀ c ∈ m, isWord w c.2) (a : Nat) : isWord w (Memory.read m a) := by
  rcases Memory.read_mem m a with h0 | ⟨c, hc, h0⟩ <;> rw [h0]
  · have := half_pos w
    exact ⟨by simp only [Memory.unlisted]; omega, by simpa only [Memory.unlisted]⟩
  · exact h c hc

/-- Writing a word keeps an array of words. -/
theorem Memory.isWord_write {w : Nat} {m : Memory} {x : Int} (h : ∀ c ∈ m, isWord w c.2) (a : Nat) (hx : isWord w x) :
    ∀ c ∈ Memory.write m a x, isWord w c.2 := by
  intro c hc
  rcases Memory.mem_write m a x c hc with hc | rfl
  · exact h c hc
  · exact hx

variable {s t u : State} {i : Instr}

/-- The cell arrays' invariant speaks of the arrays and the capacities alone. -/
theorem State.CellsInv.congr (h : s.CellsInv) (hstk : t.stk = s.stk) (hmem : t.mem = s.mem) (hpar : t.params = s.params) :
    t.CellsInv where
  stackCanonical := hstk ▸ h.stackCanonical
  stackWithin := hstk ▸ hpar ▸ h.stackWithin
  memoryCanonical := hmem ▸ h.memoryCanonical
  memoryWithin := hmem ▸ hpar ▸ h.memoryWithin
  memoryZero := by rw [State.word, hmem]; exact h.memoryZero

theorem State.toNat_lt_stackCap {j : Int} (hj : s.inStack j) : j.toNat < s.params.stackCap := by
  obtain ⟨hlow, hhigh⟩ := hj
  omega

theorem State.toNat_lt_memCap {a : Int} (ha : s.inMemory a) : a.toNat < s.params.memCap := by
  obtain ⟨hlow, hhigh⟩ := ha
  omega

/-- A stack write in range keeps the cell arrays' invariant. -/
theorem State.CellsInv.writeStack (h : s.CellsInv) {j : Int} (hj : s.inStack j) (x : Int) :
    State.CellsInv { s with stk := Memory.write s.stk j.toNat x } :=
  { h with
    stackCanonical := Memory.wf_write _ _ _ h.stackCanonical
    stackWithin := Memory.within_write _ _ _ _ h.stackWithin (State.toNat_lt_stackCap hj) }

/-- A memory write in range, but for cell 0, keeps the cell arrays' invariant. -/
theorem State.CellsInv.writeMemory (h : s.CellsInv) {a : Int} (ha : s.inMemory a) (h0 : a ≠ 0) (x : Int) :
    State.CellsInv { s with mem := Memory.write s.mem a.toNat x } :=
  { h with
    memoryCanonical := Memory.wf_write _ _ _ h.memoryCanonical
    memoryWithin := Memory.within_write _ _ _ _ h.memoryWithin (State.toNat_lt_memCap ha)
    memoryZero := by
      have hne : 0 ≠ a.toNat := by have := ha.1; omega
      exact (Memory.read_write_other _ _ _ _ hne).trans h.memoryZero }

/-- Every instruction keeps the cell arrays' invariant: only a Store with `v != 0` writes the memory, and never cell 0. -/
theorem State.CellsInv.exec (h : s.CellsInv) (hx : exec i s = .next u) : u.CellsInv := by
  cases exec_end hx
  case pushed hi | added hi | loaded hi _ | read hi _ => exact (h.writeStack hi _).congr rfl rfl rfl
  case stored hv _ hm => exact (h.writeMemory hm hv _).congr rfl rfl rfl
  all_goals exact h.congr rfl rfl rfl

/-- RESUME and CHECK keep the cell arrays' invariant. -/
theorem State.CellsInv.settle (h : s.CellsInv) : s.settle.CellsInv := by
  obtain ⟨hstk, hmem, -, -, hpar, -, -⟩ := s.settle_keeps
  exact h.congr hstk hmem hpar

end Sys2Proof.Machine
end

section
/-! PROOFS. Every word the machine holds stays a W-bit word. -/

namespace Sys2Proof

@[simp] theorem Opcode.instr_value (op : Opcode) (v : Int) : (op.instr v).value = v := by cases op <;> rfl

/-- The immediate of a program byte is a word (rule R62). -/
theorem decodeByte_isWord {w : Nat} (h : 9 ≤ w) (b : Byte) : isWord w (decodeByte b).value := by
  have := (decodeFields b).2.isLt
  rw [decodeByte, Opcode.instr_value]
  exact isWord_of_byte h (by omega) (by omega)

namespace Machine

variable {s t u : State} {i : Instr}

theorem State.WordsInv.setTop (h : s.WordsInv) {x : Int} (hx : isWord s.width x) : (s.setTop x).WordsInv :=
  { h with top := hx }

theorem State.WordsInv.inputAnswered (h : s.WordsInv) (p : InputPort) : (s.inputAnswered p).WordsInv := { h with }

/-- Taking a fault whose report holds words (rule R164). -/
theorem State.WordsInv.raise (h : s.WordsInv) {r : FaultReport} (hi : isWord s.width r.index) (ha : isWord s.width r.addr) :
    (s.raise r).WordsInv :=
  { h with current := by simp, frames := by simp, reports := ⟨hi, ha⟩ }

/-- An operation chosen with a word as its value. -/
theorem isWord_instr {w : Nat} {v : Int} (hv : isWord w v) (op : Opcode) : ∀ j ∈ some (op.instr v), isWord w j.value := by
  rintro _ ⟨⟩
  rwa [Opcode.instr_value]

/-- The word 0, which a report holds where rule R164 names no information. -/
theorem isWord_zero (w : Nat) : isWord w 0 := by
  have := half_pos w
  exact ⟨by omega, this⟩

/-- The sink's log holds words after an offer of a word. -/
theorem OutputPort.isWord_offer {w : Nat} {p q : OutputPort} {x : Int} {taken : Bool} (h : ∀ y ∈ p.log, isWord w y)
    (hx : isWord w x) (hq : p.offer x = (taken, q)) : ∀ y ∈ q.log, isWord w y := by
  rcases p.offer_cases x with ⟨es, he⟩ | ⟨es, he⟩ <;> rw [he] at hq <;> cases hq
  · intro y hy
    rcases List.mem_append.1 hy with hy | hy
    · exact h y hy
    · rwa [List.mem_singleton.1 hy]
  · exact h

/-- Every instruction with a word as its value keeps the machine's words. -/
theorem State.WordsInv.exec (h : s.WordsInv) (hw : 9 ≤ s.width) (hv : isWord s.width i.value) (hx : exec i s = .next u) :
    u.WordsInv := by
  have wrapped : ∀ n, isWord s.width (s.wrap n) := wordOf_isWord (by omega)
  have hcell : isWord s.width s.topCell := Memory.isWord_read h.stack _
  have hrest : isWord s.width (decodeCell s.topCell).2 := decodeCell_isWord hcell
  have hwiden : ∀ v x, isWord s.width (widen s.width v x) := widen_isWord (by omega)
  have hstk : ∀ a x, isWord s.width x → ∀ c ∈ Memory.write s.stk a x, isWord s.width c.2 :=
    fun a _ => Memory.isWord_write h.stack a
  have h0 := isWord_zero s.width
  cases exec_end hx
  case pushed => exact { h with top := wrapped _, stack := hstk _ _ hv, current := by simp }
  case popped | passed => exact { h with top := wrapped _, current := by simp }
  case added => exact { h with stack := hstk _ _ (wrapped _), current := by simp }
  case loaded => exact { h with stack := hstk _ _ (Memory.isWord_read h.memory _), current := by simp }
  case read => exact { h with stack := hstk _ _ (inputWord_isWord hw _), current := by simp }
  case awaits => exact { h with }
  case stored =>
    exact { h with top := wrapped _, memory := Memory.isWord_write h.memory _ hcell, current := by simp }
  case emitted hp =>
    exact { h with top := wrapped _, output := OutputPort.isWord_offer h.output hcell hp, current := by simp }
  case offers hp => exact { h with output := OutputPort.isWord_offer h.output hcell hp }
  case framed =>
    exact { h with
      top := wrapped _, current := by simp, frames := List.forall_mem_cons.2 ⟨⟨hv, hrest⟩, h.frames⟩ }
  case extended => exact { h with top := wrapped _, current := isWord_instr (hwiden _ _) _ }
  case fired => exact { h with top := wrapped _, current := isWord_instr hv _ }
  case pushRefused => exact (h.setTop (wrapped _)).raise (wrapped _) h0
  case accessRefused => exact h.raise h.top h0
  case loadRefused => exact h.raise h0 (hwiden _ _)
  case storeRefused => exact h.raise h0 hv
  case inputEnded => exact (h.inputAnswered _).raise h0 h0
  case tooDeep => exact (h.setTop (wrapped _)).raise h0 h0

/-- RESUME and CHECK keep the machine's words: a frame's count only falls towards 0. -/
theorem State.WordsInv.settle (h : s.WordsInv) : s.settle.WordsInv := by
  have h0 := isWord_zero s.width
  have hend := s.settle_end
  generalize s.settle = t at hend
  cases hend
  case rest => exact h
  case finished => exact { h with current := by simp, frames := by simp }
  case checked => exact { h with }
  case outOfRange => exact h.raise h.top h0
  case tooDeep => exact h.raise h0 h0
  case again used rest f _ hf hr _ =>
    have hall := h.frames
    rw [hf] at hall
    obtain ⟨⟨hval, hrem⟩, hrest⟩ := List.forall_mem_cons.1 (List.forall_mem_append.1 hall).2
    have hless : isWord s.width (f.remaining - 1) := ⟨by have := half_pos s.width; omega, by have := hrem.2; omega⟩
    exact { h with current := isWord_instr hval _, frames := List.forall_mem_cons.2 ⟨⟨hval, hless⟩, hrest⟩ }

end Machine

end Sys2Proof
end

section
/-! PROOFS. STATUS and the fault registers stay in agreement with the FSM. -/

namespace Sys2Proof.Machine

variable {s t u : State} {i : Instr}

/-- Between two states of a run that has not ended, STATUS and the fault registers stay; only WAIT_IN follows the FSM. -/
theorem State.StatusInv.move (h : s.StatusInv) (hs : ¬ s.halted) (ht : ¬ t.halted)
    (hst : t.status = { s.status with waitIn := t.status.waitIn }) (hwait : t.status.waitIn = true ↔ t.phase = .waitIn)
    (hpc : t.faultPc = s.faultPc) (hix : t.faultIndex = s.faultIndex) (had : t.faultAddr = s.faultAddr)
    (hdp : t.faultDepth = s.faultDepth) : t.StatusInv := by
  have hstate : t.status.state = s.status.state := by rw [hst]
  have hcause : t.status.cause = s.status.cause := by rw [hst]
  have hsucc : s.status.state ≠ .success := fun e => hs (.inl (h.success.1 e))
  have hfault : s.status.state ≠ .fault := fun e => hs (.inr (h.fault.1 e))
  exact {
    success := by rw [hstate]; exact ⟨fun e => absurd e hsucc, fun e => absurd (.inl e) ht⟩
    fault := by rw [hstate]; exact ⟨fun e => absurd e hfault, fun e => absurd (.inr e) ht⟩
    waiting := hwait
    cause := by rw [hstate, hcause]; exact h.cause
    quiet := fun _ => by rw [hpc, hix, had, hdp]; exact h.quiet hfault
    faultPc := by rw [hstate]; exact fun e => absurd e hfault }

/-- Taking a fault with a cause (rule R163). -/
theorem State.statusInv_raise (s : State) {r : FaultReport} (hc : r.cause ≠ .none) : (s.raise r).StatusInv := by
  constructor <;> simp [hc]

/-- A refused stack index is reported with a cause. -/
theorem indexFault_cause_ne {cap : Nat} {j : Int} {c : Cause} (h : indexFault cap j = some c) : c ≠ .none := by
  rcases indexFault_cases cap j with ⟨h1, _⟩ | ⟨h1, _⟩ | ⟨h1, _⟩ <;> rw [h1] at h <;> cases h <;> simp

theorem State.performing.not_halted (h : s.performing) : ¬ s.halted := by
  rcases h with h | h | h <;> simp [State.halted, h]

/-- WAIT_IN is clear whenever the current operation is not the input hook. -/
theorem State.waitIn_clear (h : s.StatusInv) (hctl : s.ControlInv) (hc : s.cur ≠ some (.load 0)) :
    s.status.waitIn = false := by
  rw [Bool.eq_false_iff]
  exact fun e => hc (hctl.waitsIn (h.waiting.1 e))

/-- Every instruction that is current keeps STATUS in agreement with the FSM. -/
theorem State.StatusInv.exec (h : s.StatusInv) (hctl : s.ControlInv) (hp : s.performing)
    (hcur : s.cur = some i) (hx : exec i s = .next u) : u.StatusInv := by
  have clear : i ≠ .load 0 → s.status.waitIn = false :=
    fun hi => State.waitIn_clear h hctl (by rw [hcur]; simpa using hi)
  have hs := hp.not_halted
  cases exec_end hx
  case read | awaits => exact h.move hs (by simp [State.halted]) rfl (by simp) rfl rfl rfl rfl
  case pushRefused hc | accessRefused hc => exact State.statusInv_raise _ (indexFault_cause_ne hc)
  case loadRefused | storeRefused | inputEnded | tooDeep => exact State.statusInv_raise _ (by simp)
  case loaded hv _ _ => exact h.move hs (by simp [State.halted]) rfl (by simp [clear, hv]) rfl rfl rfl rfl
  case pushed | popped | added | stored | emitted | offers | framed | extended | fired | passed =>
    exact h.move hs (by simp [State.halted]) rfl (by simp [clear]) rfl rfl rfl rfl

/-- RESUME and CHECK keep STATUS in agreement with the FSM. -/
theorem State.StatusInv.settle (h : s.StatusInv) (hctl : s.ControlInv) : s.settle.StatusInv := by
  have resuming : (s.performing ∧ s.cur = none) ∨ s.phase = .resume → ¬ s.halted ∧ s.status.waitIn = false := by
    rintro (⟨hp, hc⟩ | hp)
    · exact ⟨hp.not_halted, State.waitIn_clear h hctl (by simp [hc])⟩
    · exact ⟨by simp [State.halted, hp], by simpa [hp] using h.waiting⟩
  have hend := s.settle_end
  generalize s.settle = t at hend
  cases hend
  case rest => exact h
  case finished hp _ | again hp _ _ _ =>
    obtain ⟨hs, hw⟩ := resuming hp
    exact h.move hs (by simp [State.halted]) rfl (by simp [hw]) rfl rfl rfl rfl
  case checked hp _ =>
    have hw : s.status.waitIn = false := by simpa [hp] using h.waiting
    exact h.move (by simp [State.halted, hp]) (by simp [State.halted]) rfl (by simp [hw]) rfl rfl rfl rfl
  case outOfRange _ hc => exact State.statusInv_raise _ (indexFault_cause_ne hc)
  case tooDeep => exact State.statusInv_raise _ (by simp)

end Sys2Proof.Machine
end

section
/-! PROOFS. The control stack stays a chain of strictly falling depths around the current operation. -/

namespace Sys2Proof.Machine

variable {s t u : State} {i : Instr}

/-- In EXEC the control stack has only its depths to keep in order. -/
theorem State.controlInv_of_exec (hph : t.phase = .exec) (falling : t.frames.Pairwise (fun f g => g.depth < f.depth))
    (bounded : ∀ f ∈ t.frames, t.params.allowsDepth f.depth = true)
    (inner : t.cur.isSome = true → t.params.allowsDepth t.depth = true ∧ ∀ f ∈ t.frames, f.depth < t.depth) :
    t.ControlInv :=
  ⟨falling, bounded, inner, by simp [hph], by simp [hph], by simp [hph]⟩

/-- A fault leaves no control stack (log entry 9). -/
theorem State.controlInv_raise (s : State) (r : FaultReport) : (s.raise r).ControlInv := by
  constructor <;> simp

/-- Every instruction that is current keeps the control stack in order: a Repeat's frame stands at its own depth, inside all
others, and an inner operation is one deeper still. -/
theorem State.ControlInv.exec (h : s.ControlInv) (hcur : s.cur = some i) (hx : exec i s = .next u) : u.ControlInv := by
  obtain ⟨hallow, hnest⟩ := h.inner (by simp [hcur])
  cases exec_end hx
  case pushed | popped | added | loaded | read | stored | emitted | passed =>
    exact State.controlInv_of_exec rfl h.falling h.bounded (by simp)
  case framed =>
    exact State.controlInv_of_exec rfl (List.pairwise_cons.2 ⟨hnest, h.falling⟩)
      (List.forall_mem_cons.2 ⟨hallow, h.bounded⟩) (by simp)
  case extended ha | fired _ ha =>
    exact State.controlInv_of_exec rfl h.falling h.bounded
      fun _ => ⟨ha, fun f hf => Nat.lt_succ_of_lt (hnest f hf)⟩
  case awaits => exact { h with waitsIn := fun _ => hcur, waitsOut := by simp, between := by simp }
  case offers => exact { h with waitsIn := by simp, waitsOut := fun _ => hcur, between := by simp }
  case pushRefused | accessRefused | loadRefused | storeRefused | inputEnded | tooDeep =>
    exact State.controlInv_raise _ _

/-- RESUME and CHECK keep the control stack in order: the frame that goes on is the innermost of those that stay. -/
theorem State.ControlInv.settle (h : s.ControlInv) : s.settle.ControlInv := by
  have hend := s.settle_end
  generalize s.settle = t at hend
  cases hend
  case rest => exact h
  case finished => constructor <;> simp
  case checked hp _ =>
    obtain ⟨hcur, hdep, hfr⟩ := h.between (.inr (.inl hp))
    exact { h with waitsIn := by simp, waitsOut := by simp, between := fun _ => ⟨hcur, hdep, hfr⟩ }
  case again used rest f _ hf _ ha =>
    have hfall := h.falling
    have hbound := h.bounded
    rw [hf] at hfall hbound
    obtain ⟨hinner, hrest⟩ := List.pairwise_cons.1 (List.pairwise_append.1 hfall).2.1
    obtain ⟨hallow, hbound⟩ := List.forall_mem_cons.1 (List.forall_mem_append.1 hbound).2
    exact State.controlInv_of_exec rfl (List.pairwise_cons.2 ⟨hinner, hrest⟩) (List.forall_mem_cons.2 ⟨hallow, hbound⟩)
      fun _ => ⟨ha, List.forall_mem_cons.2 ⟨Nat.lt_succ_self _, fun g hg => Nat.lt_succ_of_lt (hinner g hg)⟩⟩
  case outOfRange | tooDeep => exact State.controlInv_raise _ _

end Sys2Proof.Machine
end

section
/-! PROOFS. `pc` and `top` between instructions, and the invariant under a step. -/

namespace Sys2Proof.Machine

variable {s t u : State} {i : Instr}

/-- An instruction is under way, or was when its fault was raised. -/
abbrev State.begunInstr (s : State) : Prop := s.phase ≠ .fetch ∧ s.phase ≠ .done

theorem State.BoundaryInv.nine_le_width (h : s.BoundaryInv) : 9 ≤ s.width := h.params.1

/-- Within an instruction `pc` and the launch stay. -/
theorem State.BoundaryInv.within (h : s.BoundaryInv) (hs : s.begunInstr) (ht : t.begunInstr) (hl : s.sameLaunch t)
    (hpc : t.pc = s.pc) : t.BoundaryInv := by
  obtain ⟨hpar, hprog, -⟩ := hl
  have hlt := h.begun hs.1 hs.2
  exact {
    params := hpar ▸ h.params
    pcBound := by rw [hpc, hprog]; exact h.pcBound
    begun := fun _ _ => by rw [hpc, hprog]; exact hlt
    succeeded := fun e => absurd e ht.2
    topInRange := fun e => e.elim (absurd · ht.1) (absurd · ht.2) }

/-- The next instruction is fetched with `top` in range and `pc` at most `L`. -/
theorem State.BoundaryInv.advance (h : s.BoundaryInv) (hs : s.begunInstr) (hi : s.inStack s.top)
    (hl : s.sameLaunch t) (hpc : t.pc = s.pc + 1) (htop : t.top = s.top) (hph : t.phase = .fetch) : t.BoundaryInv := by
  obtain ⟨hpar, hprog, -⟩ := hl
  have hlt := h.begun hs.1 hs.2
  exact {
    params := hpar ▸ h.params
    pcBound := by rw [hpc, hprog]; exact hlt
    begun := fun e => absurd hph e
    succeeded := by simp [hph]
    topInRange := fun _ => by rw [State.inStack, htop, hpar]; exact hi }

theorem State.performing.begunInstr (h : s.performing) : s.begunInstr := by
  rcases h with h | h | h <;> simp [State.begunInstr, h]

/-- Every instruction that is current keeps the boundary conditions. -/
theorem State.BoundaryInv.exec (h : s.BoundaryInv) (hp : s.performing) (hx : exec i s = .next u) : u.BoundaryInv := by
  obtain ⟨hl, hpc⟩ := exec_launch hx
  have hu : u.begunInstr := by rcases exec_phase hx with hu | hu | hu | hu <;> simp [State.begunInstr, hu]
  exact h.within hp.begunInstr hu hl hpc

/-- RESUME and CHECK keep the boundary conditions. -/
theorem State.BoundaryInv.settle (h : s.BoundaryInv) : s.settle.BoundaryInv := by
  have resuming : (s.performing ∧ s.cur = none) ∨ s.phase = .resume → s.begunInstr := by
    rintro (⟨hp, _⟩ | hp)
    · exact hp.begunInstr
    · simp [State.begunInstr, hp]
  have hend := s.settle_end
  generalize s.settle = t at hend
  cases hend
  case rest => exact h
  case finished hp hi => exact h.advance (resuming hp) hi ⟨rfl, rfl, rfl⟩ rfl rfl rfl
  case checked hp hi => exact h.advance (by simp [State.begunInstr, hp]) hi ⟨rfl, rfl, rfl⟩ rfl rfl rfl
  case outOfRange hp _ =>
    have hs : s.begunInstr := by
      rcases hp with hp | hp | hp
      · exact resuming (.inl hp)
      · exact resuming (.inr hp)
      · simp [State.begunInstr, hp]
    exact h.within hs (by simp [State.begunInstr]) ⟨rfl, rfl, rfl⟩ rfl
  case again hp _ _ _ => exact h.within (resuming hp) (by simp [State.begunInstr]) ⟨rfl, rfl, rfl⟩ rfl
  case tooDeep hp _ _ _ => exact h.within (resuming hp) (by simp [State.begunInstr]) ⟨rfl, rfl, rfl⟩ rfl

/-! ### The whole invariant -/

/-- The current operation keeps the invariant. -/
theorem State.Inv.exec (h : s.Inv) (hp : s.performing) (hc : s.cur = some i) (hx : exec i s = .next u) : u.Inv where
  cells := h.cells.exec hx
  words := h.words.exec h.boundary.nine_le_width (h.words.current i hc) hx
  status := h.status.exec h.control hp hc hx
  control := h.control.exec hc hx
  boundary := h.boundary.exec hp hx

/-- RESUME and CHECK keep the invariant. -/
theorem State.Inv.settle (h : s.Inv) : s.settle.Inv where
  cells := h.cells.settle
  words := h.words.settle
  status := h.status.settle h.control
  control := h.control.settle
  boundary := h.boundary.settle

theorem State.fetchByte_none (s : State) : s.fetchByte = none ↔ s.program.length ≤ s.pc := List.getElem?_eq_none_iff

theorem State.lt_of_fetchByte {b : Byte} (h : s.fetchByte = some b) : s.pc < s.program.length :=
  (List.getElem?_eq_some_iff.1 h).1

/-- Depth 0, where a top-level instruction starts, is within every MAX_DEPTH (rule R82). -/
@[simp] theorem allowsDepth_zero (p : Config.Params) : p.allowsDepth 0 = true := by
  unfold Config.Params.allowsDepth
  split <;> simp

/-- A fetched instruction that becomes the current operation keeps the invariant. -/
theorem State.Inv.beginInstr (h : s.Inv) (hp : s.phase = .fetch) {b : Byte} (hb : s.fetchByte = some b) :
    (s.beginInstr (decodeByte b)).Inv where
  cells := h.cells.congr rfl rfl rfl
  words := { h.words with 
    current := by rintro _ ⟨⟩; exact decodeByte_isWord h.boundary.nine_le_width b
    frames := by simp }
  status := h.status.move (by simp [State.halted, hp]) (by simp [State.halted]) rfl (by simp [h.status.waiting, hp])
    rfl rfl rfl rfl
  control := by constructor <;> simp
  boundary := { h.boundary with
    begun := fun _ _ => State.lt_of_fetchByte hb
    succeeded := by simp
    topInRange := by simp }

/-- The end of the program keeps the invariant (rule R145). -/
theorem State.Inv.succeed (h : s.Inv) (hp : s.phase = .fetch) (hb : s.fetchByte = none) : s.succeed.Inv where
  cells := h.cells.congr rfl rfl rfl
  words := { h.words with }
  status := by
    have hrun : s.status.state ≠ .fault := by simp [h.status.fault, hp]
    have hcause := h.status.cause.2 hrun
    constructor <;> simp [h.status.waiting, hcause, hp, h.status.quiet hrun]
  control := by
    have hidle := h.control.between (.inl hp)
    exact { h.control with waitsIn := by simp, waitsOut := by simp, between := fun _ => hidle }
  boundary := { h.boundary with
    begun := by simp
    succeeded := fun _ => le_antisymm h.boundary.pcBound ((State.fetchByte_none s).1 hb)
    topInRange := fun _ => h.boundary.topInRange (.inl hp) }

/-- Reset gives a state that meets the invariant, for allowed parameters and an output log of words (rules R36, R180). -/
theorem State.inv_applyReset (hpar : s.params.wf) (hlog : ∀ x ∈ s.output.log, isWord s.width x) : s.applyReset.Inv where
  cells := by constructor <;> rfl
  words :=
    have h0 := isWord_zero s.width
    { top := h0, stack := by simp, memory := by simp, current := by simp, frames := by simp, reports := ⟨h0, h0⟩,
      output := hlog }
  status := by constructor <;> simp
  control := by constructor <;> simp
  boundary :=
    have ⟨_, hcap, _⟩ := hpar
    { params := hpar, pcBound := by simp, begun := by simp, succeeded := by simp,
      topInRange := fun _ => ⟨le_rfl, Int.natCast_pos.2 hcap⟩ }

/-- Settles O51: by the cases of a step, each of whose parts (reset, the end of the program, the start of an instruction, the
operation, RESUME and CHECK) keeps the invariant. -/
theorem stepKeepsTheInvariant : Obligations.StepKeepsTheInvariant := by
  intro s t h hstep
  rcases step_cases hstep with ⟨-, rfl⟩ | ⟨-, hp, hb, rfl⟩ | ⟨-, hp, b, u, hb, hu, rfl⟩ | ⟨-, hp, i, u, hc, hu, rfl⟩ |
    ⟨-, -, rfl⟩ | ⟨-, -, rfl⟩
  · exact State.inv_applyReset h.boundary.params h.words.output
  · exact h.succeed hp hb
  · exact ((h.beginInstr hp hb).exec (.inl rfl) rfl hu).settle
  · exact (h.exec hp hc hu).settle
  · exact h.settle
  · exact h

end Sys2Proof.Machine
end

section
/-! PROOFS. What a step performs, and what it then leaves alone: the launch, the canonical cell arrays, the cells and the memory
words of other instructions. -/

namespace Sys2Proof.Machine

variable {s t u : State} {i : Instr}

/-! ### A step by the operation it performs -/

theorem step_of_rst (hr : s.rst = true) : step s = .next s.applyReset := by simp [step, hr]

/-- A run that is over stays as it is (rule R151). -/
theorem step_of_halted (hr : s.rst = false) (hs : s.halted) : step s = .next s := by
  rcases hs with hp | hp <;> simp [step, hr, hp]

theorem State.performs_of_fetch (hr : s.rst = false) (hp : s.phase = .fetch) :
    s.performs = s.fetchByte.map decodeByte := by
  simp [State.performs, hr, hp]

theorem State.performs_of_performing (hr : s.rst = false) (hp : s.performing) : s.performs = s.cur := by
  rcases hp with hp | hp | hp <;> simp [State.performs, hr, hp]

theorem State.performs_of_idle (hp : s.phase = .resume ∨ s.phase = .check ∨ s.halted) : s.performs = none := by
  rcases hp with hp | hp | hp | hp <;> simp [State.performs, hp]

/-- What the FSM's own work keeps: `top`, both cell arrays, the ports and the launch. -/
abbrev State.sameData (s t : State) : Prop :=
  t.stk = s.stk ∧ t.mem = s.mem ∧ t.top = s.top ∧ s.samePorts t ∧ s.sameLaunch t

theorem State.sameData_refl (s : State) : s.sameData s := ⟨rfl, rfl, rfl, ⟨rfl, rfl⟩, rfl, rfl, rfl⟩

/-- A step that is not a reset performs no operation and moves no data, or it performs one, from a state with the same
data, and goes on through RESUME and CHECK. -/
theorem step_operation (hr : s.rst = false) (h : step s = .next t) :
    (s.performs = none ∧ s.sameData t) ∨
    (∃ i r u, s.performs = some i ∧ s.sameData r ∧ exec i r = .next u ∧ t = u.settle) := by
  rcases step_cases h with ⟨hr', -⟩ | ⟨-, hp, hb, rfl⟩ | ⟨-, hp, b, u, hb, hu, rfl⟩ | ⟨-, hp, i, u, hc, hu, rfl⟩ |
    ⟨-, hp, rfl⟩ | ⟨-, hp, rfl⟩
  · simp [hr] at hr'
  · exact .inl ⟨by simp [State.performs_of_fetch hr hp, hb], s.sameData_refl⟩
  · exact .inr ⟨_, s.beginInstr (decodeByte b), u, by simp [State.performs_of_fetch hr hp, hb], s.sameData_refl,
      hu, rfl⟩
  · exact .inr ⟨i, s, u, by rw [State.performs_of_performing hr hp, hc], s.sameData_refl, hu, rfl⟩
  · have hnone : s.performs = none := by
      rcases hp with ⟨hp, hc⟩ | hp | hp
      · rw [State.performs_of_performing hr hp, hc]
      · exact State.performs_of_idle (.inl hp)
      · exact State.performs_of_idle (.inr (.inl hp))
    exact .inl ⟨hnone, s.settle_keeps⟩
  · exact .inl ⟨State.performs_of_idle (.inr (.inr hp)), State.sameData_refl _⟩

/-! ### The launch and the cell arrays -/

theorem State.sameLaunch.trans (hst : s.sameLaunch t) (htu : t.sameLaunch u) : s.sameLaunch u := by
  obtain ⟨hpar, hprog, hrst⟩ := hst
  obtain ⟨hpar', hprog', hrst'⟩ := htu
  exact ⟨hpar'.trans hpar, hprog'.trans hprog, hrst'.trans hrst⟩

/-- An operation keeps the launch, and so do RESUME and CHECK. -/
theorem step_sameLaunch (hr : s.rst = false) (h : step s = .next t) : s.sameLaunch t := by
  rcases step_operation hr h with ⟨-, -, -, -, -, hl⟩ | ⟨i, r, u, -, ⟨-, -, -, -, hl⟩, hu, rfl⟩
  · exact hl
  · obtain ⟨-, -, -, -, hsettle⟩ := u.settle_keeps
    exact (hl.trans (exec_launch hu).1).trans hsettle

/-- Settles O30: a step that is not a reset keeps the launch, and a reset carries it and the ports over. -/
theorem launchIsNeverWritten : Obligations.LaunchIsNeverWritten := by
  intro s t h
  cases hr : s.rst
  · obtain ⟨hpar, hprog, -⟩ := step_sameLaunch hr h
    exact ⟨hprog, hpar, by simp⟩
  · rw [step_of_rst hr] at h
    cases h
    exact ⟨rfl, rfl, fun _ => ⟨rfl, rfl⟩⟩

/-- Settles O49: a reset empties both arrays; otherwise the operation and then RESUME and CHECK keep their invariant. -/
theorem stepKeepsTheCellArrays : Obligations.StepKeepsTheCellArrays := by
  intro s t hs h
  cases hr : s.rst
  · rcases step_operation hr h with ⟨-, hstk, hmem, -, -, hpar, -⟩ |
      ⟨i, r, u, -, ⟨hstk, hmem, -, -, hpar, -⟩, hu, rfl⟩
    · exact hs.congr hstk hmem hpar
    · exact ((hs.congr hstk hmem hpar).exec hu).settle
  · rw [step_of_rst hr] at h
    cases h
    constructor <;> rfl

/-- The reset state is the reset of itself: rule R8's reference parameters are allowed and nothing has been emitted. -/
theorem State.inv_reset : State.reset.Inv := State.inv_applyReset (s := State.reset) (by decide) (by decide)

/-- Settles O50: both clauses are the invariant after a reset with allowed parameters and a log of words. -/
theorem resetMeetsTheInvariant : Obligations.ResetMeetsTheInvariant :=
  ⟨State.inv_reset, fun _ => State.inv_applyReset⟩

/-! ### The writers of a cell -/

/-- Only an instruction that is a Store with `v != 0` changes a memory word, the one at `v`. -/
theorem exec_word_ne {a : Nat} (h : exec i s = .next u) (hne : u.word a ≠ s.word a) :
    ∃ v, i = .store v ∧ v ≠ 0 ∧ a = v.toNat := by
  cases exec_end h
  case stored v hv _ _ => exact ⟨v, rfl, hv, not_imp_comm.1 (Memory.read_write_other _ _ _ _) hne⟩
  all_goals exact absurd rfl hne

/-- Only a Push, at its new `top`, an Add or a Load, at `top`, changes a stack cell. -/
theorem exec_cell_ne {j : Nat} (h : exec i s = .next u) (hne : u.cell j ≠ s.cell j) :
    (∃ v, i = .push v ∧ j = (s.wrap (s.top + 1)).toNat) ∨ (∃ v, i = .add v ∧ j = s.top.toNat) ∨
      (∃ v, i = .load v ∧ j = s.top.toNat) := by
  have written : ∀ {k : Nat} {x : Int}, Memory.read (Memory.write s.stk k x) j ≠ s.cell j → j = k :=
    not_imp_comm.1 (Memory.read_write_other _ _ _ _)
  cases exec_end h
  case pushed v _ => exact .inl ⟨v, rfl, written hne⟩
  case added v _ => exact .inr (.inl ⟨v, rfl, written hne⟩)
  case loaded v _ _ _ => exact .inr (.inr ⟨v, rfl, written hne⟩)
  case read => exact .inr (.inr ⟨0, rfl, written hne⟩)
  all_goals exact absurd rfl hne

/-- Settles O26: a changed cell or word was changed by the operation performed, since RESUME and CHECK change none. -/
theorem onlyTheirInstructionsWriteCells : Obligations.OnlyTheirInstructionsWriteCells := by
  intro s t hr h
  rcases step_operation hr h with ⟨-, hstk, hmem, -⟩ |
    ⟨i, r, u, hperf, ⟨hrstk, hrmem, hrtop, -, hrpar, -⟩, hu, rfl⟩
  · exact ⟨fun a hne => absurd (by rw [State.word, hmem]) hne, fun j hne => absurd (by rw [State.cell, hstk]) hne⟩
  · obtain ⟨hstk, hmem, -⟩ := u.settle_keeps
    rw [hperf]
    refine ⟨fun a hne => ?_, fun j hne => ?_⟩
    · rw [State.word, State.word, hmem, ← hrmem] at hne
      simpa using exec_word_ne hu hne
    · rw [State.cell, State.cell, hstk, ← hrstk] at hne
      simpa [State.wrap, State.width, hrtop, hrpar] using exec_cell_ne hu hne

end Sys2Proof.Machine
end

section
/-! PROOFS. What each of the eight operations does to the stack pointer (rule R23). -/

namespace Sys2Proof.Machine

/-- An index that the check refuses is out of range (rule R41). -/
theorem State.not_inStack_of_indexFault {s : State} {j : Int} {c : Cause} (h : indexFault s.params.stackCap j = some c) :
    ¬ s.inStack j := fun hj => by
  rw [(indexFault_none _ _).2 hj] at h
  cases h

/-- Settles O29: by the ways an operation can end. -/
theorem topMovesByOpcode : Obligations.TopMovesByOpcode := by
  intro i s t h
  cases exec_end h
  case pushed | pushRefused | popped | added | loaded | read | awaits | loadRefused | inputEnded => rfl
  case framed hi | extended hi _ | fired hi _ _ | passed hi _ => exact .inl ⟨hi, rfl⟩
  case stored | emitted => exact .inl rfl
  case offers => exact .inr ⟨rfl, .inr rfl⟩
  case storeRefused => exact .inr ⟨rfl, .inl rfl⟩
  case accessRefused c hop hc =>
    have hout := State.not_inStack_of_indexFault hc
    obtain ⟨hpush, hpop⟩ := hop
    cases i with
    | push v => exact absurd rfl hpush
    | pop v => exact absurd rfl hpop
    | add v | load v => rfl
    | rep v | extend v | conditional v => exact .inr ⟨hout, rfl, rfl⟩
    | store v => exact .inr ⟨rfl, .inl rfl⟩
  case tooDeep hop hi _ =>
    cases i with
    | extend v | conditional v => exact .inl ⟨hi, rfl⟩
    | push v | pop v | add v | rep v | load v | store v => simp [Instr.opcode] at hop

end Sys2Proof.Machine
end

section
/-! PROOFS. The layout of STATUS (rule R29): its fields cut out of the word, its zero bits, and its codes. -/

namespace Sys2Proof.Machine

/-- A run whose STATE has left RUNNING is over. -/
theorem State.StatusInv.halted_of_not_running {s : State} (h : s.StatusInv) (hrun : s.status.state ≠ .running) :
    s.halted := by
  cases hst : s.status.state with
  | running => exact absurd hst hrun
  | success => exact .inl (h.success.1 hst)
  | fault => exact .inr (h.fault.1 hst)

theorem RunState.code_ne_reserved (st : RunState) : st.code ≠ 3#2 := by cases st <;> decide
theorem RunState.code_eq_zero (st : RunState) : st.code = 0#2 ↔ st = .running := by cases st <;> decide
theorem RunState.code_eq_two (st : RunState) : st.code = 2#2 ↔ st = .fault := by cases st <;> decide
theorem Cause.code_le_five (c : Cause) : c.code.toNat ≤ 5 := by cases c <;> decide
theorem Cause.code_eq_zero (c : Cause) : c.code = 0#3 ↔ c = .none := by cases c <;> decide

/-- Bits 31:6 are zero. -/
theorem Status.word_lt (st : Status) : st.word.toNat < 64 := by
  have hstate := st.state.code.isLt
  have hwait := (BitVec.ofBool st.waitIn).isLt
  have hcause := st.cause.code.isLt
  simp only [Status.word, BitVec.toNat_append]
  rw [← Nat.shiftLeft_add_eq_or_of_lt hstate, ← Nat.shiftLeft_add_eq_or_of_lt hwait,
    ← Nat.shiftLeft_add_eq_or_of_lt hcause]
  simp only [Nat.shiftLeft_eq, BitVec.toNat_ofNat]
  omega

@[simp] theorem Status.word_state (st : Status) : st.word.extractLsb' 0 2 = st.state.code := by
  rw [Status.word, BitVec.extractLsb'_append_eq_right]

@[simp] theorem Status.word_waitIn (st : Status) : st.word.getLsbD 2 = st.waitIn := by
  simp only [Status.word, BitVec.getLsbD_append]
  simp

@[simp] theorem Status.word_cause (st : Status) : st.word.extractLsb' 3 3 = st.cause.code := by
  rw [Status.word, BitVec.extractLsb'_append_eq_of_le (by decide), BitVec.extractLsb'_append_eq_of_le (by decide)]
  exact BitVec.extractLsb'_append_eq_right

/-- Settles O45: the fields are cut out of the word; what a step does to them is the invariant on STATUS, which every step
keeps, and that a run whose STATE is not RUNNING is over. -/
theorem statusWordHasItsLayout : Obligations.StatusWordHasItsLayout := by
  refine ⟨fun st => ⟨st.word_state, st.word_waitIn, st.word_cause, st.word_lt, ?_, st.cause.code_le_five⟩,
    ⟨rfl, rfl, rfl, rfl, rfl, rfl, rfl, rfl, rfl⟩, fun s t hs h => ?_⟩
  · rw [st.word_state]
    exact st.state.code_ne_reserved
  · have hstatus := (stepKeepsTheInvariant s t hs h).status
    simp only [Status.word_state, Status.word_waitIn, Status.word_cause, ne_eq, RunState.code_eq_zero,
      RunState.code_eq_two, Cause.code_eq_zero]
    refine ⟨hstatus.cause, hstatus.waiting, fun hr hrun => ?_⟩
    rw [step_of_halted hr (hs.status.halted_of_not_running hrun)] at h
    cases h
    rfl

end Sys2Proof.Machine
end

section
/-! PROOFS. The checks on stack indexes and memory addresses (rules R41 to R46): each access as the check decides it. -/

namespace Sys2Proof.Machine

variable {s : State} {j a : Int}

/-- A stack index out of range is refused with its cause (rules R42, R43). -/
theorem indexFault_of_not_inStack (h : ¬ s.inStack j) : indexFault s.params.stackCap j = some (stackCause j) := by
  rcases indexFault_cases s.params.stackCap j with ⟨hc, hneg⟩ | ⟨hc, -, hpos⟩ | ⟨-, hin⟩
  · rw [hc, stackCause, if_pos hneg]
  · rw [hc, stackCause, if_neg (not_lt.2 hpos)]
  · exact absurd hin h

theorem State.stackRead_refused (k : Nat) (h : ¬ s.inStack j) :
    s.stackRead k j = .error { cause := stackCause j, index := j, depth := k } := by
  rw [State.stackRead, indexFault_of_not_inStack h]

theorem State.stackWrite_refused (k : Nat) (x : Int) (h : ¬ s.inStack j) :
    s.stackWrite k j x = .error { cause := stackCause j, index := j, depth := k } := by
  rw [State.stackWrite, indexFault_of_not_inStack h]

theorem State.memRead_refused (k : Nat) (h : ¬ s.inMemory a) :
    s.memRead k a = .error { cause := .memoryOutOfRange, addr := a, depth := k } :=
  (s.memRead_cases k a).elim And.right fun ⟨hin, _⟩ => absurd hin h

theorem State.memRead_ok (k : Nat) (h : s.inMemory a) : s.memRead k a = .ok (s.word a.toNat) :=
  (s.memRead_cases k a).elim (fun ⟨hout, _⟩ => absurd h hout) And.right

theorem State.memWrite_refused (k : Nat) (x : Int) (h : ¬ s.inMemory a) :
    s.memWrite k a x = .error { cause := .memoryOutOfRange, addr := a, depth := k } :=
  (s.memWrite_cases k a x).elim And.right fun ⟨hin, _⟩ => absurd hin h

theorem State.memWrite_ok (k : Nat) (x : Int) (h : s.inMemory a) :
    s.memWrite k a x = .ok { s with mem := Memory.write s.mem a.toNat x } :=
  (s.memWrite_cases k a x).elim (fun ⟨hout, _⟩ => absurd h hout) And.right

/-- Settles O11: below 0 and from STACK_CAP on the index is out of range, each with its cause; in range the access is a read or
a write of the cell array. -/
theorem stackAccessesAreChecked : Obligations.StackAccessesAreChecked := by
  intro s k i x
  refine ⟨fun hneg => ?_, fun hcap hpos => ?_, fun hi => ⟨State.stackRead_ok k hi, fun hwf => ?_⟩⟩
  · have hout : ¬ s.inStack i := fun hi => not_lt.2 hi.1 hneg
    have hc : stackCause i = .stackUnderflow := if_pos hneg
    exact hc ▸ ⟨State.stackRead_refused k hout, State.stackWrite_refused k x hout⟩
  · have hout : ¬ s.inStack i := fun hi => not_lt.2 hcap hi.2
    have hc : stackCause i = .stackOverflow := if_neg (not_lt.2 hpos)
    exact hc ▸ ⟨State.stackRead_refused k hout, State.stackWrite_refused k x hout⟩
  · exact ⟨_, State.stackWrite_ok k x hi, Memory.read_write_same _ _ _ hwf, fun j => Memory.read_write_other _ _ _ _, rfl⟩

/-- Settles O12: an address below 0 or from MEM_CAP on is out of range, with no reduction before the check; in range the access
is a read or a write of the cell array. -/
theorem memoryAddressesAreChecked : Obligations.MemoryAddressesAreChecked := by
  intro s k a x
  refine ⟨fun h => ?_, fun ha => ⟨State.memRead_ok k ha, fun hwf => ?_⟩⟩
  · have hout : ¬ s.inMemory a := fun ⟨hlow, hhigh⟩ => h.elim (not_lt.2 hlow) (not_le.2 hhigh)
    exact ⟨State.memRead_refused k hout, State.memWrite_refused k x hout⟩
  · exact ⟨_, State.memWrite_ok k x ha, Memory.read_write_same _ _ _ hwf, fun b => Memory.read_write_other _ _ _ _, rfl⟩

end Sys2Proof.Machine
end

section
/-! PROOFS. The memory paths of Load and Store (rules R48, R49, R120, R121), with what an operation that completes and one that
faults leave unchanged. -/

namespace Sys2Proof.Machine

variable {s : State} {i : Instr} {v : Int}

/-- Taking a fault is a fault with the report's information (rules R163, R164). -/
theorem State.faultedFrom_raise (s : State) (r : FaultReport) :
    s.faultedFrom (s.raise r) r.cause r.index r.addr r.depth :=
  ⟨rfl, rfl, rfl, rfl, rfl, rfl, rfl, fun _ => rfl, fun _ => rfl, rfl, rfl, rfl⟩

/-- An operation that wrote at most `top`, the cell arrays and the ports has completed. -/
theorem State.completedFrom_write (s : State) (top : Int) (stk mem : Memory) (input : InputPort) (output : OutputPort) :
    s.completedFrom { s with
      top := top, stk := stk, mem := mem, input := input, output := output, phase := .exec, cur := none } :=
  ⟨rfl, rfl, ⟨rfl, rfl, rfl⟩, ⟨rfl, rfl, rfl, rfl, rfl⟩, rfl, rfl, rfl⟩

/-- With `top` out of range every operation but Push and Pop raises the stack fault. -/
theorem exec_of_top_out (hop : i.opcode ≠ .push ∧ i.opcode ≠ .pop) (h : ¬ s.inStack s.top) :
    exec i s = .next (s.raise { cause := stackCause s.top, index := s.top, depth := s.depth }) := by
  obtain ⟨u, hu⟩ := exec_next i s
  cases exec_end hu
  case accessRefused c _ hc =>
    rw [indexFault_of_not_inStack h] at hc
    cases hc
    exact hu
  case pushed | pushRefused => exact absurd rfl hop.1
  case popped => exact absurd rfl hop.2
  all_goals contradiction

/-- That stack fault changes neither `top` nor a port. -/
theorem exec_faults_of_top_out (hop : i.opcode ≠ .push ∧ i.opcode ≠ .pop) (h : ¬ s.inStack s.top) :
    ∃ t, exec i s = .next t ∧ t.top = s.top ∧ s.samePorts t ∧ s.faultedFrom t (stackCause s.top) s.top 0 s.depth :=
  ⟨_, exec_of_top_out hop h, rfl, ⟨rfl, rfl⟩, s.faultedFrom_raise _⟩

/-- The memory path of Load in range: the read of `top`, the read of the memory word, and the write. -/
theorem exec_load_of_inMemory (hv : v ≠ 0) (hi : s.inStack s.top) (hm : s.inMemory (loadAddress s.width v s.topCell)) :
    exec (.load v) s = .next { s with
      stk := Memory.write s.stk s.top.toNat (s.word (loadAddress s.width v s.topCell).toNat), phase := .exec, cur := none } := by
  rw [exec_load_memory hv, loadMemory]
  simp only [State.stackRead_ok _ hi, State.memRead_ok _ hm, State.stackWrite_ok _ _ hi]
  rfl

theorem exec_load_of_not_inMemory (hv : v ≠ 0) (hi : s.inStack s.top)
    (hm : ¬ s.inMemory (loadAddress s.width v s.topCell)) :
    exec (.load v) s = .next
      (s.raise { cause := .memoryOutOfRange, addr := loadAddress s.width v s.topCell, depth := s.depth }) := by
  rw [exec_load_memory hv, loadMemory]
  simp only [State.stackRead_ok _ hi, State.memRead_refused _ hm]
  rfl

/-- The memory path of Store in range: the read of `top`, the write of the memory word, and the pop. -/
theorem exec_store_of_inMemory (hv : v ≠ 0) (hi : s.inStack s.top) (hm : s.inMemory (storeAddress v)) :
    exec (.store v) s = .next { s with
      top := s.wrap (s.top - 1), mem := Memory.write s.mem (storeAddress v).toNat s.topCell, phase := .exec, cur := none } := by
  rw [exec_store, storeUnit]
  simp only [State.stackRead_ok _ hi, if_pos hv, State.memWrite_ok _ _ hm]
  rfl

theorem exec_store_of_not_inMemory (hv : v ≠ 0) (hi : s.inStack s.top) (hm : ¬ s.inMemory (storeAddress v)) :
    exec (.store v) s = .next
      (s.raise { cause := .memoryOutOfRange, addr := storeAddress v, depth := s.depth }) := by
  rw [exec_store, storeUnit]
  simp only [State.stackRead_ok _ hi, if_pos hv, State.memWrite_refused _ _ hm]
  rfl

/-- Settles O20: in range the cell at `top` is written once, and either fault is raised on the state as it was. -/
theorem loadReadsTheMemoryWord : Obligations.LoadReadsTheMemoryWord := by
  intro s v h hv
  refine ⟨fun hi hm => ?_, fun hi hm => ?_, fun hi => ?_⟩
  · exact ⟨_, exec_load_of_inMemory hv hi hm, rfl, Memory.read_write_same _ _ _ h.stackCanonical,
      fun j => Memory.read_write_other _ _ _ _, fun _ => rfl, ⟨rfl, rfl⟩, s.completedFrom_write _ _ _ _ _⟩
  · exact ⟨_, exec_load_of_not_inMemory hv hi hm, rfl, ⟨rfl, rfl⟩, s.faultedFrom_raise _⟩
  · exact exec_faults_of_top_out (i := .load v) (by simp [Instr.opcode]) hi

/-- Settles O23: in range the word at `v` is written once and `top` lowered, and either fault is raised on the state as it
was. -/
theorem storeWritesTheMemoryWord : Obligations.StoreWritesTheMemoryWord := by
  intro s v h hv
  refine ⟨fun hi hm => ?_, fun hi hm => ?_, fun hi => ?_⟩
  · exact ⟨_, exec_store_of_inMemory hv hi hm, rfl, rfl, Memory.read_write_same _ _ _ h.memoryCanonical,
      fun a => Memory.read_write_other _ _ _ _, fun _ => rfl, ⟨rfl, rfl⟩, s.completedFrom_write _ _ _ _ _⟩
  · exact ⟨_, exec_store_of_not_inMemory hv hi hm, rfl, ⟨rfl, rfl⟩, s.faultedFrom_raise _⟩
  · exact exec_faults_of_top_out (i := .store v) (by simp [Instr.opcode]) hi

end Sys2Proof.Machine
end

section
/-! PROOFS. The encoding (rules R61 to R68): the two fields of a byte and of a cell as remainder and quotient by 8, the encoder as
the inverse of the decoder, and the statements about both. -/

namespace Sys2Proof

/-! ### Opcodes and their numbers -/

/-- The three opcode bits are the opcode's number (rule R63). -/
@[simp] theorem Opcode.num_ofBits (n : BitVec 3) : (Opcode.ofBits n).num = n.toNat := by
  revert n
  decide

/-- An opcode's number read back as three bits. -/
theorem Opcode.ofBits_num (op : Opcode) : Opcode.ofBits (BitVec.ofNat 3 op.num) = op := by cases op <;> rfl

/-- An opcode is its number. -/
theorem Opcode.num_inj {a b : Opcode} : a.num = b.num ↔ a = b :=
  ⟨fun h => by rw [← a.ofBits_num, h, b.ofBits_num], congrArg Opcode.num⟩

@[simp] theorem Opcode.instr_opcode (op : Opcode) (v : Int) : (op.instr v).opcode = op := by cases op <;> rfl

/-- An instruction is its opcode with its value. -/
theorem Instr.opcode_instr_value (i : Instr) : i.opcode.instr i.value = i := by cases i <;> rfl

/-! ### The fields of a byte -/

theorem decodeFields_num (b : Byte) : (decodeFields b).1.num = b.toNat % 8 := by
  rw [decodeFields, Opcode.num_ofBits, BitVec.extractLsb'_toNat, Nat.shiftRight_zero]

theorem decodeFields_imm (b : Byte) : (decodeFields b).2.toNat = b.toNat / 8 := by
  have h := b.isLt
  rw [decodeFields, BitVec.extractLsb'_toNat, Nat.shiftRight_eq_div_pow]
  omega

/-- The fields of a byte put together from an immediate and three opcode bits. -/
theorem decodeFields_append (imm : BitVec 5) (n : BitVec 3) : decodeFields (imm ++ n) = (Opcode.ofBits n, imm) :=
  Prod.ext (congrArg Opcode.ofBits BitVec.extractLsb'_append_eq_right) BitVec.extractLsb'_append_eq_left

theorem decodeByte_append (imm : BitVec 5) (n : BitVec 3) :
    decodeByte (imm ++ n) = (Opcode.ofBits n).instr imm.toNat := by
  rw [decodeByte, decodeFields_append]

@[simp] theorem decodeByte_opcode (b : Byte) : (decodeByte b).opcode = (decodeFields b).1 := Opcode.instr_opcode _ _

@[simp] theorem decodeByte_value (b : Byte) : (decodeByte b).value = (decodeFields b).2.toNat := Opcode.instr_value _ _

/-! ### The encoder -/

/-- The encoder's range test (rule R66). -/
theorem encodeFields_refused {op imm : Int} (h : ¬ (0 ≤ op ∧ op ≤ 7 ∧ 0 ≤ imm ∧ imm ≤ 31)) :
    encodeFields op imm = .error .immediateOutOfRange :=
  if_pos (by omega)

/-- The encoder's answer on fields that fit (rule R66). -/
theorem encodeFields_ok {op imm : Int} (h : 0 ≤ op ∧ op ≤ 7 ∧ 0 ≤ imm ∧ imm ≤ 31) :
    ∃ b : Byte, encodeFields op imm = .ok b ∧ (b.toNat : Int) = imm * 8 + op := by
  refine ⟨_, if_neg (by omega), ?_⟩
  rw [BitVec.toNat_ofInt]
  omega

/-- The encoder answers a byte exactly for the two fields that the decoder cuts out of it (rule R67). -/
theorem encodeFields_eq_ok_iff {op imm : Int} {b : Byte} :
    encodeFields op imm = .ok b ↔ (decodeFields b).1.num = op ∧ (decodeFields b).2.toNat = imm := by
  have hb := b.isLt
  rw [decodeFields_num, decodeFields_imm]
  by_cases h : 0 ≤ op ∧ op ≤ 7 ∧ 0 ≤ imm ∧ imm ≤ 31
  · obtain ⟨c, hc, hn⟩ := encodeFields_ok h
    rw [hc, Except.ok.injEq, ← BitVec.toNat_inj]
    omega
  · rw [encodeFields_refused h]
    simp only [reduceCtorEq, false_iff]
    omega

/-! ### The fields of a cell -/

theorem decodeCell_num (d : Int) : ((decodeCell d).1.num : Int) = d % 8 := by
  rw [decodeCell, Opcode.num_ofBits, BitVec.toNat_ofInt]
  omega

/-- A cell is its constant times 8 plus its opcode's number (rules R64, R66). -/
theorem decodeCell_compose (d : Int) : (decodeCell d).2 * 8 + (decodeCell d).1.num = d := by
  rw [decodeCell_num, decodeCell_snd]
  omega

/-- The fields of an integer put together from a constant and an opcode's number. -/
theorem decodeCell_mul_add (op : Opcode) (k : Int) : decodeCell (k * 8 + op.num) = (op, k) := by
  have h7 := Laws.Rebuild.num_le_seven op
  refine Prod.ext (Opcode.num_inj.1 ?_) ?_
  · have := decodeCell_num (k * 8 + op.num)
    change _ = op.num
    omega
  · rw [decodeCell_snd]
    omega

/-- The constants of the `W`-bit cells are the words of `W - 3` bits (rules R64, R66). -/
theorem isWord_mul_add_iff {w : Nat} (h : 4 ≤ w) (op : Opcode) (k : Int) :
    isWord w (k * 8 + op.num) ↔ -2 ^ (w - 4) ≤ k ∧ k ≤ 2 ^ (w - 4) - 1 := by
  have h7 := Laws.Rebuild.num_le_seven op
  have h8 : (2 : Int) ^ (w - 1) = 2 ^ (w - 4) * 8 := by rw [show w - 1 = w - 4 + 3 by omega, pow_add]; norm_num
  unfold isWord
  omega

/-- A descriptor whose constant fits is not reduced (rule R66). -/
theorem descriptor_eq {w : Nat} {op : Opcode} {k : Int} (h : 1 ≤ w) (hd : isWord w (k * 8 + op.num)) :
    descriptor w op k = k * 8 + op.num :=
  wordOf_eq h hd

/-- A cell is the descriptor of what it decodes to (rules R66, R68). -/
theorem descriptor_decodeCell {w : Nat} {d : Int} (h : 1 ≤ w) (hd : isWord w d) :
    descriptor w (decodeCell d).1 (decodeCell d).2 = d := by
  rw [descriptor, decodeCell_compose, wordOf_eq h hd]

/-- The constant of a `W`-bit cell lies in the range of `W - 3` bits (rule R64). -/
theorem decodeCell_range {w : Nat} {d : Int} (h : 4 ≤ w) (hd : isWord w d) :
    -2 ^ (w - 4) ≤ (decodeCell d).2 ∧ (decodeCell d).2 ≤ 2 ^ (w - 4) - 1 :=
  (isWord_mul_add_iff h (decodeCell d).1 _).1 (by rwa [decodeCell_compose])

/-- The bits of a cell's constant are the cell's bits shifted right arithmetically (rule R64). -/
theorem ofInt_decodeCell {w : Nat} {d : Int} (h : 1 ≤ w) (hd : isWord w d) :
    BitVec.ofInt w (decodeCell d).2 = (BitVec.ofInt w d).sshiftRight 3 := by
  apply BitVec.eq_of_toInt_eq
  rw [BitVec.toInt_sshiftRight, toInt_ofInt_of_isWord h hd, toInt_ofInt_of_isWord h (decodeCell_isWord hd), decodeCell]

/-- The low three bits of an integer do not depend on the width it is cut to (rule R64). -/
theorem extractLsb'_ofInt_three {w : Nat} (h : 3 ≤ w) (d : Int) :
    ((BitVec.ofInt w d).extractLsb' 0 3).toNat = (d % 8).toNat := by
  have hdvd : (8 : Int) ∣ 2 ^ w := pow_dvd_pow 2 h
  have hmod : d % 2 ^ w % 8 = d % 8 := Int.emod_emod_of_dvd d hdvd
  have hpos : 0 ≤ d % 2 ^ w := Int.emod_nonneg d (by positivity)
  rw [BitVec.extractLsb'_toNat, Nat.shiftRight_zero, BitVec.toNat_ofInt]
  push_cast
  omega

/-! ### The statements -/

/-- Settles O4: all three round trips follow from the one fact that the encoder answers a byte exactly for its own two fields. -/
theorem encodeThenDecodeIsTheIdentity : Obligations.EncodeThenDecodeIsTheIdentity := by
  refine ⟨fun i hi => ?_, fun op imm hop himm => ?_, fun b => ?_⟩
  · have h7 := Laws.Rebuild.num_le_seven i.opcode
    obtain ⟨b, hb, -⟩ := encodeFields_ok (op := i.opcode.num) (imm := i.value) (by omega)
    obtain ⟨hnum, hval⟩ := encodeFields_eq_ok_iff.1 hb
    refine ⟨b, hb, ?_⟩
    rw [decodeByte, hval, Opcode.num_inj.1 (Int.ofNat_inj.1 hnum), i.opcode_instr_value]
  · obtain ⟨b, hb, -⟩ := encodeFields_ok (op := op) (imm := imm) (by omega)
    obtain ⟨hnum, hval⟩ := encodeFields_eq_ok_iff.1 hb
    exact ⟨b, hb, Int.ofNat_inj.1 hnum, Int.ofNat_inj.1 hval⟩
  · rw [encode, encodeFields_eq_ok_iff, decodeByte_opcode, decodeByte_value]
    exact ⟨rfl, rfl⟩

/-- Settles O5: a descriptor whose constant fits is a cell, so `word` leaves it as it is and its two fields come apart again. -/
theorem encoderAcceptsExactlyTheFieldsThatFit : Obligations.EncoderAcceptsExactlyTheFieldsThatFit := by
  refine ⟨fun op imm => encodeFields_ok, fun op imm => encodeFields_refused, fun w op k hw hlo hhi => ?_⟩
  have hd : isWord w (k * 8 + op.num) := (isWord_mul_add_iff (by omega) op k).2 ⟨hlo, hhi⟩
  rw [descriptor_eq (by omega) hd]
  exact ⟨hd, decodeCell_mul_add op k⟩

/-- Settles O6: both readings of the opcode are the remainder by 8, and the shift of the signed reading is that of the bits. -/
theorem cellDecodeKeepsTheSign : Obligations.CellDecodeKeepsTheSign := by
  intro w d hw hd
  refine ⟨?_, ofInt_decodeCell (by omega) hd, decodeCell_range (by omega) hd⟩
  have := decodeCell_num d
  rw [extractLsb'_ofInt_three (by omega)]
  omega

/-- Settles O1: the fields are remainder and quotient by 8, and a 5-bit immediate is a word of every width. -/
theorem byteDecodeSplitsTheByte : Obligations.ByteDecodeSplitsTheByte := by
  intro b
  have hlt := (decodeFields b).2.isLt
  refine ⟨decodeFields_num b, decodeFields_imm b, decodeByte_opcode b, decodeByte_value b, ?_, ?_, fun w hw =>
    ⟨decodeByte_isWord hw b, ?_⟩⟩
  · rw [decodeByte_value]
    omega
  · rw [decodeByte_value]
    omega
  · rw [decodeByte_value, BitVec.ofInt_natCast, BitVec.ofNat_toNat]

/-- Settles O2: the byte's fields come apart again, and each of the eight opcode numbers is read from the table. -/
theorem opcodeNumbersSelectTheEightInstructions : Obligations.OpcodeNumbersSelectTheEightInstructions := by
  intro imm
  simp only [decodeByte_append]
  exact ⟨rfl, rfl, rfl, rfl, rfl, rfl, rfl, rfl⟩

/-- Settles O7: in both modes the opcode's number is the remainder by 8 and the constant the quotient. -/
theorem cellDecodeAgreesWithByteDecode : Obligations.CellDecodeAgreesWithByteDecode := by
  intro b
  refine Prod.ext (Opcode.num_inj.1 ?_) ?_
  · have := decodeCell_num b.toNat
    rw [decodeFields_num]
    omega
  · rw [decodeCell_snd, decodeFields_imm]
    rfl

/-- Settles O8: a byte's instruction is built from its fields, and a cell is the descriptor of its own. -/
theorem noEncodingTraps : Obligations.NoEncodingTraps :=
  ⟨fun b _ => ⟨(decodeFields b).1, (decodeFields b).2, rfl, rfl⟩, fun _ _ hw hd => descriptor_decodeCell (by omega) hd⟩

end Sys2Proof
end

section
/-! PROOFS. Repeat (rules R85, R100, R148): its descriptor becomes a frame, and the RESUME loop over frames that are used up. -/

namespace Sys2Proof.Machine

variable {s t u : State}

/-! ### Beginning a Repeat -/

/-- A Repeat with `top` in range leaves the frame its descriptor names. -/
theorem exec_rep_of_inStack (v : Int) (hi : s.inStack s.top) :
    exec (.rep v) s = .next { s with
      top := s.wrap (s.top - 1), phase := .exec, cur := none,
      frames := { depth := s.depth, op := (decodeCell s.topCell).1, value := v,
                  remaining := (decodeCell s.topCell).2 } :: s.frames } := by
  rcases execRepeat_cases v s with ⟨c, hc, -⟩ | ⟨-, h⟩
  · exact absurd hi (State.not_inStack_of_indexFault hc)
  · exact h

/-- Settles O17: in range the frame is pushed over the popped descriptor; out of range it is the fault of every access to `top`. -/
theorem repeatPopsItsDescriptorIntoAFrame : Obligations.RepeatPopsItsDescriptorIntoAFrame := by
  intro s v
  refine ⟨fun hi => ?_, fun hout => ?_⟩
  · exact ⟨_, exec_rep_of_inStack v hi, rfl, rfl, rfl, rfl, rfl, rfl, fun _ => rfl, fun _ => rfl, ⟨rfl, rfl⟩,
      ⟨rfl, rfl, rfl, rfl, rfl⟩, rfl, rfl, rfl⟩
  · exact exec_faults_of_top_out (i := .rep v) (by simp [Instr.opcode]) hout

/-! ### The RESUME loop -/

theorem State.resumeFrames_nil (s : State) : s.resumeFrames [] = s.leaveFrames.topLevelCheck := rfl

theorem State.resumeFrames_cons_of_pos {f : Frame} (hf : 0 < f.remaining) (rest : List Frame) :
    s.resumeFrames (f :: rest) = s.iterate f rest := by
  rw [State.resumeFrames, if_pos hf]

theorem State.resumeFrames_cons_of_le {f : Frame} (hf : f.remaining ≤ 0) (rest : List Frame) :
    s.resumeFrames (f :: rest) = s.resumeFrames rest := by
  rw [State.resumeFrames, if_neg (not_lt.2 hf)]

/-- The loop drops the frames whose count is used up. -/
theorem State.resumeFrames_append_of_le {used : List Frame} (hused : ∀ g ∈ used, g.remaining ≤ 0) (fs : List Frame) :
    s.resumeFrames (used ++ fs) = s.resumeFrames fs := by
  induction used with
  | nil => rfl
  | cons g used ih =>
    obtain ⟨hg, hused⟩ := List.forall_mem_cons.1 hused
    rw [List.cons_append, State.resumeFrames_cons_of_le hg, ih hused]

/-- One more iteration, at a depth that may be entered. -/
theorem State.iterate_of_allowsDepth {f : Frame} (ha : s.params.allowsDepth (f.depth + 1) = true) (rest : List Frame) :
    s.iterate f rest = { s with
      phase := .exec, cur := some (f.op.instr f.value), depth := f.depth + 1,
      frames := { f with remaining := f.remaining - 1 } :: rest } := by
  rcases s.iterate_cases f rest with ⟨-, h⟩ | ⟨hno, -⟩
  · exact h
  · exact absurd ha (by simp [hno])

/-- The end of an operation goes on to the RESUME loop. -/
theorem State.settle_of_completed (hp : s.phase = .exec) (hc : s.cur = none) :
    s.settle = s.resumeFrames s.frames := by
  simp [State.settle, hp, hc]

/-- Settles O36: the operation's end is followed by the RESUME loop, which drops the used frames and dispatches without a look
at `top`. -/
theorem nestedOperationsAreNotChecked : Obligations.NestedOperationsAreNotChecked := by
  intro s u i used f rest hr hp hcur hx huphase hucur hframes hused hf ha
  obtain ⟨⟨hpar, hprog, hrst⟩, hpc⟩ := exec_launch hx
  have hsettle : u.settle = { u with
      phase := .exec, cur := some (f.op.instr f.value), depth := f.depth + 1,
      frames := { f with remaining := f.remaining - 1 } :: rest } := by
    rw [State.settle_of_completed huphase hucur, hframes, State.resumeFrames_append_of_le hused,
      State.resumeFrames_cons_of_pos hf, State.iterate_of_allowsDepth (hpar ▸ ha)]
  refine ⟨_, hsettle ▸ step_of_cur hr hp hcur hx, ?_⟩
  exact ⟨rfl, rfl, rfl, rfl, rfl, hpc, fun _ => rfl, fun _ => rfl, ⟨rfl, rfl⟩, ⟨rfl, rfl, rfl, rfl, rfl⟩,
    hpar, hprog, hrst⟩

/-! ### A Repeat without iterations -/

/-- A stack index in range is a word (rule R8: STACK_CAP is below 2^(W-1)). -/
theorem State.isWord_of_inStack (hpar : s.params.wf) {j : Int} (hj : s.inStack j) : isWord s.width j := by
  obtain ⟨-, -, hcap, -⟩ := hpar
  obtain ⟨hlow, hhigh⟩ := hj
  have hcap' : (s.params.stackCap : Int) < 2 ^ (s.width - 1) := by exact_mod_cast lt_of_lt_of_le hcap (Nat.sub_le _ _)
  exact ⟨by omega, by omega⟩

/-- A stack index in range is not reduced. -/
theorem State.wrap_of_inStack (hpar : s.params.wf) {j : Int} (hj : s.inStack j) : s.wrap j = j :=
  wordOf_eq (le_trans (by decide) hpar.1) (State.isWord_of_inStack hpar hj)

/-- The top-level check in range finishes the instruction (rules R143, R144). -/
theorem State.topLevelCheck_of_inStack (hi : s.inStack s.top) :
    s.topLevelCheck = { s with pc := s.pc + 1, phase := .fetch } := by
  rcases s.topLevelCheck_cases with ⟨c, hc, -⟩ | ⟨-, h⟩
  · exact absurd hi (State.not_inStack_of_indexFault hc)
  · exact h

/-- An operation that ends with every frame used up and `top` in range ends its instruction. -/
theorem State.settle_of_used (hp : s.phase = .exec) (hc : s.cur = none) (hused : ∀ g ∈ s.frames, g.remaining ≤ 0)
    (hi : s.inStack s.top) :
    s.settle = { s with pc := s.pc + 1, phase := .fetch, cur := none, depth := 0, frames := [] } := by
  have hdrop : s.resumeFrames s.frames = s.resumeFrames [] := by
    simpa using State.resumeFrames_append_of_le (s := s) hused []
  rw [State.settle_of_completed hp hc, hdrop, State.resumeFrames_nil,
    State.topLevelCheck_of_inStack (s := s.leaveFrames) hi]
  rfl

/-- Settles O35: the one frame that Repeat leaves is used up at once, and the lowered `top` passes the top-level check. -/
theorem repeatWithoutCountConsumesOneCell : Obligations.RepeatWithoutCountConsumesOneCell := by
  intro s imm hr hp hpar hb hi htop hcount
  have hdec : decodeByte (imm ++ 3#3) = .rep imm.toNat := decodeByte_append imm 3#3
  have hlow : s.inStack (s.top - 1) := ⟨by omega, by have := hi.2; omega⟩
  have hwrap : s.wrap (s.top - 1) = s.top - 1 := State.wrap_of_inStack hpar hlow
  have hx := exec_rep_of_inStack (s := s.beginInstr (.rep imm.toNat)) imm.toNat hi
  rw [← hdec] at hx
  have hstep := step_of_fetch hr hp hb hx
  rw [State.settle_of_used rfl rfl (by simpa [State.topCell, State.cell] using hcount) (hwrap.symm ▸ hlow)] at hstep
  exact ⟨_, hstep, rfl, rfl, hwrap, rfl, rfl, rfl, fun _ => rfl, fun _ => rfl, ⟨rfl, rfl⟩, ⟨rfl, rfl, rfl, rfl, rfl⟩,
    rfl, rfl, rfl⟩

end Sys2Proof.Machine
end

section
/-! PROOFS. The limit MAX_DEPTH (rules R82, R84): which depths may be entered, and the depth that NestingDepthExceeded records. -/

namespace Sys2Proof.Machine

/-! ### The limit -/

/-- A depth may not be entered exactly when a finite MAX_DEPTH is below it (rule R82). -/
theorem allowsDepth_eq_false_iff {p : Config.Params} {k : Nat} :
    p.allowsDepth k = false ↔ ∃ d, p.maxDepth = some d ∧ d < k := by
  unfold Config.Params.allowsDepth
  split <;> simp [*]

theorem allowsDepth_eq_true_iff {p : Config.Params} {k : Nat} :
    p.allowsDepth k = true ↔ ∀ d, p.maxDepth = some d → k ≤ d := by
  rw [← Bool.not_eq_false, allowsDepth_eq_false_iff]
  push Not
  rfl

/-- The first depth beyond the limit is MAX_DEPTH + 1. -/
theorem maxDepth_eq_of_allowsDepth {p : Config.Params} {k : Nat} (hin : p.allowsDepth k = true)
    (hout : p.allowsDepth (k + 1) = false) : p.maxDepth = some k := by
  obtain ⟨d, hd, hlt⟩ := allowsDepth_eq_false_iff.1 hout
  have hle := allowsDepth_eq_true_iff.1 hin d hd
  rw [hd, show d = k by omega]

variable {s t u : State} {i : Instr}

theorem State.dispatch_of_allowsDepth {k : Nat} (ha : s.params.allowsDepth (k + 1) = true) (op : Opcode) (v : Int) :
    s.dispatch k op v = { s with phase := .exec, cur := some (op.instr v), depth := k + 1 } :=
  if_pos ha

theorem State.dispatch_refused {k : Nat} (ha : s.params.allowsDepth (k + 1) = false) (op : Opcode) (v : Int) :
    s.dispatch k op v = s.raise { cause := .nestingDepthExceeded, depth := k + 1 } :=
  if_neg (by simp [ha])

/-! ### The depth in the report -/

/-- A report of NestingDepthExceeded stands with a finite MAX_DEPTH and the depth MAX_DEPTH + 1 (rule R84). -/
def State.nestingReported (s : State) : Prop :=
  s.status.cause = .nestingDepthExceeded → ∃ d, s.params.maxDepth = some d ∧ s.faultDepth = d + 1

/-- Any other cause, none among them, reports no nesting fault. -/
theorem State.nestingReported_of_cause_ne (h : s.status.cause ≠ .nestingDepthExceeded) : s.nestingReported :=
  fun e => absurd e h

/-- The report of a dispatch from the deepest level allowed. -/
theorem State.nestingReported_raise {k : Nat} (hin : s.params.allowsDepth k = true)
    (hout : s.params.allowsDepth (k + 1) = false) :
    (s.raise { cause := .nestingDepthExceeded, depth := k + 1 }).nestingReported :=
  fun _ => ⟨k, maxDepth_eq_of_allowsDepth hin hout, rfl⟩

/-- A refused stack index is not reported as a nesting fault. -/
theorem indexFault_cause_ne_nesting {cap : Nat} {j : Int} {c : Cause} (h : indexFault cap j = some c) :
    c ≠ .nestingDepthExceeded := by
  rcases indexFault_cases cap j with ⟨h1, _⟩ | ⟨h1, _⟩ | ⟨h1, _⟩ <;> rw [h1] at h <;> cases h <;> simp

/-- An operation reports a nesting fault only for an inner operation one level below its own depth, which is allowed. -/
theorem exec_nestingReported (hs : s.nestingReported) (hdepth : s.params.allowsDepth s.depth = true)
    (hx : exec i s = .next u) : u.nestingReported := by
  cases exec_end hx
  case tooDeep ha => exact State.nestingReported_raise hdepth ha
  case pushRefused hc | accessRefused hc => exact State.nestingReported_of_cause_ne (indexFault_cause_ne_nesting hc)
  case loadRefused | storeRefused | inputEnded => exact State.nestingReported_of_cause_ne (by simp)
  all_goals exact hs

/-- RESUME reports a nesting fault only for an iteration one level below its Repeat's frame, whose depth is allowed. -/
theorem State.settle_nestingReported (hs : s.nestingReported)
    (hbound : ∀ f ∈ s.frames, s.params.allowsDepth f.depth = true) : s.settle.nestingReported := by
  have hend := s.settle_end
  generalize s.settle = t at hend
  cases hend
  case tooDeep used rest f _ hf _ ha => exact State.nestingReported_raise (hbound f (by simp [hf])) ha
  case outOfRange hc => exact State.nestingReported_of_cause_ne (indexFault_cause_ne_nesting hc)
  all_goals exact hs

/-- The current operation and the FSM's work after it. -/
theorem exec_settle_nestingReported (h : s.ControlInv) (hs : s.nestingReported) (hc : s.cur = some i)
    (hx : exec i s = .next u) : u.settle.nestingReported := by
  obtain ⟨hdepth, -⟩ := h.inner (by simp [hc])
  exact State.settle_nestingReported (exec_nestingReported hs hdepth hx) (h.exec hc hx).bounded

/-- Every step from a state that meets the invariant keeps a reported nesting fault at MAX_DEPTH + 1. -/
theorem step_nestingReported (h : s.Inv) (hs : s.nestingReported) (hstep : step s = .next t) : t.nestingReported := by
  rcases step_cases hstep with ⟨-, rfl⟩ | ⟨-, -, -, rfl⟩ | ⟨-, hp, b, u, hb, hu, rfl⟩ | ⟨-, -, i, u, hc, hu, rfl⟩ |
    ⟨-, -, rfl⟩ | ⟨-, -, rfl⟩
  · exact State.nestingReported_of_cause_ne (by simp)
  · exact hs
  · exact exec_settle_nestingReported (h.beginInstr hp hb).control hs rfl hu
  · exact exec_settle_nestingReported h.control hs hc hu
  · exact State.settle_nestingReported hs h.control.bounded
  · exact hs

/-- Settles O32: in a running state no fault is reported, so what the step reports is recorded as every step keeps it; a dispatch
is the test of rule R82. -/
theorem nestingFaultRecordsTheFirstForbiddenDepth : Obligations.NestingFaultRecordsTheFirstForbiddenDepth := by
  refine ⟨fun s t h hrun hstep hcause => ?_, fun s k op v => ⟨fun hout => ?_, fun hin => ?_⟩⟩
  · have hnone : s.status.cause = .none := h.status.cause.2 (by simp [hrun])
    have hs : s.nestingReported := State.nestingReported_of_cause_ne (by simp [hnone])
    obtain ⟨-, hpar, -⟩ := launchIsNeverWritten s t hstep
    exact hpar ▸ step_nestingReported h hs hstep hcause
  · exact State.dispatch_refused (allowsDepth_eq_false_iff.2 hout) op v
  · exact State.dispatch_of_allowsDepth (allowsDepth_eq_true_iff.2 hin) op v

end Sys2Proof.Machine
end

section
/-! PROOFS. Push, Pop and Add (rules R90 to R93), and the top-level check on what a Pop leaves in `top` (rules R91, R143). -/

namespace Sys2Proof.Machine

variable {s : State}

/-! ### The operations as the range check decides them -/

/-- A Push whose new `top` is in range writes there (rule R90). -/
theorem exec_push_of_inStack (v : Int) (hi : s.inStack (s.wrap (s.top + 1))) :
    exec (.push v) s = .next { s with
      top := s.wrap (s.top + 1), stk := Memory.write s.stk (s.wrap (s.top + 1)).toNat v, phase := .exec, cur := none } := by
  rw [exec_push]
  rcases pushUnit_cases s.depth v s with ⟨c, hc, -⟩ | ⟨-, h⟩
  · exact absurd hi (State.not_inStack_of_indexFault hc)
  · rw [h]; rfl

/-- A Push whose new `top` is out of range raises with `top` already moved (rule R90). -/
theorem exec_push_refused (v : Int) (hout : ¬ s.inStack (s.wrap (s.top + 1))) :
    exec (.push v) s = .next ((s.setTop (s.wrap (s.top + 1))).raise
      { cause := stackCause (s.wrap (s.top + 1)), index := s.wrap (s.top + 1), depth := s.depth }) := by
  rw [exec_push]
  rcases pushUnit_cases s.depth v s with ⟨c, hc, h⟩ | ⟨hi, -⟩
  · rw [indexFault_of_not_inStack hout] at hc
    cases hc
    rw [h]; rfl
  · exact absurd hi hout

/-- An Add with `top` in range rewrites the cell there (rule R92). -/
theorem exec_add_of_inStack (v : Int) (hi : s.inStack s.top) :
    exec (.add v) s = .next { s with
      stk := Memory.write s.stk s.top.toNat (s.wrap (s.topCell + v)), phase := .exec, cur := none } := by
  rw [exec_add]
  rcases addUnit_cases s.depth v s with ⟨c, hc, -⟩ | ⟨-, h⟩
  · exact absurd hi (State.not_inStack_of_indexFault hc)
  · rw [h]; rfl

/-- Settles O13: in range the new top cell is written once; out of range the fault is raised on the state whose `top` has
moved. -/
theorem pushWritesTheNewTop : Obligations.PushWritesTheNewTop := by
  refine ⟨fun imm => decodeByte_append imm 0#3, fun s v h => ⟨fun hi => ?_, fun hout => ?_⟩⟩
  · exact ⟨_, exec_push_of_inStack v hi, rfl, Memory.read_write_same _ _ _ h.stackCanonical,
      fun j => Memory.read_write_other _ _ _ _, fun _ => rfl, ⟨rfl, rfl⟩, s.completedFrom_write _ _ _ _ _⟩
  · exact ⟨_, exec_push_refused v hout, rfl, ⟨rfl, rfl⟩, (s.setTop _).faultedFrom_raise _⟩

/-- Settles O15: in range the cell at `top` is written once; out of range it is the fault of every access to `top`. -/
theorem addAddsToTheTopCell : Obligations.AddAddsToTheTopCell := by
  refine ⟨fun imm => decodeByte_append imm 2#3, fun s v h => ⟨fun hi => ?_, fun hout => ?_⟩⟩
  · exact ⟨_, exec_add_of_inStack v hi, rfl, Memory.read_write_same _ _ _ h.stackCanonical,
      fun j => Memory.read_write_other _ _ _ _, fun _ => rfl, ⟨rfl, rfl⟩, s.completedFrom_write _ _ _ _ _⟩
  · exact exec_faults_of_top_out (i := .add v) (by simp [Instr.opcode]) hout

/-! ### Push and then Pop(1) -/

/-- Moving a W-bit `top` up and down again restores it, even where the sum wraps (rules R10, R93). -/
theorem State.wrap_add_one_sub_one (hpar : s.params.wf) (htop : isWord s.width s.top) :
    s.wrap (s.wrap (s.top + 1) - 1) = s.top := by
  have hw : 1 ≤ s.width := le_trans (by decide) hpar.1
  rw [State.wrap, State.wrap, wordOf_sub_left, add_sub_cancel_right, wordOf_eq hw htop]

/-- Settles O16: the two moves of `top` cancel, and Push wrote one cell. -/
theorem popOneUndoesPush : Obligations.PopOneUndoesPush := fun _ v h hpar htop hi =>
  ⟨_, _, exec_push_of_inStack v hi, exec_pop 1 _, State.wrap_add_one_sub_one hpar htop,
    fun _ => Memory.read_write_other _ _ _ _, Memory.read_write_same _ _ _ h.stackCanonical⟩

/-! ### Pop at the top level -/

/-- A `top` in range less an immediate is not reduced: W >= 9 leaves room below 0 (rule R8). -/
theorem State.wrap_top_sub_imm (hpar : s.params.wf) (hi : s.inStack s.top) (imm : BitVec 5) :
    s.wrap (s.top - imm.toNat) = s.top - imm.toNat := by
  have himm := imm.isLt
  have hhalf := half_ge (w := s.width) hpar.1
  have hlow := hi.1
  have hhigh : s.top < 2 ^ (s.width - 1) := (State.isWord_of_inStack hpar hi).2
  have hword : isWord s.width (s.top - imm.toNat) := ⟨by omega, by omega⟩
  exact wordOf_eq (le_trans (by decide) hpar.1) hword

/-- The top-level check out of range raises the stack fault at depth 0 (rule R143). -/
theorem State.topLevelCheck_of_not_inStack (hout : ¬ s.inStack s.top) :
    s.topLevelCheck = s.raise { cause := stackCause s.top, index := s.top, depth := 0 } := by
  rw [State.topLevelCheck, indexFault_of_not_inStack hout]

/-- A top-level Pop is the lowered `top` and then the top-level check. -/
theorem step_pop_of_fetch {imm : BitVec 5} (hr : s.rst = false) (hp : s.phase = .fetch) (hpar : s.params.wf)
    (hi : s.inStack s.top) (hb : s.fetchByte = some (imm ++ 1#3)) :
    step s = .next (((s.beginInstr (.pop imm.toNat)).setTop (s.top - imm.toNat)).retire.leaveFrames.topLevelCheck) := by
  have hdec : decodeByte (imm ++ 1#3) = .pop imm.toNat := decodeByte_append imm 1#3
  have hx := exec_pop imm.toNat (s.beginInstr (.pop imm.toNat))
  rw [← hdec] at hx
  rw [step_of_fetch hr hp hb hx, State.settle_retire, hdec, ← State.wrap_top_sub_imm hpar hi imm]
  rfl

/-- Settles O14: Pop is one write to `top`; the check after a top-level Pop passes when the lowered `top` is at least 0 and
raises StackUnderflow when it is below. -/
theorem popLowersTopOnly : Obligations.PopLowersTopOnly := by
  refine ⟨fun imm => decodeByte_append imm 1#3, fun s v => ?_, fun s imm hr hp hpar hi hb => ?_⟩
  · exact ⟨_, exec_pop v s, rfl, fun _ => rfl, fun _ => rfl, ⟨rfl, rfl⟩, s.completedFrom_write _ _ _ _ _⟩
  have hstep := step_pop_of_fetch hr hp hpar hi hb
  rcases le_or_gt (imm.toNat : Int) s.top with hle | hgt
  · have hin : s.inStack (s.top - imm.toNat) := ⟨by omega, by have := hi.2; omega⟩
    rw [State.topLevelCheck_of_inStack (by exact hin)] at hstep
    exact ⟨_, hstep, rfl, by simp [hle], fun _ => ⟨rfl, rfl⟩⟩
  · have hneg : s.top - imm.toNat < 0 := by omega
    have hout : ¬ s.inStack (s.top - imm.toNat) := fun hin => not_lt.2 hin.1 hneg
    rw [State.topLevelCheck_of_not_inStack (by exact hout)] at hstep
    exact ⟨_, hstep, rfl, iff_of_true ⟨if_pos hneg, rfl⟩ hgt, fun hle => absurd hgt (not_lt.2 hle)⟩

end Sys2Proof.Machine
end

section
/-! PROOFS. Extend and Conditional (rules R85, R102 to R104): the descriptor is popped and its opcode dispatched one level deeper;
a chain of Extends builds a wide value. -/

namespace Sys2Proof.Machine

variable {s : State} {i : Instr} {op : Opcode} {v : Int}

/-! ### One composition -/

/-- An Extend with `top` in range pops its descriptor and dispatches. -/
theorem exec_extend_of_inStack (v : Int) (hi : s.inStack s.top) :
    exec (.extend v) s = .next ((s.setTop (s.wrap (s.top - 1))).dispatch s.depth (decodeCell s.topCell).1
      (widen s.width v (decodeCell s.topCell).2)) := by
  rcases execExtend_cases v s with ⟨c, hc, -⟩ | ⟨-, h⟩
  · exact absurd hi (State.not_inStack_of_indexFault hc)
  · exact h

/-- A Conditional with a positive guard pops its descriptor and dispatches. -/
theorem exec_conditional_of_pos (v : Int) (hi : s.inStack s.top) (hg : 0 < (decodeCell s.topCell).2) :
    exec (.conditional v) s =
      .next ((s.setTop (s.wrap (s.top - 1))).dispatch s.depth (decodeCell s.topCell).1 v) := by
  rcases execConditional_cases v s with ⟨c, hc, -⟩ | ⟨-, -, h⟩ | ⟨-, hle, -⟩
  · exact absurd hi (State.not_inStack_of_indexFault hc)
  · exact h
  · exact absurd hg hle

/-- A Conditional whose guard is not positive only pops its descriptor. -/
theorem exec_conditional_of_le (v : Int) (hi : s.inStack s.top) (hg : (decodeCell s.topCell).2 ≤ 0) :
    exec (.conditional v) s = .next (s.setTop (s.wrap (s.top - 1))).retire := by
  rcases execConditional_cases v s with ⟨c, hc, -⟩ | ⟨-, hpos, -⟩ | ⟨-, -, h⟩
  · exact absurd hi (State.not_inStack_of_indexFault hc)
  · exact absurd hpos (not_lt.2 hg)
  · exact h

/-- A composition that pops its descriptor and dispatches to an allowed depth chooses the next operation and writes nothing
else. -/
theorem exec_dispatches (hx : exec i s = .next ((s.setTop (s.wrap (s.top - 1))).dispatch s.depth op v))
    (ha : s.params.allowsDepth (s.depth + 1) = true) :
    ∃ t, exec i s = .next t ∧ t.top = s.wrap (s.top - 1) ∧ t.cur = some (op.instr v) ∧ t.phase = .exec ∧
      t.depth = s.depth + 1 ∧ t.frames = s.frames ∧ t.pc = s.pc ∧
      s.sameCells t ∧ s.sameMemory t ∧ s.samePorts t ∧ s.sameReports t ∧ s.sameLaunch t := by
  rw [State.dispatch_of_allowsDepth (by exact ha)] at hx
  exact ⟨_, hx, rfl, rfl, rfl, rfl, rfl, rfl, fun _ => rfl, fun _ => rfl, ⟨rfl, rfl⟩, ⟨rfl, rfl, rfl, rfl, rfl⟩,
    rfl, rfl, rfl⟩

/-- A composition that pops its descriptor and may not go deeper raises NestingDepthExceeded (rule R84). -/
theorem exec_dispatch_faults (hx : exec i s = .next ((s.setTop (s.wrap (s.top - 1))).dispatch s.depth op v))
    (ha : s.params.allowsDepth (s.depth + 1) = false) :
    ∃ t, exec i s = .next t ∧ t.top = s.wrap (s.top - 1) ∧ s.samePorts t ∧
      s.faultedFrom t .nestingDepthExceeded 0 0 (s.depth + 1) := by
  rw [State.dispatch_refused (by exact ha)] at hx
  exact ⟨_, hx, rfl, ⟨rfl, rfl⟩, (s.setTop _).faultedFrom_raise _⟩

/-- Settles O18: in range Extend is a pop and a dispatch, which the depth decides; out of range it is the fault of every access
to `top`. -/
theorem extendDispatchesTheWidenedValue : Obligations.ExtendDispatchesTheWidenedValue :=
  ⟨fun imm => decodeByte_append imm 4#3, fun _ v =>
    ⟨fun hi => exec_dispatches (exec_extend_of_inStack v hi),
     fun hi => exec_dispatch_faults (exec_extend_of_inStack v hi),
     exec_faults_of_top_out (i := .extend v) (by simp [Instr.opcode])⟩⟩

/-- Settles O19: a positive guard is a pop and a dispatch, which the depth decides; any other guard is the pop alone. -/
theorem conditionalFiresOnAPositiveGuard : Obligations.ConditionalFiresOnAPositiveGuard :=
  ⟨fun imm => decodeByte_append imm 5#3, fun s v =>
    ⟨fun hi hg => exec_dispatches (exec_conditional_of_pos v hi hg),
     fun hi hg => exec_dispatch_faults (exec_conditional_of_pos v hi hg),
     fun hi hg => ⟨_, exec_conditional_of_le v hi hg, rfl, fun _ => rfl, fun _ => rfl, ⟨rfl, rfl⟩,
       s.completedFrom_write _ _ _ _ _⟩,
     exec_faults_of_top_out (i := .conditional v) (by simp [Instr.opcode])⟩⟩

/-! ### A chain of Extends -/

/-- Every depth below an allowed one is allowed (rule R82). -/
theorem allowsDepth_of_le {p : Config.Params} {k l : Nat} (h : k ≤ l) (hl : p.allowsDepth l = true) :
    p.allowsDepth k = true :=
  allowsDepth_eq_true_iff.2 fun d hd => h.trans (allowsDepth_eq_true_iff.1 hl d hd)

/-- An index one below a stack index in range is not reduced. -/
theorem State.wrap_sub_one_of_inStack (hpar : s.params.wf) {j : Int} (hj : s.inStack j) : s.wrap (j - 1) = j - 1 := by
  have hw : 9 ≤ s.width := hpar.1
  have hhalf := half_ge hw
  have hword := State.isWord_of_inStack hpar hj
  exact wordOf_eq (by omega) ⟨by have := hj.1; omega, by have := hword.2; omega⟩

/-- From `top` downward stand `ts.length` descriptors with the constants `ts`: the last one's opcode is `op`, the others are
Extend (rule R103). -/
abbrev State.holdsChain (s : State) (op : Opcode) (ts : List Int) : Prop :=
  ∀ (j : Nat) (h : j < ts.length),
    decodeCell (s.cell (s.top.toNat - j)) = (if j + 1 = ts.length then op else .extend, ts[j])

/-- `op` with value `v` is current, `n` descriptors down from `s` and `n` levels deeper. -/
def State.descended (s : State) (n : Nat) (op : Opcode) (v : Int) : State :=
  { s with top := s.top - n, phase := .exec, cur := some (op.instr v), depth := s.depth + n }

/-- Descending over one descriptor and then over `n` is descending over `n + 1`. -/
theorem State.descended_descended (s : State) (n : Nat) (op : Opcode) (v x : Int) :
    (s.descended 1 .extend x).descended n op v = s.descended (n + 1) op v := by
  simp only [State.descended, State.mk.injEq, true_and, and_true]
  constructor
  · push_cast
    omega
  · omega

/-- One link of a chain: an Extend that is current hands its widened value on to the opcode below. -/
theorem step_extend_descends {d : Int} (hr : s.rst = false) (hp : s.phase = .exec) (hpar : s.params.wf)
    (hc : s.cur = some (.extend v)) (hi : s.inStack s.top) (ha : s.params.allowsDepth (s.depth + 1) = true)
    (hd : decodeCell s.topCell = (op, d)) : step s = .next (s.descended 1 op (widen s.width v d)) := by
  have hx := exec_extend_of_inStack v hi
  rw [hd, State.dispatch_of_allowsDepth (by exact ha), State.wrap_sub_one_of_inStack hpar hi] at hx
  rw [step_of_cur hr (.inl hp) hc hx, State.settle_of_cur rfl rfl]
  rfl

/-- Below the first of two or more descriptors stands the rest of the chain. -/
theorem State.holdsChain.tail {d d' : Int} {ts : List Int} (h : s.holdsChain op (d :: d' :: ts)) (x : Int) :
    (s.descended 1 .extend x).holdsChain op (d' :: ts) := by
  intro j hj
  have hindex : (s.top - (1 : Nat)).toNat - j = s.top.toNat - (j + 1) := by omega
  change decodeCell (s.cell ((s.top - (1 : Nat)).toNat - j)) = _
  rw [hindex]
  simpa using h (j + 1) (Nat.succ_lt_succ hj)

/-- A chain of one or more descriptors is descended in as many steps; the value is folded from its constants. -/
theorem runSteps_extendChain (d : Int) (ts : List Int) (hr : s.rst = false) (hp : s.phase = .exec) (hpar : s.params.wf)
    (hc : s.cur = some (.extend v)) (hi : s.inStack s.top) (hlen : (ts.length : Int) ≤ s.top)
    (ha : s.params.allowsDepth (s.depth + (ts.length + 1)) = true) (hchain : s.holdsChain op (d :: ts)) :
    runSteps (ts.length + 1) s = .next (s.descended (ts.length + 1) op ((d :: ts).foldl (widen s.width) v)) := by
  induction ts generalizing s v d with
  | nil => exact runSteps_succ (step_extend_descends hr hp hpar hc hi ha (hchain 0 Nat.one_pos))
  | cons d' ts ih =>
    rw [List.length_cons] at hlen ha ⊢
    have htop : decodeCell s.topCell = (.extend, d) := by simpa using hchain 0 (Nat.succ_pos _)
    have hstep := step_extend_descends hr hp hpar hc hi (allowsDepth_of_le (by omega) ha) htop
    have hlen' : (ts.length : Int) ≤ s.top - 1 := le_sub_iff_add_le.2 (by exact_mod_cast hlen)
    have hi' : s.inStack (s.top - 1) := ⟨by omega, by have := hi.2; omega⟩
    have ha' : s.params.allowsDepth (s.depth + 1 + (ts.length + 1)) = true := by rwa [add_assoc, add_comm 1]
    rw [runSteps_succ hstep, ih (s := s.descended 1 .extend (widen s.width v d)) d' hr rfl hpar rfl hi' hlen' ha'
      (hchain.tail _), State.descended_descended]
    rfl

/-- With room for its 8 bits above `k` bits, each constant of one byte is the next base-256 digit (rule R103). -/
theorem foldl_widen_eq {w : Nat} (hw : 9 ≤ w) (k : Nat) (ts : List Int) (hts : ∀ d ∈ ts, 0 ≤ d ∧ d < 256) (h0 : 0 ≤ v)
    (hv : v < 2 ^ k) (hk : 8 * ts.length + k ≤ w - 1) :
    ts.foldl (widen w) v = ts.foldl (fun n d : Int => n * 256 + d) v := by
  induction ts generalizing v k with
  | nil => rfl
  | cons d ts ih =>
    obtain ⟨⟨hd0, hd⟩, hts⟩ := List.forall_mem_cons.1 hts
    rw [List.length_cons] at hk
    have hpow : (2 : Int) ^ (k + 8) = 2 ^ k * 256 := by rw [pow_add]; norm_num
    have hnext : v * 256 + d < 2 ^ (k + 8) := by omega
    have hfit : (2 : Int) ^ (k + 8) ≤ 2 ^ (w - 1) := pow_le_pow_right₀ (by norm_num) (by omega)
    rw [List.foldl_cons, List.foldl_cons, widen_eq hw h0 hd0 hd (by omega)]
    exact ih (k + 8) hts (by omega) hnext (by omega)

/-- Settles O33: the chain is descended link by link, and each link adds one base-256 digit below the word's sign bit. -/
theorem extendChainBuildsTheWideValue : Obligations.ExtendChainBuildsTheWideValue := by
  refine ⟨fun s v0 op ts hr hp hpar hc hi hne hlen ha hchain => ?_, fun w v0 ts h0 hv hts hw hk =>
    foldl_widen_eq hw 5 ts hts h0 hv hk⟩
  obtain ⟨d, ts, rfl⟩ := List.exists_cons_of_ne_nil hne
  have hlen' : (ts.length : Int) ≤ s.top := by simpa using hlen
  exact ⟨_, runSteps_extendChain d ts hr hp hpar hc hi hlen' ha hchain, rfl, rfl, rfl, rfl, rfl, rfl,
    fun _ => rfl, fun _ => rfl, ⟨rfl, rfl⟩, ⟨rfl, rfl, rfl, rfl, rfl⟩, rfl, rfl, rfl⟩

end Sys2Proof.Machine
end

section
/-! PROOFS. The iterations of a top-level Repeat of Add (rules R100, R101, R148): each is one step and one addition. -/

namespace Sys2Proof.Machine

variable {s : State} {v : Int} {k n : Nat} {stk : Memory}

/-! ### The cells -/

/-- The stack cells after an Add of `v` at `top` (rule R92). -/
def State.addStack (s : State) (v : Int) (stk : Memory) : Memory :=
  Memory.write stk s.top.toNat (s.wrap (Memory.read stk s.top.toNat + v))

/-- `n` Adds add `n * v` to the cell at `top`, modulo `2^W`. -/
theorem State.read_addStack_iterate_top (hw : 1 ≤ s.width) (v : Int) (n : Nat) (hwf : Memory.wf stk = true)
    (hcell : isWord s.width (Memory.read stk s.top.toNat)) :
    Memory.read ((s.addStack v)^[n] stk) s.top.toNat = s.wrap (Memory.read stk s.top.toNat + n * v) := by
  induction n generalizing stk with
  | zero => simp [wordOf_eq hw hcell]
  | succ n ih =>
    have hread : Memory.read (s.addStack v stk) s.top.toNat = s.wrap (Memory.read stk s.top.toNat + v) :=
      Memory.read_write_same _ _ _ hwf
    have hsumWord : isWord s.width (Memory.read (s.addStack v stk) s.top.toNat) := hread ▸ wordOf_isWord hw _
    have hsum : Memory.read stk s.top.toNat + v + n * v = Memory.read stk s.top.toNat + (n + 1 : Nat) * v := by
      push_cast
      ring
    have hwf' : Memory.wf (s.addStack v stk) = true := Memory.wf_write _ _ _ hwf
    rw [Function.iterate_succ_apply, ih hwf' hsumWord, hread, State.wrap, wordOf_add_left, hsum]

/-- Adds change no cell but the one at `top`. -/
theorem State.read_addStack_iterate_other (s : State) (v : Int) (n : Nat) (stk : Memory) {j : Nat} (hj : j ≠ s.top.toNat) :
    Memory.read ((s.addStack v)^[n] stk) j = Memory.read stk j := by
  induction n generalizing stk with
  | zero => rfl
  | succ n ih => exact (ih _).trans (Memory.read_write_other _ _ _ _ hj)

/-! ### The iterations -/

/-- An operation at depth `k` has ended with the stack cells `stk`, and `n` iterations of a top-level `Repeat(v)` of Add are
left. -/
def State.adding (s : State) (k : Nat) (stk : Memory) (v : Int) (n : Nat) : State :=
  { s with
    stk := stk, phase := .exec, cur := none, depth := k
    frames := [{ depth := 0, op := .add, value := v, remaining := n }] }

/-- With `n + 1` iterations left the next step performs an Add, and `n` are left. -/
theorem State.step_settle_adding (hr : s.rst = false) (hi : s.inStack s.top) (ha : s.params.allowsDepth 1 = true) :
    step (s.adding k stk v (n + 1)).settle = .next (s.adding 1 (s.addStack v stk) v n).settle := by
  have hcount : (0 : Int) < (n + 1 : Nat) := Int.natCast_pos.2 n.succ_pos
  have hless : ((n + 1 : Nat) : Int) - 1 = n := by omega
  have hiterate : (s.adding k stk v (n + 1)).settle = { s.adding 1 stk v n with cur := some (.add v) } := by
    rw [State.settle_of_completed rfl rfl, State.adding, State.resumeFrames_cons_of_pos hcount,
      State.iterate_of_allowsDepth (by exact ha), hless]
    rfl
  rw [hiterate]
  exact step_of_cur hr (.inl rfl) rfl (exec_add_of_inStack v hi)

/-- With `n` iterations left the instruction ends after `n` Adds, one in each step. -/
theorem State.runSteps_settle_adding (hr : s.rst = false) (hi : s.inStack s.top) (ha : s.params.allowsDepth 1 = true) :
    runSteps n (s.adding k stk v n).settle = .next { s with
      stk := (s.addStack v)^[n] stk, pc := s.pc + 1, phase := .fetch, cur := none, depth := 0, frames := [] } := by
  induction n generalizing k stk with
  | zero =>
    rw [State.settle_of_used (s := s.adding k stk v 0) rfl rfl (by simp [State.adding]) hi]
    rfl
  | succ n ih => exact (runSteps_succ (State.step_settle_adding hr hi ha)).trans ih

/-- The first step of a top-level Repeat of Add: its descriptor is popped into a frame. -/
theorem step_repeatAdd_of_fetch {imm : BitVec 5} (hr : s.rst = false) (hp : s.phase = .fetch)
    (hb : s.fetchByte = some (imm ++ 3#3)) (hi : s.inStack s.top) (hwrap : s.wrap (s.top - 1) = s.top - 1)
    (hdesc : decodeCell s.topCell = (.add, (n : Int))) :
    step s = .next ((s.setTop (s.top - 1)).adding 0 s.stk imm.toNat n).settle := by
  have hdec : decodeByte (imm ++ 3#3) = .rep imm.toNat := decodeByte_append imm 3#3
  have hx := exec_rep_of_inStack (s := s.beginInstr (.rep imm.toNat)) imm.toNat hi
  rw [show decodeCell (s.beginInstr _).topCell = _ from hdesc,
    show (s.beginInstr _).wrap ((s.beginInstr _).top - 1) = _ from hwrap, ← hdec] at hx
  rw [step_of_fetch hr hp hb hx]
  rfl

/-- Settles O34: one step makes the frame with the descriptor's count `n`, and `n` steps are its iterations. -/
theorem repeatOfAddAddsCountTimes : Obligations.RepeatOfAddAddsCountTimes := by
  intro s imm n hr hp hcells hpar hword hb hi htop ha hn hdesc
  have hdecode : decodeCell s.topCell = (.add, (n : Int)) := by
    obtain ⟨-, -, hfits⟩ := encoderAcceptsExactlyTheFieldsThatFit
    have hn' : (n : Int) < 2 ^ (s.width - 4) := by exact_mod_cast hn
    rw [State.topCell, hdesc]
    exact (hfits s.width .add n hpar.1 (by omega) (by omega)).2
  have hlow : s.inStack (s.top - 1) := ⟨by omega, by have := hi.2; omega⟩
  have hbelow : (s.top - 1).toNat = s.top.toNat - 1 := by omega
  have hw : 1 ≤ s.width := le_trans (by decide) hpar.1
  have hfirst := step_repeatAdd_of_fetch hr hp hb hi (State.wrap_of_inStack hpar hlow) hdecode
  have hrun := State.runSteps_settle_adding (s := s.setTop (s.top - 1)) (k := 0) (stk := s.stk) (v := imm.toNat) (n := n)
    hr hlow ha
  rw [← hbelow] at hword ⊢
  refine ⟨_, (runSteps_succ hfirst).trans hrun, rfl, rfl, rfl, ?_, fun j hj => ?_, rfl, fun _ => rfl, ⟨rfl, rfl⟩,
    ⟨rfl, rfl, rfl, rfl, rfl⟩, rfl, rfl, rfl⟩
  · exact State.read_addStack_iterate_top (s := s.setTop (s.top - 1)) hw imm.toNat n hcells.stackCanonical hword
  · exact State.read_addStack_iterate_other (s.setTop (s.top - 1)) imm.toNat n s.stk hj

end Sys2Proof.Machine
end

section
/-! PROOFS. The input and output hooks (rules R120 to R129): `Load(0)` for each answer of the host, `Store(0)` for each of the
sink, and that no other operation touches a port. -/

namespace Sys2Proof.Machine

variable {s u : State} {i : Instr} {b : Byte}

/-! ### The ports -/

theorem InputPort.poll_of_byte {p : InputPort} {es : List InputEvent} (h : p.events = .byte b :: es) :
    p.poll = (.byte b, { p with events := es }) := by
  simp [InputPort.poll, h]

theorem InputPort.poll_of_silent {p : InputPort} {es : List InputEvent} (h : p.events = .silent :: es) :
    p.poll = (.silent, { p with events := es }) := by
  simp [InputPort.poll, h]

/-- A host whose events are over and that never answers leaves the port as it is. -/
theorem InputPort.poll_of_silent_tail {p : InputPort} (h : p.events = []) (ht : p.tail = .silent) :
    p.poll = (.silent, p) := by
  simp [InputPort.poll, h, ht]

theorem InputPort.poll_of_endOfInput {p : InputPort} (h : p.events = []) (ht : p.tail = .endOfInput) :
    p.poll = (.endOfInput, p) := by
  simp [InputPort.poll, h, ht]

/-- A sink whose next event, listed or from its tail, is to take the word logs it. -/
theorem OutputPort.offer_of_takes {p : OutputPort} {es : List SinkEvent} (x : Int)
    (h : p.events = .takes :: es ∨ (p.events = [] ∧ es = [] ∧ p.tail = .takes)) :
    p.offer x = (true, { p with events := es, log := p.log ++ [x] }) := by
  rcases h with h | ⟨h, rfl, ht⟩
  · simp [OutputPort.offer, h]
  · simp [OutputPort.offer, h, ht]

/-- A sink whose next event is to be busy leaves the log. -/
theorem OutputPort.offer_of_busy {p : OutputPort} {es : List SinkEvent} (x : Int)
    (h : p.events = .busy :: es ∨ (p.events = [] ∧ es = [] ∧ p.tail = .busy)) :
    p.offer x = (false, { p with events := es }) := by
  rcases h with h | ⟨h, rfl, ht⟩
  · simp [OutputPort.offer, h]
  · obtain ⟨_, _, _⟩ := p
    cases h
    cases ht
    rfl

/-- The log after an offer: grown by the word if the sink took it, else as before (rule R129). -/
theorem OutputPort.offer_log {p q : OutputPort} {x : Int} {taken : Bool} (h : p.offer x = (taken, q)) :
    q.log = if taken then p.log ++ [x] else p.log := by
  rcases p.offer_cases x with ⟨es, hp⟩ | ⟨es, hp⟩ <;> rw [hp] at h <;> cases h <;> rfl

/-! ### The input hook -/

/-- The engine after `Load(0)` has taken the byte `b`, with `p` left at the port (rules R120, R125). -/
def State.takeByte (s : State) (b : Byte) (p : InputPort) : State :=
  { s with
    stk := Memory.write s.stk s.top.toNat (inputWord b), input := p
    status := { s.status with waitIn := false }, phase := .exec, cur := none }

theorem exec_load_zero_of_byte {p : InputPort} (hi : s.inStack s.top) (hp : s.input.poll = (.byte b, p)) :
    exec (.load 0) s = .next (s.takeByte b p) := by
  rw [exec_load_input, loadInput]
  simp only [State.stackRead_ok _ hi, hp, State.stackWrite_ok (s := s.inputAnswered p) _ _ hi]
  rfl

theorem exec_load_zero_of_silent {p : InputPort} (hi : s.inStack s.top) (hp : s.input.poll = (.silent, p)) :
    exec (.load 0) s = .next (s.awaitInput p) := by
  rw [exec_load_input, loadInput]
  simp only [State.stackRead_ok _ hi, hp]
  rfl

theorem exec_load_zero_of_endOfInput {p : InputPort} (hi : s.inStack s.top) (hp : s.input.poll = (.endOfInput, p)) :
    exec (.load 0) s = .next ((s.inputAnswered p).raise { cause := .endOfInput, depth := s.depth }) := by
  rw [exec_load_input, loadInput]
  simp only [State.stackRead_ok _ hi, hp]
  rfl

/-- Settles O21: the byte is written once, into the cell at `top`; out of range no poll is made. -/
theorem loadZeroTakesOneInputByte : Obligations.LoadZeroTakesOneInputByte := by
  intro s h
  refine ⟨fun b es hi hev => ?_, exec_faults_of_top_out (i := .load 0) (by simp [Instr.opcode])⟩
  exact ⟨_, exec_load_zero_of_byte hi (InputPort.poll_of_byte hev), rfl, Memory.read_write_same _ _ _ h.stackCanonical,
    fun j => Memory.read_write_other _ _ _ _, fun _ => rfl, rfl, rfl, rfl, rfl, ⟨rfl, rfl, rfl⟩, rfl, rfl, rfl, rfl, rfl,
    rfl, rfl, rfl⟩

/-- Settles O22: the fault is raised on the state whose only change, a cleared WAIT_IN, it overwrites. -/
theorem endOfInputIsRaised : Obligations.EndOfInputIsRaised := by
  intro s hi hev htail
  exact ⟨_, exec_load_zero_of_endOfInput hi (InputPort.poll_of_endOfInput hev htail), rfl, ⟨rfl, rfl⟩,
    (s.inputAnswered s.input).faultedFrom_raise _⟩

/-! ### The output hook -/

theorem exec_store_zero_of_taken {p : OutputPort} (hi : s.inStack s.top) (hp : s.output.offer s.topCell = (true, p)) :
    exec (.store 0) s = .next { s with output := p, top := s.wrap (s.top - 1), phase := .exec, cur := none } := by
  rw [exec_store, storeUnit]
  simp only [State.stackRead_ok _ hi, hp]
  rfl

theorem exec_store_zero_of_busy {p : OutputPort} (hi : s.inStack s.top) (hp : s.output.offer s.topCell = (false, p)) :
    exec (.store 0) s = .next { s with output := p, phase := .waitOut } := by
  rw [exec_store, storeUnit]
  simp only [State.stackRead_ok _ hi, hp]
  rfl

/-- Settles O24: in range the sink's next event decides; out of range nothing is offered. -/
theorem storeZeroEmitsTheTopCell : Obligations.StoreZeroEmitsTheTopCell := by
  intro s
  refine ⟨fun es hi hev => ?_, fun es hi hev => exec_store_zero_of_busy hi (OutputPort.offer_of_busy _ hev),
    exec_faults_of_top_out (i := .store 0) (by simp [Instr.opcode])⟩
  exact ⟨_, exec_store_zero_of_taken hi (OutputPort.offer_of_takes _ hev), rfl, rfl, rfl, fun _ => rfl, fun _ => rfl,
    s.completedFrom_write _ _ _ _ _⟩

/-! ### The only users of the ports -/

theorem exec_input_ne (h : exec i s = .next u) (hne : u.input ≠ s.input) : i = .load 0 := by
  cases exec_end h
  case read | awaits | inputEnded => rfl
  all_goals exact absurd rfl hne

theorem exec_output_ne (h : exec i s = .next u) (hne : u.output ≠ s.output) : i = .store 0 := by
  cases exec_end h
  case emitted | offers => rfl
  all_goals exact absurd rfl hne

/-- An operation keeps the output log, or it is `Store(0)` and appends the cell at `top`. -/
theorem exec_log (h : exec i s = .next u) :
    u.output.log = s.output.log ∨ (i = .store 0 ∧ u.output.log = s.output.log ++ [s.topCell]) := by
  cases exec_end h
  case emitted hp => exact .inr ⟨rfl, OutputPort.offer_log hp⟩
  case offers hp => exact .inl (OutputPort.offer_log hp)
  all_goals exact .inl rfl

/-- Settles O27: the FSM's own work keeps both ports, so a changed port was changed by the operation performed. -/
theorem hooksAreTheOnlyPortUsers : Obligations.HooksAreTheOnlyPortUsers := by
  intro s t hr h
  rcases step_operation hr h with ⟨-, -, -, -, ⟨hin, hout⟩, -⟩ | ⟨i, r, u, hperf, ⟨-, -, -, ⟨hrin, hrout⟩, -⟩, hu, rfl⟩
  · exact ⟨absurd hin, absurd hout⟩
  · obtain ⟨-, -, -, ⟨hin, hout⟩, -⟩ := u.settle_keeps
    rw [hperf, hin, hout, ← hrin, ← hrout]
    exact ⟨fun hne => congrArg some (exec_input_ne hu hne), fun hne => congrArg some (exec_output_ne hu hne)⟩

/-- Settles O28: a reset and the FSM's own work keep the log, and so does every operation but a `Store(0)` that is taken. -/
theorem outputLogIsAppendOnly : Obligations.OutputLogIsAppendOnly := by
  intro s t h
  cases hr : s.rst
  · rcases step_operation hr h with ⟨-, -, -, -, ⟨-, hout⟩, -⟩ |
      ⟨i, r, u, hperf, ⟨hrstk, -, hrtop, ⟨-, hrout⟩, -⟩, hu, rfl⟩
    · exact .inl (by rw [hout])
    · obtain ⟨-, -, -, ⟨-, hout⟩, -⟩ := u.settle_keeps
      rw [hperf, hout, ← hrout, State.cell, ← hrstk, ← hrtop]
      simpa using exec_log hu
  · rw [step_of_rst hr] at h
    cases h
    exact .inl rfl

end Sys2Proof.Machine
end

section
/-! PROOFS. A word goes to the data memory by Store and comes back by Load (rule R122), from every address that is not 0. -/

namespace Sys2Proof

/-- Integers congruent modulo `2^W` have the same bits. -/
theorem ofInt_eq_of_dvd {w : Nat} {n m : Int} (h : (2 : Int) ^ w ∣ n - m) : BitVec.ofInt w n = BitVec.ofInt w m := by
  rw [← ofInt_wordOf, wordOf_congr h, ofInt_wordOf]

/-- Only a multiple of `2^W` has the word 0. -/
theorem dvd_of_wordOf_eq_zero {w : Nat} {n : Int} (h : wordOf w n = 0) : (2 : Int) ^ w ∣ n := by
  simpa [h] using dvd_wordOf_sub w n

/-- Shifting the bits left multiplies by a power of two. -/
theorem ofInt_shiftLeft (w : Nat) (n : Int) (k : Nat) : BitVec.ofInt w n <<< k = BitVec.ofInt w (n * 2 ^ k) := by
  have hpow : BitVec.ofInt w (2 ^ k) = BitVec.twoPow w k := 
    BitVec.eq_of_toNat_eq (by exact_mod_cast (BitVec.toNat_twoPow w k).symm)
  rw [BitVec.shiftLeft_eq_mul_twoPow, BitVec.ofInt_mul, hpow]

namespace Machine

/-- A widened value depends on the bits of the value alone. -/
@[simp] theorem widen_wordOf (w : Nat) (v x : Int) : widen w (wordOf w v) x = widen w v x := by
  simp [widen]

/-- A value whose bits are all shifted out widens to the tail. -/
theorem widen_eq_tail {w : Nat} (h : 1 ≤ w) {v x : Int} (hv : (2 : Int) ^ w ∣ v * 2 ^ 8) (hx : isWord w x) :
    widen w v x = x := by
  have hbits : BitVec.ofInt w (v * 2 ^ 8) = 0#w := by
    simpa using ofInt_eq_of_dvd (m := 0) (by simpa using hv)
  rw [widen, ofInt_shiftLeft, hbits, BitVec.zero_or, toInt_ofInt_of_isWord h hx]

/-- The address formed from a nonnegative address's two parts is that address (rule R48). -/
theorem loadAddress_of_parts {w : Nat} (hw : 9 ≤ w) {a : Int} (ha : 0 ≤ a) (hword : isWord w a) :
    loadAddress w (a / 256) (a % 256) = a := by
  have hparts : a / 256 * 256 + a % 256 = a := Int.ediv_mul_add_emod a 256
  have hfit : a / 256 * 256 + a % 256 < 2 ^ (w - 1) := hparts.symm ▸ hword.2
  rw [loadAddress, widen_eq hw (by omega) (by omega) (by omega) hfit, hparts]

/-- `c * 2^(W-8)` loses all its bits in a shift by 8. -/
theorem two_pow_dvd_shifted {w : Nat} (hw : 8 ≤ w) (c : Int) : (2 : Int) ^ w ∣ c * 2 ^ (w - 8) * 2 ^ 8 := by
  rw [mul_assoc, ← pow_add, Nat.sub_add_cancel hw]
  exact Dvd.intro_left c rfl

/-- `c * 2^(W-8)` is not the word 0 when `c` has 8 bits and is not 0. -/
theorem wordOf_mul_two_pow_ne_zero {w : Nat} (hw : 8 ≤ w) {c : Int} (hc : 1 ≤ c) (hc' : c ≤ 255) :
    wordOf w (c * 2 ^ (w - 8)) ≠ 0 := by
  intro h0
  have hpow : (2 : Int) ^ w = 256 * 2 ^ (w - 8) := by
    rw [show (256 : Int) = 2 ^ 8 by norm_num, ← pow_add, Nat.add_sub_cancel' hw]
  have hdvd : (256 : Int) ∣ c :=
    Int.dvd_of_mul_dvd_mul_right (by positivity) (hpow ▸ dvd_of_wordOf_eq_zero h0)
  omega

/-- A Load in range at a nonzero address brings back what a Store left there, if the word has stayed. -/
theorem load_brings_back_the_stored_word {s t u : State} {a v : Int} (hs : s.CellsInv) (ha : a ≠ 0)
    (hi : s.inStack s.top) (hm : s.inMemory a) (hst : exec (.store a) s = .next t) (hu : u.CellsInv)
    (hword : u.word a.toNat = t.word a.toNat) (hpar : u.params = s.params) (hiu : u.inStack u.top) (hv : v ≠ 0)
    (haddr : loadAddress u.width v u.topCell = a) :
    ∃ w, exec (.load v) u = .next w ∧ w.top = u.top ∧ w.cell u.top.toNat = s.topCell := by
  rw [exec_store_of_inMemory ha hi hm] at hst
  cases hst
  have hmu : u.inMemory (loadAddress u.width v u.topCell) := by rw [haddr, State.inMemory, hpar]; exact hm
  have hstored : u.word a.toNat = s.topCell := hword.trans (Memory.read_write_same _ _ _ hs.memoryCanonical)
  refine ⟨_, exec_load_of_inMemory hv hiu hmu, rfl, ?_⟩
  rw [haddr, hstored]
  exact Memory.read_write_same _ _ _ hu.stackCanonical

/-- Settles O25: the round trip, and for each address the value and the cell that form it: its two parts, or a value whose bits
are all shifted out. -/
theorem storeThenLoadReturnsTheWord : Obligations.StoreThenLoadReturnsTheWord := by
  refine ⟨fun s t u a v => load_brings_back_the_stored_word, fun w a hw ha hword => ?_, fun w a c hw ha ha' hc hc' => ?_⟩
  · have hshift : a >>> (8 : Nat) = a / 256 := Int.shiftRight_eq_div_pow a 8
    rw [hshift, loadAddress_of_parts hw (by omega) hword]
    exact ⟨⟨by have := half_pos w; omega, by have := hword.2; omega⟩, by omega, by omega, by omega, by omega, rfl⟩
  · have h1 : 1 ≤ w := by omega
    have hvalue : loadAddress w (wordOf w (c * 2 ^ (w - 8))) a = a := by
      rw [loadAddress, widen_wordOf, widen_eq_tail h1 (two_pow_dvd_shifted (by omega) c) (isWord_of_byte hw ha ha')]
    exact ⟨wordOf_isWord h1 _, wordOf_mul_two_pow_ne_zero (by omega) hc hc', hvalue⟩

end Machine

end Sys2Proof
end

section
/-! PROOFS. The wait for input (rules R127, R186): a silent poll changes nothing but the wait, and however many there are, the
byte that ends them leaves what it would have left at once. -/

namespace Sys2Proof.Machine

variable {s : State} {b : Byte} {p : InputPort}

/-- The next step polls the input port: `Load(0)` is current, on its first poll or waiting, with `top` in range. -/
structure State.Polls (s : State) : Prop where
  running : s.rst = false
  phase : s.phase = .exec ∨ s.phase = .waitIn
  current : s.cur = some (.load 0)
  inRange : s.inStack s.top

/-- The wait polls again. -/
theorem State.Polls.awaitInput (h : s.Polls) (p : InputPort) : (s.awaitInput p).Polls :=
  ⟨h.running, .inr rfl, h.current, h.inRange⟩

/-- The step of a poll performs `Load(0)`. -/
theorem State.Polls.step_performs {u : State} (h : s.Polls) (hu : exec (.load 0) s = .next u) : step s = .next u.settle :=
  step_of_cur h.running (h.phase.imp_right .inl) h.current hu

/-- A silent poll ends the step in the wait (rule R127). -/
theorem State.Polls.step_of_silent (h : s.Polls) (hp : s.input.poll = (.silent, p)) :
    step s = .next (s.awaitInput p) := by
  have hrest : (s.awaitInput p).settle = s.awaitInput p := by simp [State.settle, h.current]
  rw [h.step_performs (exec_load_zero_of_silent h.inRange hp), hrest]

/-- A byte ends the wait, and the step goes on. -/
theorem State.Polls.step_of_byte (h : s.Polls) (hp : s.input.poll = (.byte b, p)) :
    step s = .next (s.takeByte b p).settle :=
  h.step_performs (exec_load_zero_of_byte h.inRange hp)

/-- RESUME and CHECK neither set WAIT_IN nor begin a wait. -/
theorem State.settle_not_waitIn (hw : s.status.waitIn = false) (hp : s.phase ≠ .waitIn) :
    s.settle.status.waitIn = false ∧ s.settle.phase ≠ .waitIn := by
  have hend := s.settle_end
  generalize s.settle = t at hend
  cases hend
  case rest => exact ⟨hw, hp⟩
  case finished | checked | again => exact ⟨hw, by simp⟩
  case outOfRange | tooDeep => exact ⟨rfl, by simp⟩

/-- A state that a step leaves as it is stays for any number of steps. -/
theorem runSteps_of_step_self (h : step s = .next s) (n : Nat) : runSteps n s = .next s := by
  induction n with
  | zero => rfl
  | succ n ih => rw [runSteps_succ h, ih]

/-- A host that is silent for ever is waited for for ever: the wait is a state that the next poll leaves as it is. -/
theorem State.Polls.runSteps_of_silent_tail (h : s.Polls) (hev : s.input.events = []) (htail : s.input.tail = .silent)
    (n : Nat) : runSteps (n + 1) s = .next (s.awaitInput s.input) := by
  have hpoll := InputPort.poll_of_silent_tail hev htail
  rw [runSteps_succ (h.step_of_silent hpoll)]
  exact runSteps_of_step_self ((h.awaitInput s.input).step_of_silent hpoll) n

/-- `n` silent polls and then a byte end in the state that the byte leaves at once: each wait changes only what taking the byte
overwrites. -/
theorem State.Polls.runSteps_of_delayed_byte (h : s.Polls) (n : Nat) (es : List InputEvent)
    (hev : s.input.events = List.replicate n .silent ++ .byte b :: es) :
    runSteps (n + 1) s = .next (s.takeByte b { s.input with events := es }).settle := by
  induction n generalizing s with
  | zero => exact runSteps_succ (h.step_of_byte (InputPort.poll_of_byte hev))
  | succ n ih =>
    have hstep := h.step_of_silent (InputPort.poll_of_silent hev)
    rw [runSteps_succ hstep]
    exact ih (h.awaitInput _) rfl

/-- Settles O46: the step of a poll, for each answer of the host. -/
theorem silentInputIsWaitedFor : Obligations.SilentInputIsWaitedFor := by
  intro s hr hp hc hi
  have h : s.Polls := ⟨hr, hp, hc, hi⟩
  refine ⟨fun es hev => h.step_of_silent (InputPort.poll_of_silent hev), fun b es hev => ?_, h.runSteps_of_silent_tail⟩
  exact ⟨_, h.step_of_byte (InputPort.poll_of_byte hev), State.settle_not_waitIn rfl nofun⟩

/-- Settles O47: both runs end in the state that taking the byte leaves. -/
theorem inputDelayLeavesNoTrace : Obligations.InputDelayLeavesNoTrace := by
  intro s n b es hr hp hc hi hev
  have h : s.Polls := ⟨hr, hp, hc, hi⟩
  have hatOnce : State.Polls { s with input := { s.input with events := .byte b :: es } } := ⟨hr, hp, hc, hi⟩
  rw [h.runSteps_of_delayed_byte n es hev, hatOnce.step_of_byte (InputPort.poll_of_byte rfl)]
  rfl

end Sys2Proof.Machine
end

section
/-! PROOFS. The FSM of rule R147 transition by transition: what each transition is, RESUME and CHECK as runs of them, and every
step as such a run. -/

namespace Sys2Proof.Machine

variable {s t u : State} {i : Instr} {f : Frame} {rest : List Frame}

/-! ### One transition -/

theorem fsmStep_of_rst (hr : s.rst = true) : fsmStep s = .next s.applyReset := by simp [fsmStep, hr]

theorem fsmStep_of_consumed (hr : s.rst = false) (hp : s.phase = .fetch) (hb : s.fetchByte = none) :
    fsmStep s = .next s.succeed := by
  simp [fsmStep, hr, hp, hb]

theorem fsmStep_of_fetch {b : Byte} (hr : s.rst = false) (hp : s.phase = .fetch) (hb : s.fetchByte = some b) :
    fsmStep s = .next (s.beginInstr (decodeByte b)) := by
  simp [fsmStep, hr, hp, hb]

theorem fsmStep_of_cur (hr : s.rst = false) (hp : s.performing) (hc : s.cur = some i) : fsmStep s = exec i s := by
  rcases hp with hp | hp | hp <;> simp [fsmStep, fsmPerform, hr, hp, hc]

theorem fsmStep_of_completed (hr : s.rst = false) (hp : s.performing) (hc : s.cur = none) :
    fsmStep s = .next { s with phase := .resume } := by
  rcases hp with hp | hp | hp <;> simp [fsmStep, fsmPerform, hr, hp, hc]

theorem fsmStep_of_resume (hr : s.rst = false) (hp : s.phase = .resume) : fsmStep s = .next s.fsmResume := by
  simp [fsmStep, hr, hp]

theorem fsmStep_of_check (hr : s.rst = false) (hp : s.phase = .check) : fsmStep s = .next s.topLevelCheck := by
  simp [fsmStep, hr, hp]

theorem fsmStep_of_halted (hr : s.rst = false) (hs : s.halted) : fsmStep s = .next s := by
  rcases hs with hp | hp <;> simp [fsmStep, hr, hp]

theorem State.fsmResume_of_nil (hf : s.frames = []) : s.fsmResume = s.leaveFrames := by
  rw [State.fsmResume, hf]

theorem State.fsmResume_of_pos (hf : s.frames = f :: rest) (hpos : 0 < f.remaining) : s.fsmResume = s.iterate f rest := by
  simp [State.fsmResume, hf, hpos]

theorem State.fsmResume_of_le (hf : s.frames = f :: rest) (hle : f.remaining ≤ 0) :
    s.fsmResume = { s with frames := rest, phase := .exec, cur := none } := by
  simp [State.fsmResume, hf, not_lt.2 hle]

/-! ### Runs of transitions -/

/-- Some number of transitions of rule R147's table lead from `s` to `t`. -/
abbrev State.fsmReaches (s t : State) : Prop := Relation.ReflTransGen (fun a b => fsmStep a = .next b) s t

theorem State.fsmReaches.exists_fsmRun (h : s.fsmReaches t) : ∃ n, fsmRun n s = .next t := by
  induction h using Relation.ReflTransGen.head_induction_on with
  | refl => exact ⟨0, rfl⟩
  | head hstep _ ih =>
    obtain ⟨n, hn⟩ := ih
    exact ⟨n + 1, (fsmRun_succ hstep).trans hn⟩

theorem fsmRun_of_halted (hr : s.rst = false) (hs : s.halted) (n : Nat) : fsmRun n s = .next s := by
  induction n with
  | zero => rfl
  | succ n ih => rw [fsmRun_succ (fsmStep_of_halted hr hs), ih]

theorem State.dispatch_rst (s : State) (k : Nat) (op : Opcode) (v : Int) : (s.dispatch k op v).rst = s.rst := by
  rcases s.dispatch_cases k op v with ⟨-, h⟩ | ⟨-, h⟩
  · rw [h]
  · rw [h]; rfl

theorem State.fsmResume_rst (s : State) : s.fsmResume.rst = s.rst := by
  cases hf : s.frames with
  | nil => rw [State.fsmResume_of_nil hf]; rfl
  | cons f rest =>
    rcases lt_or_ge 0 f.remaining with hpos | hle
    · rw [State.fsmResume_of_pos hf hpos]; exact State.dispatch_rst _ _ _ _
    · rw [State.fsmResume_of_le hf hle]

theorem State.topLevelCheck_rst (s : State) : s.topLevelCheck.rst = s.rst := by
  rcases s.topLevelCheck_cases with ⟨c, -, h⟩ | ⟨-, h⟩
  · rw [h]; rfl
  · rw [h]

/-- No transition asserts a reset: the host does. -/
theorem fsmStep_rst (hr : s.rst = false) (h : fsmStep s = .next t) : t.rst = false := by
  cases hp : s.phase
  case fetch =>
    cases hb : s.fetchByte
    · rw [fsmStep_of_consumed hr hp hb] at h; cases h; exact hr
    · rw [fsmStep_of_fetch hr hp hb] at h; cases h; exact hr
  case exec | waitIn | waitOut =>
    have hp : s.performing := by simp [State.performing, hp]
    cases hc : s.cur
    · rw [fsmStep_of_completed hr hp hc] at h; cases h; exact hr
    · rw [fsmStep_of_cur hr hp hc] at h
      obtain ⟨⟨-, -, hrst⟩, -⟩ := exec_launch h
      exact hrst.trans hr
  case resume => rw [fsmStep_of_resume hr hp] at h; cases h; exact s.fsmResume_rst.trans hr
  case check => rw [fsmStep_of_check hr hp] at h; cases h; exact s.topLevelCheck_rst.trans hr
  case done | fault => rw [fsmStep_of_halted hr (by simp [State.halted, hp])] at h; cases h; exact hr

theorem State.fsmReaches.rst (h : s.fsmReaches t) (hr : s.rst = false) : t.rst = false := by
  induction h with
  | refl => exact hr
  | tail _ hstep ih => exact fsmStep_rst ih hstep

/-! ### RESUME and CHECK as transitions -/

/-- The RESUME loop reads no control field: what it leaves depends on the frames it is given. -/
theorem State.resumeFrames_arch (s : State) (fs : List Frame) : s.arch.resumeFrames fs = s.resumeFrames fs := by
  induction fs with
  | nil => rfl
  | cons f rest ih =>
    rcases lt_or_ge 0 f.remaining with hpos | hle
    · rw [State.resumeFrames_cons_of_pos hpos, State.resumeFrames_cons_of_pos hpos]
      rfl
    · rw [State.resumeFrames_cons_of_le hle, State.resumeFrames_cons_of_le hle, ih]

/-- What reads no control field is the same for states that agree up to those. -/
theorem State.eq_of_arch_eq {α : Type} (g : State → α) (hg : ∀ a : State, g a.arch = g a) (h : s.arch = t.arch) :
    g s = g t := by
  rw [← hg s, h, hg t]

theorem State.resumeFrames_congr (h : s.arch = t.arch) (fs : List Frame) : s.resumeFrames fs = t.resumeFrames fs :=
  State.eq_of_arch_eq (fun a => a.resumeFrames fs) (fun a => a.resumeFrames_arch fs) h

/-- After one turn of RESUME the FSM goes on to what the whole loop leaves: each further turn drops one used frame. -/
theorem State.fsmResume_reaches (hr : s.rst = false) : s.fsmResume.fsmReaches (s.resumeFrames s.frames) := by
  generalize hf : s.frames = fs
  induction fs generalizing s with
  | nil =>
    rw [State.fsmResume_of_nil hf]
    exact .single (fsmStep_of_check hr rfl)
  | cons f rest ih =>
    rcases lt_or_ge 0 f.remaining with hpos | hle
    · rw [State.fsmResume_of_pos hf hpos, State.resumeFrames_cons_of_pos hpos]
    · rw [State.fsmResume_of_le hf hle, State.resumeFrames_cons_of_le hle]
      have hturn := ih (s := { s with frames := rest, phase := .resume, cur := none }) hr rfl
      rw [State.resumeFrames_congr (s := { s with frames := rest, phase := .resume, cur := none }) (t := s) rfl] at hturn
      exact .head (fsmStep_of_completed hr (.inl rfl) rfl) (.head (fsmStep_of_resume hr rfl) hturn)

/-- Where the FSM is to resume or to check, its transitions lead to what `settle` leaves. -/
theorem fsmStep_settles (hr : s.rst = false) (h : (s.performing ∧ s.cur = none) ∨ s.phase = .resume ∨ s.phase = .check) :
    ∃ u, fsmStep s = .next u ∧ u.fsmReaches s.settle := by
  rcases h with ⟨hp, hc⟩ | hp | hp
  · have hsettle : s.settle = s.resumeFrames s.frames := by rcases hp with hp | hp | hp <;> simp [State.settle, hp, hc]
    have hturn := State.fsmResume_reaches (s := { s with phase := .resume }) hr
    rw [State.resumeFrames_congr (s := { s with phase := .resume }) (t := s) rfl, ← hsettle] at hturn
    exact ⟨_, fsmStep_of_completed hr hp hc, .head (fsmStep_of_resume hr rfl) hturn⟩
  · have hsettle : s.settle = s.resumeFrames s.frames := by simp [State.settle, hp]
    exact ⟨_, fsmStep_of_resume hr hp, hsettle ▸ State.fsmResume_reaches hr⟩
  · have hsettle : s.settle = s.topLevelCheck := by simp [State.settle, hp]
    exact ⟨_, fsmStep_of_check hr hp, hsettle ▸ .refl⟩

theorem State.fsmReaches_settle (hr : s.rst = false) : s.fsmReaches s.settle := by
  rcases s.settle_cases with ⟨h, -⟩ | ⟨h, -⟩ | ⟨h, -⟩
  · rw [h]
  · obtain ⟨u, hstep, hu⟩ := fsmStep_settles hr (h.imp_right .inl)
    exact .head hstep hu
  · obtain ⟨u, hstep, hu⟩ := fsmStep_settles hr (.inr (.inr h))
    exact .head hstep hu

/-! ### A step as transitions -/

/-- Every step answers a next state, since every instruction does. -/
theorem exists_step_eq_next (s : State) : ∃ t, step s = .next t := by
  cases hr : s.rst
  case true => exact ⟨_, step_of_rst hr⟩
  case false =>
    cases hp : s.phase
    case fetch =>
      cases hb : s.fetchByte with
      | none => exact ⟨s.succeed, by simp [step, hr, hp, hb]⟩
      | some b =>
        obtain ⟨u, hu⟩ := exec_next (decodeByte b) (s.beginInstr (decodeByte b))
        exact ⟨_, step_of_fetch hr hp hb hu⟩
    case exec | waitIn | waitOut =>
      cases hc : s.cur with
      | none => exact ⟨s.settle, by simp [step, hr, hp, hc]⟩
      | some i =>
        obtain ⟨u, hu⟩ := exec_next i s
        exact ⟨_, step_of_cur hr (by simp [State.performing, hp]) hc hu⟩
    case resume | check => exact ⟨s.settle, by simp [step, hr, hp]⟩
    case done | fault => exact ⟨s, step_of_halted hr (by simp [State.halted, hp])⟩

/-- A step begins with a transition, and transitions lead from there to where it ends. -/
theorem fsmStep_of_step (h : step s = .next t) : ∃ u, fsmStep s = .next u ∧ u.fsmReaches t := by
  rcases step_cases h with ⟨hr, rfl⟩ | ⟨hr, hp, hb, rfl⟩ | ⟨hr, hp, b, u, hb, hu, rfl⟩ | ⟨hr, hp, i, u, hc, hu, rfl⟩ |
    ⟨hr, hp, rfl⟩ | ⟨hr, hp, rfl⟩
  · exact ⟨_, fsmStep_of_rst hr, .refl⟩
  · exact ⟨_, fsmStep_of_consumed hr hp hb, .refl⟩
  · have hexec := (fsmStep_of_cur (s := s.beginInstr (decodeByte b)) hr (.inl rfl) rfl).trans hu
    have hbegun : (s.beginInstr (decodeByte b)).rst = false := hr
    exact ⟨_, fsmStep_of_fetch hr hp hb, .head hexec (State.fsmReaches_settle (fsmStep_rst hbegun hexec))⟩
  · have hexec := (fsmStep_of_cur hr hp hc).trans hu
    exact ⟨_, hexec, State.fsmReaches_settle (fsmStep_rst hr hexec)⟩
  · exact fsmStep_settles hr hp
  · exact ⟨_, fsmStep_of_halted hr hp, .refl⟩

/-- Settles O52: every step answers, and its answer is reached by a first transition and those after it. -/
theorem stepIsARunOfFsmTransitions : Obligations.StepIsARunOfFsmTransitions := by
  intro s
  obtain ⟨t, ht⟩ := exists_step_eq_next s
  obtain ⟨u, hstep, hu⟩ := fsmStep_of_step ht
  obtain ⟨n, hn⟩ := hu.exists_fsmRun
  exact ⟨n, by rw [ht, fsmRun_succ hstep, hn]⟩

end Sys2Proof.Machine
end

section
/-! PROOFS. One operation of the recursive pseudocode as a run of the FSM (rules R148, R149): a unit is one transition, a wait
repeats it, an inner dispatch is the operation made current one level deeper, and a Repeat's loop is the turns of RESUME over
its frame. -/

namespace Sys2Proof.Machine

variable {s t u w x : State} {i : Instr} {v : Int} {k n fuel : Nat} {q r r' : UnitResult} {f : Frame}

/-! ### Reaching a result -/

/-- A result reaches the same states whatever the control fields of its state are. -/
theorem UnitResult.reachedAt_congr (h : r'.arch = r.arch) (hf : w.frames = s.frames) (ht : r'.reachedAt w t) :
    r.reachedAt s t := by
  cases r' <;> cases r <;> simp only [UnitResult.arch_done, UnitResult.arch_raised, UnitResult.arch_waiting,
    UnitResult.done.injEq, UnitResult.raised.injEq, reduceCtorEq] at h
  case done.done => obtain ⟨hp, hc, hfr, ha⟩ := ht; exact ⟨hp, hc, hfr.trans hf, ha.trans h⟩
  case raised.raised => obtain ⟨hp, ha⟩ := ht; exact ⟨hp, ha.trans h⟩
  case waiting.waiting => exact ht.elim

theorem UnitResult.reachedAt_retire (hf : u.frames = s.frames) : (UnitResult.done u).reachedAt s u.retire :=
  ⟨rfl, rfl, hf, rfl⟩

theorem UnitResult.reachedAt_raise (u : State) (rep : FaultReport) :
    (UnitResult.raised (u.raise rep)).reachedAt s (u.raise rep) :=
  ⟨rfl, rfl⟩

/-! ### The units -/

theorem exec_push_reachedAt (v : Int) (s : State) :
    ∃ t, exec (.push v) s = .next t ∧ (pushUnit s.depth v s).reachedAt s t := by
  rw [exec_push]
  rcases pushUnit_cases s.depth v s with ⟨c, -, h⟩ | ⟨-, h⟩ <;> rw [h]
  · exact ⟨_, rfl, UnitResult.reachedAt_raise _ _⟩
  · exact ⟨_, rfl, UnitResult.reachedAt_retire rfl⟩

theorem exec_add_reachedAt (v : Int) (s : State) :
    ∃ t, exec (.add v) s = .next t ∧ (addUnit s.depth v s).reachedAt s t := by
  rw [exec_add]
  rcases addUnit_cases s.depth v s with ⟨c, -, h⟩ | ⟨-, h⟩ <;> rw [h]
  · exact ⟨_, rfl, UnitResult.reachedAt_raise _ _⟩
  · exact ⟨_, rfl, UnitResult.reachedAt_retire rfl⟩

/-- The unit that `exec i s` runs answers `q`: it ended as `q` says, or it waits with the same operation current. -/
def UnitResult.answers (q : UnitResult) (i : Instr) (s : State) : Prop :=
  (∃ t, exec i s = .next t ∧ q.reachedAt s t) ∨
    ∃ u, q = .waiting u ∧ exec i s = .next u ∧ u.performing ∧ u.cur = s.cur ∧ u.depth = s.depth ∧ u.frames = s.frames

theorem UnitResult.answers_raise {rep : FaultReport} (h : exec i s = .next (u.raise rep)) :
    (UnitResult.raised (u.raise rep)).answers i s :=
  .inl ⟨_, h, UnitResult.reachedAt_raise _ _⟩

theorem UnitResult.answers_done (h : exec i s = .next u.retire) (hf : u.frames = s.frames) :
    (UnitResult.done u).answers i s :=
  .inl ⟨_, h, UnitResult.reachedAt_retire hf⟩

theorem loadUnit_answers (v : Int) (s : State) : (loadUnit s.depth v s).answers (.load v) s := by
  have hx : exec (.load v) s = (loadUnit s.depth v s).outcome := rfl
  by_cases hv : v = 0
  · rw [loadUnit, if_neg (not_not.2 hv)] at hx ⊢
    rcases loadInput_cases s.depth s with ⟨c, -, h⟩ | ⟨-, p, -, h⟩ | ⟨-, p, -, h⟩ | ⟨-, b, p, -, h⟩ <;> rw [h] at hx ⊢
    · exact UnitResult.answers_raise hx
    · exact .inr ⟨_, rfl, hx, .inr (.inl rfl), rfl, rfl, rfl⟩
    · exact UnitResult.answers_raise hx
    · exact UnitResult.answers_done hx rfl
  · rw [loadUnit, if_pos hv] at hx ⊢
    rcases loadMemory_cases s.depth v s with ⟨c, -, h⟩ | ⟨-, -, h⟩ | ⟨-, -, h⟩ <;> rw [h] at hx ⊢
    · exact UnitResult.answers_raise hx
    · exact UnitResult.answers_raise hx
    · exact UnitResult.answers_done hx rfl

theorem storeUnit_answers (v : Int) (s : State) : (storeUnit s.depth v s).answers (.store v) s := by
  have hx := exec_store v s
  rcases storeUnit_cases s.depth v s with ⟨c, -, h⟩ | ⟨-, -, -, h⟩ | ⟨-, -, -, h⟩ | ⟨-, -, p, -, h⟩ | ⟨-, -, p, -, h⟩ <;>
    rw [h] at hx ⊢
  · exact UnitResult.answers_raise hx
  · exact UnitResult.answers_raise hx
  · exact UnitResult.answers_done hx rfl
  · exact .inr ⟨_, rfl, hx, .inr (.inr rfl), rfl, rfl, rfl⟩
  · exact UnitResult.answers_done hx rfl

/-! ### What the FSM has to perform, by fuel -/

/-- From `s` the FSM comes to the result `r` of the operation current there. -/
def State.performsTo (s : State) (r : UnitResult) : Prop := ∃ t, s.fsmReaches t ∧ r.reachedAt s t

/-- The FSM performs every operation that the pseudocode ends with this fuel. -/
def FsmPerforms (fuel : Nat) : Prop :=
  ∀ (op : Opcode) (v : Int) (s : State) (r : UnitResult), s.rst = false → s.performing → s.cur = some (op.instr v) →
    execute fuel s.depth op v s = some r → s.performsTo r

/-- The FSM performs an operation that the pseudocode ends from a state with other control fields. -/
theorem FsmPerforms.of_arch_eq (h : FsmPerforms fuel) {op : Opcode} (hr : w.rst = false) (hp : w.performing)
    (hc : w.cur = some (op.instr v)) (hx : x.arch = w.arch) (he : execute fuel w.depth op v x = some r) :
    w.performsTo r := by
  obtain ⟨r', hr', harch⟩ := execute_congr hx he
  obtain ⟨t, hrun, ht⟩ := h op v w r' hr hp hc hr'
  exact ⟨t, hrun, UnitResult.reachedAt_congr harch rfl ht⟩

/-- An operation that `exec` ends is performed in one transition. -/
theorem State.performsTo_of_exec (hr : s.rst = false) (hp : s.performing) (hc : s.cur = some i) (hx : exec i s = .next t)
    (ht : r.reachedAt s t) : s.performsTo r :=
  ⟨t, .single ((fsmStep_of_cur hr hp hc).trans hx), ht⟩

/-! ### Waits -/

/-- A unit's answer, or, when it waits, what asking again from the wait gives (rules R127, R128). -/
def UnitResult.orAgain (q : UnitResult) (again : State → Option UnitResult) : Option UnitResult :=
  match q with
  | .waiting u => again u
  | .done u => some (.done u)
  | .raised u => some (.raised u)

/-- A unit that has ended does not ask again. -/
theorem UnitResult.orAgain_of_reachedAt {again : State → Option UnitResult} (ht : q.reachedAt s t) :
    q.orAgain again = some q := by
  cases q with
  | done u => rfl
  | raised u => rfl
  | waiting u => exact ht.elim

theorem execute_load (fuel k : Nat) (v : Int) (s : State) :
    execute (fuel + 1) k .load v s = (loadUnit k v s).orAgain (execute fuel k .load v) := by
  rw [execute]
  cases loadUnit k v s <;> rfl

theorem execute_store (fuel k : Nat) (v : Int) (s : State) :
    execute (fuel + 1) k .store v s = (storeUnit k v s).orAgain (execute fuel k .store v) := by
  rw [execute]
  cases storeUnit k v s <;> rfl

/-- A unit that may wait: the FSM repeats the operation from the wait as the pseudocode asks again. -/
theorem FsmPerforms.orAgain (ih : FsmPerforms fuel) {op : Opcode} (hr : s.rst = false) (hp : s.performing)
    (hc : s.cur = some (op.instr v)) (hq : q.answers (op.instr v) s)
    (h : q.orAgain (execute fuel s.depth op v) = some r) : s.performsTo r := by
  rcases hq with ⟨t, hx, ht⟩ | ⟨u, rfl, hx, hup, hucur, hudepth, huframes⟩
  · rw [UnitResult.orAgain_of_reachedAt ht] at h
    cases h
    exact State.performsTo_of_exec hr hp hc hx ht
  · have hstep := (fsmStep_of_cur hr hp hc).trans hx
    replace h : execute fuel s.depth op v u = some r := h
    rw [← hudepth] at h
    obtain ⟨t, hrun, ht⟩ := ih op v u r (fsmStep_rst hr hstep) hup (hucur.trans hc) h
    exact ⟨t, .head hstep hrun, UnitResult.reachedAt_congr rfl huframes ht⟩

/-! ### Inner dispatches and Repeat's loop -/

/-- An inner dispatch, from states that agree up to control fields: the FSM makes the operation current and performs it, or raises
the same fault (rule R82). -/
theorem FsmPerforms.dispatch (ih : FsmPerforms fuel) {op : Opcode} (hr : s.rst = false) (hx : x.arch = s.arch)
    (h : dispatchCall (execute fuel) k op v x = some r) :
    ∃ t, (s.dispatch k op v).fsmReaches t ∧ r.reachedAt s t := by
  have hpar : x.params = s.params := State.eq_of_arch_eq State.params State.arch_params hx
  rw [dispatchCall, hpar] at h
  rcases s.dispatch_cases k op v with ⟨ha, hd⟩ | ⟨ha, hd⟩ <;> rw [hd]
  · rw [if_pos ha] at h
    obtain ⟨t, hrun, ht⟩ := ih.of_arch_eq (w := { s with phase := .exec, cur := some (op.instr v), depth := k + 1 })
      hr (.inl rfl) rfl hx h
    exact ⟨t, hrun, UnitResult.reachedAt_congr rfl rfl ht⟩
  · rw [if_neg (by simp [ha])] at h
    cases h
    exact ⟨_, .refl, rfl, State.eq_of_arch_eq (fun a => (a.raise _).arch) (fun a => a.arch_raise _) hx.symm⟩

/-- The turn of RESUME that drops a used frame. -/
theorem State.fsmReaches_drop {rest : List Frame} (hr : w.rst = false) (hp : w.phase = .exec) (hc : w.cur = none)
    (hf : w.frames = f :: rest) (hle : f.remaining ≤ 0) :
    w.fsmReaches { w with frames := rest, phase := .exec, cur := none } := by
  have hturn := fsmStep_of_resume (s := { w with phase := .resume }) hr rfl
  rw [State.fsmResume_of_le (s := { w with phase := .resume }) hf hle] at hturn
  exact .head (fsmStep_of_completed hr (.inl hp) hc) (.single hturn)

/-- The turn of RESUME that dispatches one more iteration. -/
theorem State.fsmReaches_iterate {rest : List Frame} (hr : w.rst = false) (hp : w.phase = .exec) (hc : w.cur = none)
    (hf : w.frames = f :: rest) (hpos : 0 < f.remaining) : w.fsmReaches (w.iterate f rest) := by
  have hturn := fsmStep_of_resume (s := { w with phase := .resume }) hr rfl
  rw [State.fsmResume_of_pos (s := { w with phase := .resume }) hf hpos] at hturn
  exact .head (fsmStep_of_completed hr (.inl hp) hc) (.single hturn)

/-- Repeat's loop (rule R100) is the turns of RESUME over its frame: each dispatches one iteration with the count one less, and
the last drops the frame. -/
theorem FsmPerforms.repeatLoop (ih : FsmPerforms fuel) (hr : w.rst = false) (hp : w.phase = .exec) (hc : w.cur = none)
    (hf : w.frames = f :: s.frames) (hx : x.arch = w.arch)
    (h : Machine.repeatLoop (dispatchCall (execute fuel) f.depth f.op f.value) f.remaining.toNat x = some r) :
    ∃ t, w.fsmReaches t ∧ r.reachedAt s t := by
  generalize hn : f.remaining.toNat = n at h
  induction n generalizing f w x with
  | zero =>
    cases h
    exact ⟨_, State.fsmReaches_drop hr hp hc hf (Int.toNat_eq_zero.1 hn), rfl, rfl, rfl, hx.symm⟩
  | succ n ihn =>
    have hiterate := State.fsmReaches_iterate hr hp hc hf (by omega)
    cases hbody : dispatchCall (execute fuel) f.depth f.op f.value x with
    | none => rw [Machine.repeatLoop, hbody] at h; cases h
    | some q =>
      obtain ⟨t, hrun, ht⟩ :=
        ih.dispatch (s := { w with frames := { f with remaining := f.remaining - 1 } :: s.frames }) hr hx hbody
      have hiteration : w.fsmReaches t := hiterate.trans hrun
      rw [Machine.repeatLoop, hbody] at h
      cases q with
      | done x' =>
        obtain ⟨htp, htc, htf, hta⟩ := ht
        have hless : (f.remaining - 1).toNat = n := by omega
        obtain ⟨t', hrest, ht'⟩ := ihn (f := { f with remaining := f.remaining - 1 }) (hiteration.rst hr) htp htc htf
          hta.symm hless h
        exact ⟨t', hiteration.trans hrest, ht'⟩
      | raised x' => cases h; exact ⟨t, hiteration, ht⟩
      | waiting x' => exact ht.elim

/-! ### The compositions -/

theorem State.popDescriptor_refused (k : Nat) (hout : ¬ s.inStack s.top) :
    s.popDescriptor k = .error { cause := stackCause s.top, index := s.top, depth := k } := by
  rw [State.popDescriptor, State.stackRead_refused k hout]

theorem State.popDescriptor_ok (k : Nat) (hi : s.inStack s.top) :
    s.popDescriptor k = .ok (decodeCell s.topCell, s.setTop (s.wrap (s.top - 1))) := by
  rw [State.popDescriptor, State.stackRead_ok k hi]

/-- A composition whose descriptor is refused raises the stack fault on both sides (rule R85). -/
theorem State.performsTo_of_refused_descriptor {op : Opcode} (hop : op = .rep ∨ op = .extend ∨ op = .conditional)
    (hr : s.rst = false) (hp : s.performing) (hc : s.cur = some (op.instr v)) (hout : ¬ s.inStack s.top)
    (h : execute (fuel + 1) s.depth op v s = some r) : s.performsTo r := by
  have hx := exec_of_top_out (i := op.instr v) (by rw [Opcode.instr_opcode]; rcases hop with rfl | rfl | rfl <;> simp) hout
  have hr' : r = .raised (s.raise { cause := stackCause s.top, index := s.top, depth := s.depth }) := by
    rcases hop with rfl | rfl | rfl <;> simp only [execute, State.popDescriptor_refused _ hout] at h <;> cases h <;> rfl
  exact hr' ▸ State.performsTo_of_exec hr hp hc hx (UnitResult.reachedAt_raise _ _)

/-- The FSM's Repeat pushes its frame in one transition, and the turns of RESUME over it are the loop. -/
theorem FsmPerforms.rep (ih : FsmPerforms fuel) (hr : s.rst = false) (hp : s.performing) (hc : s.cur = some (.rep v))
    (h : execute (fuel + 1) s.depth .rep v s = some r) : s.performsTo r := by
  by_cases hi : s.inStack s.top
  case neg => exact State.performsTo_of_refused_descriptor (.inl rfl) hr hp hc hi h
  simp only [execute, State.popDescriptor_ok _ hi] at h
  have hstep := (fsmStep_of_cur hr hp hc).trans (exec_rep_of_inStack v hi)
  obtain ⟨t, hrun, ht⟩ := ih.repeatLoop (s := s) (x := s.setTop (s.wrap (s.top - 1)))
    (f := { depth := s.depth, op := (decodeCell s.topCell).1, value := v, remaining := (decodeCell s.topCell).2 })
    (fsmStep_rst hr hstep) rfl rfl rfl rfl h
  exact ⟨t, .head hstep hrun, ht⟩

/-- A composition whose last act is its inner dispatch. -/
theorem FsmPerforms.popThenDispatch (ih : FsmPerforms fuel) {op : Opcode} {v' : Int} (hr : s.rst = false)
    (hp : s.performing) (hc : s.cur = some i)
    (hx : exec i s = .next ((s.setTop (s.wrap (s.top - 1))).dispatch s.depth op v'))
    (h : dispatchCall (execute fuel) s.depth op v' (s.setTop (s.wrap (s.top - 1))) = some r) : s.performsTo r := by
  obtain ⟨t, hrun, ht⟩ := ih.dispatch (s := s.setTop (s.wrap (s.top - 1))) hr rfl h
  exact ⟨t, .head ((fsmStep_of_cur hr hp hc).trans hx) hrun, UnitResult.reachedAt_congr rfl rfl ht⟩

theorem FsmPerforms.extend (ih : FsmPerforms fuel) (hr : s.rst = false) (hp : s.performing)
    (hc : s.cur = some (.extend v)) (h : execute (fuel + 1) s.depth .extend v s = some r) : s.performsTo r := by
  by_cases hi : s.inStack s.top
  case neg => exact State.performsTo_of_refused_descriptor (.inr (.inl rfl)) hr hp hc hi h
  simp only [execute, State.popDescriptor_ok _ hi] at h
  exact ih.popThenDispatch hr hp hc (exec_extend_of_inStack v hi) h

theorem FsmPerforms.conditional (ih : FsmPerforms fuel) (hr : s.rst = false) (hp : s.performing)
    (hc : s.cur = some (.conditional v)) (h : execute (fuel + 1) s.depth .conditional v s = some r) : s.performsTo r := by
  by_cases hi : s.inStack s.top
  case neg => exact State.performsTo_of_refused_descriptor (.inr (.inr rfl)) hr hp hc hi h
  simp only [execute, State.popDescriptor_ok _ hi] at h
  rcases lt_or_ge 0 (decodeCell s.topCell).2 with hpos | hle
  · rw [if_pos hpos] at h
    exact ih.popThenDispatch hr hp hc (exec_conditional_of_pos v hi hpos) h
  · rw [if_neg (not_lt.2 hle)] at h
    cases h
    exact State.performsTo_of_exec hr hp hc (exec_conditional_of_le v hi hle) (UnitResult.reachedAt_retire rfl)

/-! ### Every operation -/

/-- The FSM performs whatever the pseudocode ends, by induction on its fuel: an inner operation and a repeated wait have one
less. -/
theorem fsmPerforms (fuel : Nat) : FsmPerforms fuel := by
  induction fuel with
  | zero => intro op v s r _ _ _ h; cases h
  | succ fuel ih =>
    intro op v s r hr hp hc h
    cases op with
    | push =>
      obtain ⟨t, hx, ht⟩ := exec_push_reachedAt v s
      cases h
      exact State.performsTo_of_exec hr hp hc hx ht
    | pop =>
      cases h
      exact State.performsTo_of_exec hr hp hc (exec_pop v s) (UnitResult.reachedAt_retire rfl)
    | add =>
      obtain ⟨t, hx, ht⟩ := exec_add_reachedAt v s
      cases h
      exact State.performsTo_of_exec hr hp hc hx ht
    | rep => exact ih.rep hr hp hc h
    | extend => exact ih.extend hr hp hc h
    | conditional => exact ih.conditional hr hp hc h
    | load => exact ih.orAgain hr hp hc (loadUnit_answers v s) (execute_load fuel _ v s ▸ h)
    | store => exact ih.orAgain hr hp hc (storeUnit_answers v s) (execute_store fuel _ v s ▸ h)

/-- Settles O53: the FSM performs what the pseudocode ends, whatever the fuel. -/
theorem fsmPerformsTheRecursiveOperation : Obligations.FsmPerformsTheRecursiveOperation := by
  intro fuel op v s r hr hp hc h
  obtain ⟨t, hrun, ht⟩ := fsmPerforms fuel op v s r hr hp hc h
  obtain ⟨n, hn⟩ := hrun.exists_fsmRun
  exact ⟨n, t, hn, ht⟩

end Sys2Proof.Machine
end

section
/-! PROOFS. A whole run of the recursive pseudocode as a run of the machine (rules R140, R149): first by transitions, from
instruction to instruction; then by steps, each of which is some of those transitions. -/

namespace Sys2Proof.Machine

variable {s t u w x : State} {fuel n : Nat}

/-! ### The pseudocode's loop -/

/-- Everything one turn of `interpret` can do: the program is consumed; an instruction completes, and the check of rule R143
refuses `top` or the next turn follows; or an instruction faults. -/
theorem interpret_cases (h : interpret (fuel + 1) s = some t) :
    (s.fetchByte = none ∧ t = s.succeed) ∨
    ∃ b r, s.fetchByte = some b ∧ execute fuel 0 (decodeByte b).opcode (decodeByte b).value s = some r ∧
      ((∃ v, r = .done v ∧ ¬ v.inStack v.top ∧
          t = v.raise { cause := stackCause v.top, index := v.top, depth := 0 }) ∨
        (∃ v, r = .done v ∧ v.inStack v.top ∧ interpret fuel { v with pc := v.pc + 1 } = some t) ∨
        r = .raised t) := by
  rw [interpret] at h
  cases hb : s.fetchByte with
  | none => rw [hb] at h; cases h; exact .inl ⟨rfl, rfl⟩
  | some b =>
    simp only [hb] at h
    refine .inr ⟨b, ?_⟩
    rcases he : execute fuel 0 (decodeByte b).opcode (decodeByte b).value s with _ | ⟨v | v | v⟩ <;> simp only [he] at h
    · cases h
    · refine ⟨_, rfl, rfl, ?_⟩
      by_cases hi : v.inStack v.top
      · rw [(indexFault_none _ _).2 hi] at h
        exact .inr (.inl ⟨v, rfl, hi, h⟩)
      · rw [indexFault_of_not_inStack hi] at h
        cases h
        exact .inl ⟨v, rfl, hi, rfl⟩
    · cases h; exact ⟨_, rfl, rfl, .inr (.inr rfl)⟩
    · cases h

/-! ### By transitions -/

/-- The end of a top-level instruction is followed by CHECK, which decides as the pseudocode does (rules R143, R147). -/
theorem fsmReaches_of_done {i : Instr} (hr : w.rst = false) (hw : (UnitResult.done s).reachedAt (x.beginInstr i) w) :
    ∃ u, w.fsmReaches u ∧
      (¬ s.inStack s.top → u.halted ∧ u.arch =
        (s.raise { cause := stackCause s.top, index := s.top, depth := 0 }).arch) ∧
      (s.inStack s.top → u.phase = .fetch ∧ u.arch = State.arch { s with pc := s.pc + 1 }) := by
  obtain ⟨hp, hc, hf, ha⟩ := hw
  have hcheck := State.fsmReaches_settle hr
  rw [State.settle_of_completed hp hc, State.resumeFrames_congr ha, hf, State.beginInstr_frames,
    State.resumeFrames_nil] at hcheck
  refine ⟨_, hcheck, fun hout => ?_, fun hi => ?_⟩
  · rw [State.topLevelCheck_of_not_inStack (s := s.leaveFrames) hout]
    exact ⟨.inr rfl, rfl⟩
  · rw [State.topLevelCheck_of_inStack (s := s.leaveFrames) hi]
    exact ⟨rfl, rfl⟩

/-- A fetched instruction is performed as the pseudocode executes it at depth 0. -/
theorem execute_reached_from_fetch {b : Byte} {r : UnitResult} (hr : x.rst = false) (hp : x.phase = .fetch)
    (hb : x.fetchByte = some b) (hx : s.arch = x.arch)
    (h : execute fuel 0 (decodeByte b).opcode (decodeByte b).value s = some r) :
    ∃ w, x.fsmReaches w ∧ r.reachedAt (x.beginInstr (decodeByte b)) w := by
  have hc : (x.beginInstr (decodeByte b)).cur = some ((decodeByte b).opcode.instr (decodeByte b).value) :=
    congrArg some (decodeByte b).opcode_instr_value.symm
  obtain ⟨w, hrun, hw⟩ := (fsmPerforms fuel).of_arch_eq (w := x.beginInstr (decodeByte b)) hr (.inl rfl) hc hx h
  exact ⟨w, .head (fsmStep_of_fetch hr hp hb) hrun, hw⟩

/-- Whenever `interpret` ends, transitions from FETCH lead to an ended run with the same effects, by induction on its fuel. -/
theorem interpret_reached (hr : x.rst = false) (hp : x.phase = .fetch) (hx : s.arch = x.arch)
    (h : interpret fuel s = some t) : ∃ u, x.fsmReaches u ∧ u.halted ∧ u.arch = t.arch := by
  induction fuel generalizing s x with
  | zero => cases h
  | succ fuel ih =>
    have hbyte : x.fetchByte = s.fetchByte := State.eq_of_arch_eq State.fetchByte (fun _ => rfl) hx.symm
    rcases interpret_cases h with ⟨hb, rfl⟩ | ⟨b, r, hb, he, hend⟩
    · exact ⟨_, .single (fsmStep_of_consumed hr hp (hbyte.trans hb)), .inl rfl,
        State.eq_of_arch_eq (fun a => a.succeed.arch) (fun _ => rfl) hx.symm⟩
    · obtain ⟨w, hrun, hw⟩ := execute_reached_from_fetch hr hp (hbyte.trans hb) hx he
      rcases hend with ⟨v, rfl, hout, rfl⟩ | ⟨v, rfl, hi, hrest⟩ | rfl
      · obtain ⟨u, hu, hrefused, -⟩ := fsmReaches_of_done (hrun.rst hr) hw
        exact ⟨u, hrun.trans hu, hrefused hout⟩
      · obtain ⟨u, hu, -, hpassed⟩ := fsmReaches_of_done (hrun.rst hr) hw
        have hreach : x.fsmReaches u := hrun.trans hu
        obtain ⟨hup, hua⟩ := hpassed hi
        obtain ⟨u', hu', hhalted, harch⟩ := ih (hreach.rst hr) hup hua.symm hrest
        exact ⟨u', hreach.trans hu', hhalted, harch⟩
      · obtain ⟨hwp, hwa⟩ := hw
        exact ⟨w, hrun, .inr hwp, hwa⟩

/-! ### By steps -/

/-- Transitions that end a run are covered by steps: each step is some of them, and an ended run stays. -/
theorem exists_runSteps_of_fsmRun (hu : u.rst = false) (hend : u.halted) (h : fsmRun n s = .next u) :
    ∃ m, runSteps m s = .next u := by
  induction n using Nat.strong_induction_on generalizing s with
  | _ n ih =>
    obtain ⟨k, hk⟩ := stepIsARunOfFsmTransitions s
    obtain ⟨s1, hs1⟩ := exists_step_eq_next s
    rw [hs1] at hk
    rcases le_or_gt (k + 1) n with hle | hgt
    · have hrest : fsmRun (n - (k + 1)) s1 = .next u := by
        rw [← fsmRun_add _ hk.symm, Nat.add_sub_cancel' hle, h]
      obtain ⟨m, hm⟩ := ih _ (by omega) hrest
      exact ⟨m + 1, (runSteps_succ hs1).trans hm⟩
    · have hstay : fsmRun (k + 1) s = .next u := by
        rw [← Nat.add_sub_cancel' (le_of_lt hgt), fsmRun_add _ h, fsmRun_of_halted hu hend]
      exact ⟨1, (runSteps_succ hs1).trans (hk.trans hstay)⟩

/-- Settles O54: the transitions that follow the pseudocode end the run, and steps cover them. -/
theorem machineRunsAsInterpretDoes : Obligations.MachineRunsAsInterpretDoes := by
  intro fuel s t hr hp h
  obtain ⟨u, hrun, hend, harch⟩ := interpret_reached hr hp rfl h
  obtain ⟨n, hn⟩ := hrun.exists_fsmRun
  obtain ⟨m, hm⟩ := exists_runSteps_of_fsmRun (hrun.rst hr) hend hn
  exact ⟨m, u, hm, hend, harch⟩

end Sys2Proof.Machine
end

section
/-! PROOFS. The run loop (rules R140 to R146): which operation a step runs, the check after a top-level instruction, how `pc`
moves, and the end of the program. -/

namespace Sys2Proof.Machine

variable {s t u : State} {i : Instr}

/-! ### The operation a step runs -/

theorem step_eq_of_fetch {b : Byte} (hr : s.rst = false) (hp : s.phase = .fetch) (hb : s.fetchByte = some b) :
    step s = thenSettle (exec (decodeByte b) (s.beginInstr (decodeByte b))) := by
  simp [step, hr, hp, hb]

theorem step_of_consumed (hr : s.rst = false) (hp : s.phase = .fetch) (hb : s.fetchByte = none) :
    step s = .next s.succeed := by
  simp [step, hr, hp, hb]

/-- Settles O38: a step from FETCH and one from EXEC; the byte of a well-formed instruction decodes to that instruction. -/
theorem stepRunsTheDecodedInstruction : Obligations.StepRunsTheDecodedInstruction := by
  refine ⟨fun s b => step_eq_of_fetch, fun s i b hr hp hwf henc hb => ?_, fun s i hr hp hc => by simp [step, hr, hp, hc]⟩
  obtain ⟨hdecode, -⟩ := encodeThenDecodeIsTheIdentity
  obtain ⟨b', henc', hb'⟩ := hdecode i hwf
  obtain rfl : b' = b := by rw [henc'] at henc; cases henc; rfl
  rw [step_eq_of_fetch hr hp hb, hb']

/-! ### The top-level check -/

/-- An operation that ends with every frame used up and `top` out of range raises the fault of the top-level check. -/
theorem State.settle_of_used_out (hp : s.phase = .exec) (hc : s.cur = none) (hused : ∀ g ∈ s.frames, g.remaining ≤ 0)
    (hout : ¬ s.inStack s.top) :
    s.settle = s.raise { cause := stackCause s.top, index := s.top, depth := 0 } := by
  have hdrop : s.resumeFrames s.frames = s.resumeFrames [] := by
    simpa using State.resumeFrames_append_of_le (s := s) hused []
  rw [State.settle_of_completed hp hc, hdrop, State.resumeFrames_nil,
    State.topLevelCheck_of_not_inStack (s := s.leaveFrames) hout]
  rfl

/-- Settles O39: the step goes on from `u` through RESUME, which drops the used frames, to the check, which `top` decides; a fault
ends it. -/
theorem topLevelCheckTestsTop : Obligations.TopLevelCheckTestsTop := by
  intro s u i hr hx
  have hstep : step s = .next u.settle := by
    rcases hx with ⟨b, hp, hb, rfl, hu⟩ | ⟨hp, hc, hu⟩
    · exact step_of_fetch hr hp hb hu
    · exact step_of_cur hr hp hc hu
  refine ⟨fun hp hc hused => ?_, fun hp => by rw [hstep, State.settle_of_fault hp]⟩
  have refused {c : Cause} (hout : ¬ u.inStack u.top) (hcause : stackCause u.top = c) :
      ∃ t, step s = .next t ∧ t.top = u.top ∧ u.samePorts t ∧ u.faultedFrom t c u.top 0 0 := by
    rw [hstep, State.settle_of_used_out hp hc hused hout, hcause]
    exact ⟨_, rfl, rfl, ⟨rfl, rfl⟩, u.faultedFrom_raise _⟩
  refine ⟨fun hneg => ?_, fun hcap hpos => ?_, fun hi => ?_⟩
  · exact refused (fun hi => not_lt.2 hi.1 hneg) (if_pos hneg)
  · exact refused (fun hi => not_lt.2 hcap hi.2) (if_neg (not_lt.2 hpos))
  · rw [hstep, State.settle_of_used hp hc hused hi, ← hc]

/-! ### The program index -/

/-- From a state outside FETCH, RESUME and CHECK advance `pc` exactly when they end in FETCH, with `top` in range. -/
theorem State.settle_pc (hp : s.phase ≠ .fetch) :
    (s.settle.phase = .fetch ∧ s.settle.pc = s.pc + 1 ∧ s.settle.inStack s.settle.top) ∨
      (s.settle.phase ≠ .fetch ∧ s.settle.pc = s.pc) := by
  have hend := s.settle_end
  generalize s.settle = t at hend
  cases hend
  case finished hi | checked hi => exact .inl ⟨rfl, rfl, hi⟩
  case rest => exact .inr ⟨hp, rfl⟩
  case outOfRange | again | tooDeep => exact .inr ⟨by simp, rfl⟩

/-- No instruction ends in FETCH. -/
theorem exec_phase_ne_fetch (h : exec i s = .next u) : u.phase ≠ .fetch := by
  rcases exec_phase h with hp | hp | hp | hp <;> simp [hp]

/-- Settles O31: an operation keeps `pc` and leaves FETCH, so `pc` moves only where RESUME and CHECK move it. -/
theorem pcAdvancesOnlyPastAnInstructionInRange : Obligations.PcAdvancesOnlyPastAnInstructionInRange := by
  intro s t hr h
  rcases step_cases h with ⟨hr', -⟩ | ⟨-, hp, hb, rfl⟩ | ⟨-, hp, b, u, hb, hu, rfl⟩ | ⟨-, hp, i, u, hc, hu, rfl⟩ |
    ⟨-, hp, rfl⟩ | ⟨-, hp, rfl⟩
  · simp [hr] at hr'
  · exact .inr ⟨by simp, rfl⟩
  · exact (exec_launch hu).2 ▸ State.settle_pc (exec_phase_ne_fetch hu)
  · exact (exec_launch hu).2 ▸ State.settle_pc (exec_phase_ne_fetch hu)
  · have hne : s.phase ≠ .fetch := by rcases hp with ⟨hp | hp | hp, -⟩ | hp | hp <;> simp [hp]
    exact State.settle_pc hne
  · exact .inr ⟨by rcases hp with hp | hp <;> simp [hp], rfl⟩

/-! ### The end of the program -/

/-- Settles O40: at `pc = L` nothing is fetched; the empty program is there at reset. -/
theorem consumedProgramIsSuccess : Obligations.ConsumedProgramIsSuccess := by
  refine ⟨fun s hr hp hpc => step_of_consumed hr hp ((State.fetchByte_none s).2 hpc.ge), fun p i o => ?_⟩
  have hword : Status.word { state := .success, waitIn := false, cause := .none } = 1 := by decide
  exact ⟨_, step_of_consumed rfl rfl rfl, hword, rfl, rfl, rfl, rfl, rfl, rfl, rfl, rfl, rfl, rfl, rfl, rfl⟩

end Sys2Proof.Machine
end

section
/-! PROOFS. The size of the control stack (rule R148): depths that strictly fall and are all allowed. -/

namespace Sys2Proof.Machine

/-- Settles O37: the frames' depths are different numbers in `0..d`. -/
theorem controlStackIsBounded : Obligations.ControlStackIsBounded := by
  intro s d h hd
  have hdistinct : (s.frames.map Frame.depth).Nodup :=
    List.pairwise_map.2 (h.falling.imp fun hlt => (ne_of_lt hlt).symm)
  have hwithin : s.frames.map Frame.depth ⊆ List.range (d + 1) := by
    intro k hk
    obtain ⟨f, hf, rfl⟩ := List.mem_map.1 hk
    have hle : f.depth ≤ d := allowsDepth_eq_true_iff.1 (h.bounded f hf) d hd
    exact List.mem_range.2 (Nat.lt_succ_of_le hle)
  simpa using (List.subperm_of_subset hdistinct hwithin).length_le

end Sys2Proof.Machine
end

section
/-! PROOFS. Faults (rules R161 to R168): what taking one writes and keeps, what every report that a step raises says of the state
it is raised on, and the end of a run. -/

namespace Sys2Proof.Machine

variable {s t u : State} {i : Instr}

/-- Settles O9: every instruction answers a next state, and so does the work of the FSM around it. -/
theorem everyStepAnswers : Obligations.EveryStepAnswers := exists_step_eq_next

/-! ### Taking a fault -/

/-- STATUS after a fault: STATE is 2, WAIT_IN is clear, and CAUSE stands from bit 3 on (rule R29). -/
theorem Status.word_of_fault (c : Cause) :
    Status.word { state := .fault, waitIn := false, cause := c } = 2 ||| ((c.code.setWidth 32) <<< 3) := by
  cases c <;> decide

/-- Settles O41: `raise` is an update of the fields it names, and in FAULT no operation is performed. -/
theorem raiseWritesTheFaultRegistersOnly : Obligations.RaiseWritesTheFaultRegistersOnly := fun _ r =>
  ⟨Status.word_of_fault r.cause, rfl, rfl, rfl, rfl, rfl, State.performs_of_idle (.inr (.inr (.inr rfl))), rfl, rfl, rfl,
    rfl, ⟨rfl, rfl⟩, rfl, rfl, rfl⟩

/-! ### What a report says -/

/-- The reports that may be raised on the state `w` by an operation at depth `k` or by the FSM after it (rules R161, R164): a stack
fault names a `top` that its check refuses, a memory fault an address out of range; the rest of a report is 0 but for the depth.
The depth of a nesting fault is left to `nestingFaultRecordsTheFirstForbiddenDepth`. -/
inductive FaultReport.TrueOf (k : Nat) (w : State) : FaultReport → Prop where
  | stack {c : Cause} {d : Nat} (hc : indexFault w.params.stackCap w.top = some c) (hd : d = 0 ∨ d = k) :
      TrueOf k w { cause := c, index := w.top, depth := d }
  | memory {a : Int} (ha : ¬ w.inMemory a) : TrueOf k w { cause := .memoryOutOfRange, addr := a, depth := k }
  | input : TrueOf k w { cause := .endOfInput, depth := k }
  | nesting {d : Nat} : TrueOf k w { cause := .nestingDepthExceeded, depth := d }

/-- `t` is a fault that was taken, with a true report of an operation at depth `k`, on a state at the program index of `s`. -/
def State.raises (s : State) (k : Nat) (t : State) : Prop :=
  ∃ w r, t = w.raise r ∧ w.pc = s.pc ∧ w.params = s.params ∧ FaultReport.TrueOf k w r

/-- A fault that an operation ends in was raised with a true report. -/
theorem exec_raises (hs : s.status.state ≠ .fault) (hx : exec i s = .next u) (hu : u.status.state = .fault) :
    s.raises s.depth u := by
  cases exec_end hx
  case pushRefused hc | accessRefused hc => exact ⟨_, _, rfl, rfl, rfl, .stack hc (.inr rfl)⟩
  case loadRefused hm | storeRefused hm => exact ⟨_, _, rfl, rfl, rfl, .memory hm⟩
  case inputEnded => exact ⟨_, _, rfl, rfl, rfl, .input⟩
  case tooDeep => exact ⟨_, _, rfl, rfl, rfl, .nesting⟩
  all_goals exact absurd hu hs

/-- A fault that RESUME and CHECK end in was raised with a true report, whose depth does not depend on the operation before. -/
theorem State.settle_raises (k : Nat) (hs : s.status.state ≠ .fault) (ht : s.settle.status.state = .fault) :
    s.raises k s.settle := by
  have hend := s.settle_end
  generalize s.settle = t at hend ht
  cases hend
  case outOfRange hc => exact ⟨_, _, rfl, rfl, rfl, .stack hc (.inl rfl)⟩
  case tooDeep => exact ⟨_, _, rfl, rfl, rfl, .nesting⟩
  all_goals exact absurd ht hs

/-- The fault of an operation ends the step; otherwise RESUME and CHECK raise it, at the same program index. -/
theorem exec_settle_raises (hs : s.status.state ≠ .fault) (hx : exec i s = .next u)
    (ht : u.settle.status.state = .fault) : s.raises s.depth u.settle := by
  by_cases hu : u.status.state = .fault
  · obtain ⟨w, r, rfl, hw⟩ := exec_raises hs hx hu
    exact ⟨w, r, rfl, hw⟩
  · obtain ⟨⟨hpar, -, -⟩, hpc⟩ := exec_launch hx
    obtain ⟨w, r, hr, hwpc, hwpar, htrue⟩ := State.settle_raises s.depth hu ht
    exact ⟨w, r, hr, hwpc.trans hpc, hwpar.trans hpar, htrue⟩

/-- A step from a running state that ends in a fault took it with a true report; an instruction fetched in the step is at the
depth 0 that the state had before. -/
theorem step_raises (hctl : s.ControlInv) (hs : s.status.state = .running) (h : step s = .next t)
    (ht : t.status.state = .fault) : s.raises s.depth t := by
  have hne : s.status.state ≠ .fault := by simp [hs]
  rcases step_cases h with ⟨-, rfl⟩ | ⟨-, -, -, rfl⟩ | ⟨-, hp, b, u, -, hu, rfl⟩ | ⟨-, -, i, u, -, hu, rfl⟩ |
    ⟨-, -, rfl⟩ | ⟨-, -, rfl⟩
  · exact absurd ht (by simp)
  · exact absurd ht (by simp)
  · obtain ⟨-, hdepth, -⟩ := hctl.between (.inl hp)
    rw [hdepth]
    exact exec_settle_raises (s := s.beginInstr (decodeByte b)) hne hu ht
  · exact exec_settle_raises hne hu ht
  · exact State.settle_raises s.depth hne ht
  · exact absurd ht hne

/-- Settles O42: the step took its fault with a true report, and `raise` puts the report in the registers; the depth of a nesting
fault is the one O32 states. -/
theorem faultRegistersMatchTheCause : Obligations.FaultRegistersMatchTheCause := by
  intro s t h hrun hstep hfault
  have hnesting := nestingFaultRecordsTheFirstForbiddenDepth.1 s t h hrun hstep
  obtain ⟨w, r, rfl, hpc, hpar, htrue⟩ := step_raises h.control hrun hstep hfault
  refine ⟨hpc, hpc, rfl, ?_⟩
  cases htrue with
  | stack hc hd =>
    rcases indexFault_cases w.params.stackCap w.top with ⟨hcause, hneg⟩ | ⟨hcause, hcap, -⟩ | ⟨hcause, -⟩ <;>
      rw [hcause] at hc <;> cases hc
    · exact .inl ⟨rfl, hneg, rfl, rfl, hd⟩
    · exact .inr (.inl ⟨rfl, hpar ▸ hcap, rfl, rfl, hd⟩)
  | memory ha => exact .inr (.inr (.inl ⟨rfl, by simpa [hpar] using ha, rfl, rfl⟩))
  | input => exact .inr (.inr (.inr (.inl ⟨rfl, rfl, rfl, rfl⟩)))
  | nesting => exact .inr (.inr (.inr (.inr ⟨rfl, rfl, rfl, hnesting rfl⟩)))

/-! ### The end of a run -/

/-- Settles O43: a step leaves an ended run as it is, and a reset starts a run from the reset state. -/
theorem endedRunsStayUntilReset : Obligations.EndedRunsStayUntilReset := fun _ hs =>
  ⟨fun hr => runSteps_of_step_self (step_of_halted hr hs), fun hr => ⟨_, step_of_rst hr, rfl, rfl, rfl⟩⟩

end Sys2Proof.Machine
end

section
/-! PROOFS. Idle polls taken out (rules R127, R128, R186): both hosts answer at once with the answers they had, and an operation
that answers does the same with them. -/

namespace Sys2Proof.Machine

variable {s t u : State} {r : UnitResult}

/-! ### The ports -/

/-- The input host without its silent polls, and the sink without its busy ones: the ports of `State.undelayed`. -/
def InputPort.undelayed (p : InputPort) : InputPort :=
  { p with events := p.events.filter (fun e => decide (e ≠ .silent)) }
def OutputPort.undelayed (p : OutputPort) : OutputPort :=
  { p with events := p.events.filter (fun e => decide (e ≠ .busy)) }

/-- A silent poll of the input changes no answer; it uses up an event, or the host stays silent without the idle polls too. -/
theorem InputPort.poll_silent_undelayed {p q : InputPort} (h : p.poll = (.silent, q)) :
    q.undelayed = p.undelayed ∧
      (q.events.length < p.events.length ∨ p.undelayed.poll = (.silent, p.undelayed)) := by
  rcases p.poll_cases with ⟨-, -, hp⟩ | ⟨hev, htail, hp⟩ | ⟨es, hev, hp⟩ | ⟨b, es, -, hp⟩ <;> rw [hp] at h <;> cases h
  · exact ⟨rfl, .inr (poll_of_silent_tail (by simp [undelayed, hev]) htail)⟩
  · exact ⟨by simp [undelayed, hev], .inl (by simp [hev])⟩

/-- Any other answer of the input host is its answer at once. -/
theorem InputPort.poll_undelayed {p q : InputPort} {a : InputAnswer} (ha : a ≠ .silent) (h : p.poll = (a, q)) :
    p.undelayed.poll = (a, q.undelayed) := by
  rcases p.poll_cases with ⟨hev, htail, hp⟩ | ⟨-, -, hp⟩ | ⟨es, -, hp⟩ | ⟨b, es, hev, hp⟩ <;> rw [hp] at h <;> cases h
  · exact poll_of_endOfInput (by simp [undelayed, hev]) htail
  · exact absurd rfl ha
  · exact absurd rfl ha
  · exact poll_of_byte (by simp [undelayed, hev])

/-- A busy sink changes no answer; it uses up an event, or the sink stays busy without the idle polls too. -/
theorem OutputPort.offer_busy_undelayed {p q : OutputPort} {x : Int} (h : p.offer x = (false, q)) :
    q.undelayed = p.undelayed ∧
      (q.events.length < p.events.length ∨ p.undelayed.offer x = (false, p.undelayed)) := by
  obtain ⟨es, tail, log⟩ := p
  rcases es with _ | ⟨_ | _, es⟩
  · cases tail <;> cases h
    exact ⟨rfl, .inr rfl⟩
  · cases h
  · cases h
    exact ⟨rfl, .inl (Nat.lt_succ_self _)⟩

/-- A word the sink takes, it takes at once. -/
theorem OutputPort.offer_undelayed {p q : OutputPort} {x : Int} (h : p.offer x = (true, q)) :
    p.undelayed.offer x = (true, q.undelayed) := by
  obtain ⟨es, tail, log⟩ := p
  rcases es with _ | ⟨_ | _, es⟩
  · cases tail <;> cases h
    rfl
  · cases h
    rfl
  · cases h

/-! ### The state -/

@[simp] theorem State.undelayed_top (s : State) : s.undelayed.top = s.top := rfl
@[simp] theorem State.undelayed_params (s : State) : s.undelayed.params = s.params := rfl
@[simp] theorem State.undelayed_topCell (s : State) : s.undelayed.topCell = s.topCell := rfl
@[simp] theorem State.undelayed_input (s : State) : s.undelayed.input = s.input.undelayed := rfl
@[simp] theorem State.undelayed_output (s : State) : s.undelayed.output = s.output.undelayed := rfl
@[simp] theorem State.undelayed_setTop (s : State) (x : Int) : s.undelayed.setTop x = (s.setTop x).undelayed := rfl
@[simp] theorem State.undelayed_stackRead (s : State) (k : Nat) (i : Int) :
    s.undelayed.stackRead k i = s.stackRead k i := rfl
@[simp] theorem State.undelayed_memRead (s : State) (k : Nat) (a : Int) : s.undelayed.memRead k a = s.memRead k a := rfl

@[simp] theorem State.undelayed_stackWrite (s : State) (k : Nat) (i x : Int) :
    s.undelayed.stackWrite k i x = (s.stackWrite k i x).map State.undelayed := by
  by_cases hi : s.inStack i
  · rw [s.stackWrite_ok k x hi, s.undelayed.stackWrite_ok k x hi]; rfl
  · rw [s.stackWrite_refused k x hi, s.undelayed.stackWrite_refused k x hi]; rfl

@[simp] theorem State.undelayed_memWrite (s : State) (k : Nat) (a x : Int) :
    s.undelayed.memWrite k a x = (s.memWrite k a x).map State.undelayed := by
  by_cases hm : s.inMemory a
  · rw [s.memWrite_ok k x hm, s.undelayed.memWrite_ok k x hm]; rfl
  · rw [s.memWrite_refused k x hm, s.undelayed.memWrite_refused k x hm]; rfl

theorem State.undelayed_undelayed (s : State) : s.undelayed.undelayed = s.undelayed := by
  simp [State.undelayed]

/-- What a run leaves, as `RunsDoNotDependOnPortDelays` compares it: no idle polls and no control fields of the FSM. -/
def State.timeless (s : State) : State := s.undelayed.arch

/-- What reads neither control fields nor idle polls is the same for states that agree up to those. -/
theorem State.eq_of_timeless_eq {α : Type} (g : State → α) (hg : ∀ a : State, g a.timeless = g a)
    (h : s.timeless = t.timeless) : g s = g t := by
  rw [← hg s, h, hg t]

/-! ### The results -/

/-- A result with the idle polls of its state taken out. -/
def UnitResult.undelayed : UnitResult → UnitResult
  | .done s => .done s.undelayed
  | .raised s => .raised s.undelayed
  | .waiting s => .waiting s.undelayed

/-- What a run leaves of a result: `State.timeless` of its state. -/
def UnitResult.timeless (r : UnitResult) : UnitResult := r.undelayed.arch

/-- The operation is over: it does not wait. -/
def UnitResult.ended : UnitResult → Prop
  | .done _ | .raised _ => True
  | .waiting _ => False

@[simp] theorem UnitResult.ended_arch (r : UnitResult) : r.arch.ended ↔ r.ended := by cases r <;> rfl
@[simp] theorem UnitResult.ended_undelayed (r : UnitResult) : r.undelayed.ended ↔ r.ended := by cases r <;> rfl

theorem UnitResult.timeless_eq_done (h : r.timeless = (UnitResult.done s).timeless) :
    ∃ t, r = .done t ∧ t.timeless = s.timeless := by
  cases r with
  | done t => exact ⟨t, rfl, UnitResult.done.inj h⟩
  | raised t | waiting t => exact nomatch h

theorem UnitResult.timeless_eq_raised (h : r.timeless = (UnitResult.raised s).timeless) :
    ∃ t, r = .raised t ∧ t.timeless = s.timeless := by
  cases r with
  | raised t => exact ⟨t, rfl, UnitResult.raised.inj h⟩
  | done t | waiting t => exact nomatch h

/-! ### The units -/

/-- How many poll events the hosts have listed. -/
def State.listedPolls (s : State) : Nat := s.input.events.length + s.output.events.length

/-- From `s` the unit does what it does with hosts that answer at once; or it waits, the wait has the same answer ahead, and it
uses up a poll unless there is no answer to come. -/
inductive AnswersAsAtOnce (unit : State → UnitResult) (s : State) : Prop where
  | ended (he : (unit s).ended) (heq : unit s.undelayed = (unit s).undelayed)
  | waits {u : State} (hu : unit s = .waiting u) (hsame : (unit u.undelayed).arch = (unit s.undelayed).arch)
      (hless : u.listedPolls < s.listedPolls ∨ ¬ (unit s.undelayed).ended)

theorem pushUnit_answersAsAtOnce (k : Nat) (v : Int) (s : State) : AnswersAsAtOnce (pushUnit k v) s := by
  have heq : pushUnit k v s.undelayed = (pushUnit k v s).undelayed := by
    simp only [pushUnit, State.wrap, State.width, State.undelayed_top, State.undelayed_params, State.undelayed_setTop,
      State.undelayed_stackWrite]
    cases State.stackWrite _ k _ v <;> rfl
  refine .ended ?_ heq
  rcases pushUnit_cases k v s with ⟨c, -, h⟩ | ⟨-, h⟩ <;> rw [h] <;> trivial

theorem addUnit_answersAsAtOnce (k : Nat) (v : Int) (s : State) : AnswersAsAtOnce (addUnit k v) s := by
  have heq : addUnit k v s.undelayed = (addUnit k v s).undelayed := by
    simp only [addUnit, State.wrap, State.width, State.undelayed_top, State.undelayed_params, State.undelayed_stackRead,
      State.undelayed_stackWrite]
    cases s.stackRead k s.top with
    | error rep => rfl
    | ok x => dsimp only; cases State.stackWrite _ k _ _ <;> rfl
  refine .ended ?_ heq
  rcases addUnit_cases k v s with ⟨c, -, h⟩ | ⟨-, h⟩ <;> rw [h] <;> trivial

theorem loadMemory_answersAsAtOnce (k : Nat) (v : Int) (s : State) : AnswersAsAtOnce (loadMemory k v) s := by
  have heq : loadMemory k v s.undelayed = (loadMemory k v s).undelayed := by
    simp only [loadMemory, State.width, State.undelayed_top, State.undelayed_params, State.undelayed_stackRead,
      State.undelayed_memRead, State.undelayed_stackWrite]
    cases s.stackRead k s.top with
    | error rep => rfl
    | ok x =>
      dsimp only
      cases s.memRead k (loadAddress s.params.width v x) with
      | error rep => rfl
      | ok y => dsimp only; cases s.stackWrite k s.top y <;> rfl
  refine .ended ?_ heq
  rcases loadMemory_cases k v s with ⟨c, -, h⟩ | ⟨-, -, h⟩ | ⟨-, -, h⟩ <;> rw [h] <;> trivial

/-- What the input path of Load makes of the host's answer, with `p` left at the port (rules R120, R125 to R127). -/
def State.answerInput (s : State) (k : Nat) (p : InputPort) : InputAnswer → UnitResult
  | .silent => .waiting (s.awaitInput p)
  | .endOfInput => .raised ((s.inputAnswered p).raise { cause := .endOfInput, depth := k })
  | .byte b => .done { s.inputAnswered p with stk := Memory.write s.stk s.top.toNat (inputWord b) }

theorem loadInput_of_inStack (k : Nat) (hi : s.inStack s.top) :
    loadInput k s = s.answerInput k s.input.poll.2 s.input.poll.1 := by
  simp only [loadInput, State.stackRead_ok k hi]
  rcases s.input.poll with ⟨_ | b | _, p⟩
  · rfl
  · dsimp only
    rw [State.stackWrite_ok (s := s.inputAnswered p) k _ hi]
    rfl
  · rfl

theorem loadInput_of_not_inStack (k : Nat) (hout : ¬ s.inStack s.top) :
    loadInput k s = .raised (s.raise { cause := stackCause s.top, index := s.top, depth := k }) := by
  rw [loadInput, State.stackRead_refused k hout]

theorem State.answerInput_undelayed (s : State) (k : Nat) (p : InputPort) (a : InputAnswer) :
    s.undelayed.answerInput k p.undelayed a = (s.answerInput k p a).undelayed := by
  cases a <;> rfl

/-- Asking for input again from the wait is asking as before: the wait changes only what every answer overwrites. -/
theorem loadInput_awaitInput (k : Nat) (s : State) :
    (loadInput k (s.awaitInput s.input)).arch = (loadInput k s).arch := by
  by_cases hi : s.inStack s.top
  · rw [loadInput_of_inStack k hi, loadInput_of_inStack (s := s.awaitInput s.input) k hi, State.awaitInput_input]
    cases s.input.poll.1 <;> rfl
  · rw [loadInput_of_not_inStack k hi, loadInput_of_not_inStack (s := s.awaitInput s.input) k hi]
    rfl

theorem loadInput_answersAsAtOnce (k : Nat) (s : State) : AnswersAsAtOnce (loadInput k) s := by
  by_cases hi : s.inStack s.top
  case neg =>
    have h := loadInput_of_not_inStack k hi
    exact .ended (h ▸ trivial) (h ▸ loadInput_of_not_inStack (s := s.undelayed) k hi)
  have hu := loadInput_of_inStack (s := s.undelayed) k hi
  have h := loadInput_of_inStack k hi
  rcases hp : s.input.poll with ⟨a, p⟩
  rw [hp] at h
  by_cases ha : a = .silent
  case neg =>
    rw [State.undelayed_input, InputPort.poll_undelayed ha hp, State.answerInput_undelayed, ← h] at hu
    refine .ended ?_ hu
    rw [h]
    cases a
    case silent => exact absurd rfl ha
    case byte | endOfInput => trivial
  subst ha
  obtain ⟨hsame, hless⟩ := InputPort.poll_silent_undelayed hp
  refine .waits h ?_ (hless.imp (fun hl => Nat.add_lt_add_right hl _) fun hs => ?_)
  · have hwait : (s.awaitInput p).undelayed = s.undelayed.awaitInput s.undelayed.input :=
      congrArg s.undelayed.awaitInput hsame
    rw [hwait, loadInput_awaitInput]
  · rw [hu, State.undelayed_input, hs]
    exact id

theorem loadUnit_answersAsAtOnce (k : Nat) (v : Int) (s : State) : AnswersAsAtOnce (loadUnit k v) s := by
  by_cases hv : v = 0
  · rw [show loadUnit k v = loadInput k from funext fun _ => if_neg (not_not.2 hv)]
    exact loadInput_answersAsAtOnce k s
  · rw [show loadUnit k v = loadMemory k v from funext fun _ => if_pos hv]
    exact loadMemory_answersAsAtOnce k v s

/-- What the output path of Store makes of the sink's answer, with `p` left at the port (rules R121, R128). -/
def State.answerOutput (s : State) (p : OutputPort) : Bool → UnitResult
  | false => .waiting { s with output := p, phase := .waitOut }
  | true => .done { s with output := p, top := s.wrap (s.top - 1) }

theorem storeUnit_zero_of_inStack (k : Nat) (hi : s.inStack s.top) :
    storeUnit k 0 s = s.answerOutput (s.output.offer s.topCell).2 (s.output.offer s.topCell).1 := by
  simp only [storeUnit, State.stackRead_ok k hi, ne_eq, not_true_eq_false, if_false]
  rcases s.output.offer s.topCell with ⟨_ | _, p⟩ <;> rfl

theorem storeUnit_of_not_inStack (k : Nat) (v : Int) (hout : ¬ s.inStack s.top) :
    storeUnit k v s = .raised (s.raise { cause := stackCause s.top, index := s.top, depth := k }) := by
  rw [storeUnit, State.stackRead_refused k hout]

/-- The memory path of Store touches no port. -/
theorem storeUnit_answersAsAtOnce_of_ne_zero {v : Int} (hv : v ≠ 0) (k : Nat) (s : State) :
    AnswersAsAtOnce (storeUnit k v) s := by
  have heq : storeUnit k v s.undelayed = (storeUnit k v s).undelayed := by
    simp only [storeUnit, if_pos hv, State.undelayed_top, State.undelayed_stackRead, State.undelayed_memWrite]
    cases s.stackRead k s.top with
    | error rep => rfl
    | ok x => dsimp only; cases s.memWrite k (storeAddress v) x <;> rfl
  refine .ended ?_ heq
  rcases storeUnit_cases k v s with ⟨c, -, h⟩ | ⟨-, -, -, h⟩ | ⟨-, -, -, h⟩ | ⟨-, hv0, -⟩ | ⟨-, hv0, -⟩
  · exact h ▸ trivial
  · exact h ▸ trivial
  · exact h ▸ trivial
  · exact absurd hv0 hv
  · exact absurd hv0 hv

/-- The output path of Store: an answer of the sink is its answer at once, and a busy sink leaves the same state but for the
phase. -/
theorem storeUnit_zero_answersAsAtOnce (k : Nat) (s : State) : AnswersAsAtOnce (storeUnit k 0) s := by
  by_cases hi : s.inStack s.top
  case neg =>
    have h := storeUnit_of_not_inStack k 0 hi
    exact .ended (h ▸ trivial) (h ▸ storeUnit_of_not_inStack (s := s.undelayed) k 0 hi)
  have h := storeUnit_zero_of_inStack k hi
  have hu := storeUnit_zero_of_inStack (s := s.undelayed) k hi
  rw [State.undelayed_output, State.undelayed_topCell] at hu
  rcases hp : s.output.offer s.topCell with ⟨_ | _, p⟩ <;> rw [hp] at h
  · obtain ⟨hsame, hless⟩ := OutputPort.offer_busy_undelayed hp
    refine .waits h ?_ (hless.imp (fun hl => Nat.add_lt_add_left hl _) fun hs => ?_)
    · have hwait : State.arch (State.undelayed { s with output := p, phase := .waitOut }) = s.undelayed.arch :=
        congrArg (fun q => State.arch { s.undelayed with output := q }) hsame
      rw [← storeUnit_arch, hwait, storeUnit_arch]
    · rw [hu, hs]
      exact id
  · rw [OutputPort.offer_undelayed hp] at hu
    exact .ended (h ▸ trivial) (h ▸ hu)

theorem storeUnit_answersAsAtOnce (k : Nat) (v : Int) (s : State) : AnswersAsAtOnce (storeUnit k v) s := by
  by_cases hv : v = 0
  · exact hv ▸ storeUnit_zero_answersAsAtOnce k s
  · exact storeUnit_answersAsAtOnce_of_ne_zero hv k s

end Sys2Proof.Machine
end

section
/-! PROOFS. The recursive pseudocode without delays (rule R186): an operation that ends from one state ends the same from every
state that differs only in idle polls and control fields, with enough fuel for the polls of that state. -/

namespace Sys2Proof.Machine

open Filter

variable {s t s1 : State} {r : UnitResult} {fuel k n : Nat} {op : Opcode} {v : Int}

/-! ### Enough fuel -/

/-- With enough fuel, `run` ends as `r` does, up to control fields and idle polls. -/
def EndsAs (run : Nat → Option UnitResult) (r : UnitResult) : Prop :=
  ∃ r', (∀ᶠ g in atTop, run g = some r') ∧ r'.timeless = r.timeless

theorem eventually_of_succ {p : Nat → Prop} (h : ∀ᶠ g in atTop, p (g + 1)) : ∀ᶠ g in atTop, p g := by
  rw [← map_add_atTop_eq_nat 1]
  exact h

theorem EndsAs.of_eq {r' : UnitResult} {run : Nat → Option UnitResult} (h : ∀ g, run g = some r')
    (hr : r'.timeless = r.timeless) : EndsAs run r :=
  ⟨r', .of_forall h, hr⟩

theorem EndsAs.of_succ {run : Nat → Option UnitResult} (h : EndsAs (fun g => run (g + 1)) r) : EndsAs run r := by
  obtain ⟨r', hr', htime⟩ := h
  exact ⟨r', eventually_of_succ hr', htime⟩

/-! ### Operations that may wait -/

/-- `run` is the pseudocode's loop around `unit`: ask, and while the unit waits ask again (rules R127, R128). -/
structure Asks (unit : State → UnitResult) (run : Nat → State → Option UnitResult) : Prop where
  zero : ∀ s, run 0 s = none
  succ : ∀ fuel s, run (fuel + 1) s = (unit s).orAgain (run fuel)
  answers : ∀ s, AnswersAsAtOnce unit s

theorem UnitResult.orAgain_of_ended {q : UnitResult} {again : State → Option UnitResult} (h : q.ended) :
    q.orAgain again = some q := by
  cases q with
  | done u | raised u => rfl
  | waiting u => exact h.elim

section
variable {unit : State → UnitResult} {run : Nat → State → Option UnitResult}

/-- Whatever the loop ends in is what the unit answers when the hosts answer at once. -/
theorem Asks.ended (ha : Asks unit run) (h : run fuel s = some r) : r.ended ∧ (unit s.undelayed).arch = r.timeless := by
  induction fuel generalizing s with
  | zero => rw [ha.zero] at h; cases h
  | succ fuel ih =>
    rw [ha.succ] at h
    cases ha.answers s with
    | ended he heq =>
      rw [UnitResult.orAgain_of_ended he] at h
      cases h
      exact ⟨he, congrArg UnitResult.arch heq⟩
    | waits hu hsame _ =>
      rw [hu] at h
      obtain ⟨he, hr⟩ := ih h
      exact ⟨he, hsame.symm.trans hr⟩

/-- Where the unit answers when the hosts answer at once, the loop ends, by induction on the polls still listed. -/
theorem Asks.endsAs (ha : Asks unit run) (he : r.ended) (h : (unit s.undelayed).arch = r.timeless) :
    EndsAs (fun g => run g s) r := by
  induction hn : s.listedPolls using Nat.strong_induction_on generalizing s with
  | _ n ih =>
    refine .of_succ ?_
    simp only [ha.succ]
    cases ha.answers s with
    | ended hended heq =>
      exact .of_eq (fun _ => UnitResult.orAgain_of_ended hended) ((congrArg UnitResult.arch heq).symm.trans h)
    | waits hu hsame hless =>
      have hans : (unit s.undelayed).ended := by
        rw [← UnitResult.ended_arch, h]
        exact (UnitResult.ended_arch _).2 ((UnitResult.ended_undelayed r).2 he)
      rw [hu]
      exact ih _ (hn ▸ hless.resolve_right (not_not.2 hans)) (hsame.trans h) rfl

/-- The loop ends alike from states that differ in control fields and idle polls. -/
theorem Asks.congr (ha : Asks unit run) (harch : ∀ s, (unit s.arch).arch = (unit s).arch)
    (hst : s.timeless = t.timeless) (h : run fuel s = some r) : EndsAs (fun g => run g t) r := by
  obtain ⟨he, hr⟩ := ha.ended h
  refine ha.endsAs he ?_
  calc (unit t.undelayed).arch = (unit t.timeless).arch := (harch _).symm
    _ = (unit s.timeless).arch := by rw [hst]
    _ = (unit s.undelayed).arch := harch _
    _ = r.timeless := hr

end

theorem asks_push (k : Nat) (v : Int) : Asks (pushUnit k v) (fun g => execute g k .push v) where
  zero _ := rfl
  succ _ s := by
    rcases pushUnit_cases k v s with ⟨c, -, h⟩ | ⟨-, h⟩ <;> simp only [execute, h] <;> rfl
  answers := pushUnit_answersAsAtOnce k v

theorem asks_pop (k : Nat) (v : Int) : Asks (popUnit v) (fun g => execute g k .pop v) where
  zero _ := rfl
  succ _ _ := rfl
  answers _ := .ended trivial rfl

theorem asks_add (k : Nat) (v : Int) : Asks (addUnit k v) (fun g => execute g k .add v) where
  zero _ := rfl
  succ _ s := by
    rcases addUnit_cases k v s with ⟨c, -, h⟩ | ⟨-, h⟩ <;> simp only [execute, h] <;> rfl
  answers := addUnit_answersAsAtOnce k v

theorem asks_load (k : Nat) (v : Int) : Asks (loadUnit k v) (fun g => execute g k .load v) where
  zero _ := rfl
  succ g s := execute_load g k v s
  answers := loadUnit_answersAsAtOnce k v

theorem asks_store (k : Nat) (v : Int) : Asks (storeUnit k v) (fun g => execute g k .store v) where
  zero _ := rfl
  succ g s := execute_store g k v s
  answers := storeUnit_answersAsAtOnce k v

/-! ### Descriptors, dispatches and Repeat's loop -/

/-- A fault is raised alike on states that differ in control fields and idle polls. -/
theorem State.raise_timeless_congr (h : s.timeless = t.timeless) (rep : FaultReport) :
    (s.raise rep).timeless = (t.raise rep).timeless :=
  congrArg (fun a => (a.raise rep).arch) h

theorem State.topInStack_congr (h : s.timeless = t.timeless) : s.inStack s.top ↔ t.inStack t.top :=
  Iff.of_eq (State.eq_of_timeless_eq (fun a => a.inStack a.top) (fun _ => rfl) h)

theorem State.setTop_timeless_congr (h : s.timeless = t.timeless) (x : Int) :
    (s.setTop x).timeless = (t.setTop x).timeless :=
  congrArg (fun a => a.setTop x) h

/-- A descriptor is refused or popped alike from states that differ in control fields and idle polls. -/
theorem popDescriptor_congr (k : Nat) (h : s.timeless = t.timeless) :
    (∃ rep, s.popDescriptor k = .error rep ∧ t.popDescriptor k = .error rep) ∨
    (∃ d x, s.popDescriptor k = .ok (d, s.setTop x) ∧ t.popDescriptor k = .ok (d, t.setTop x)) := by
  have htop : t.top = s.top := State.eq_of_timeless_eq State.top (fun _ => rfl) h.symm
  have hpar : t.params = s.params := State.eq_of_timeless_eq State.params (fun _ => rfl) h.symm
  have hcell : t.topCell = s.topCell := State.eq_of_timeless_eq State.topCell (fun _ => rfl) h.symm
  by_cases hi : s.inStack s.top
  · refine .inr ⟨_, _, State.popDescriptor_ok k hi, ?_⟩
    rw [State.popDescriptor_ok k ((State.topInStack_congr h).1 hi), hcell, State.wrap, State.width, htop, hpar]
  · refine .inl ⟨_, State.popDescriptor_refused k hi, ?_⟩
    rw [State.popDescriptor_refused k (mt (State.topInStack_congr h).2 hi), htop]

/-- A composition whose descriptor is refused raises the stack fault on both sides (rule R85). -/
theorem endsAs_of_refused_descriptor {rep : FaultReport} (hop : op = .rep ∨ op = .extend ∨ op = .conditional)
    (hst : s.timeless = t.timeless) (hs : s.popDescriptor k = .error rep) (ht : t.popDescriptor k = .error rep)
    (h : execute (fuel + 1) k op v s = some r) : EndsAs (fun g => execute g k op v t) r := by
  refine .of_succ (.of_eq (r' := .raised (t.raise rep)) (fun g => ?_) ?_)
  · rcases hop with rfl | rfl | rfl <;> simp only [execute, ht]
  · rcases hop with rfl | rfl | rfl <;> simp only [execute, hs] at h <;> cases h <;>
      exact congrArg UnitResult.raised (State.raise_timeless_congr hst.symm rep)

/-- Every operation that ends with this fuel ends alike from every state that differs only in control fields and idle polls. -/
def DelayFree (fuel : Nat) : Prop :=
  ∀ (k : Nat) (op : Opcode) (v : Int) (s t : State) (r : UnitResult), s.timeless = t.timeless →
    execute fuel k op v s = some r → EndsAs (fun g => execute g k op v t) r

/-- An inner dispatch ends alike: the depth is refused or allowed alike (rule R82). -/
theorem DelayFree.dispatchCall (ih : DelayFree fuel) (hst : s.timeless = t.timeless)
    (h : Machine.dispatchCall (execute fuel) k op v s = some r) :
    EndsAs (fun g => Machine.dispatchCall (execute g) k op v t) r := by
  have hpar : s.params = t.params := State.eq_of_timeless_eq State.params (fun _ => rfl) hst
  simp only [Machine.dispatchCall, ← hpar] at h ⊢
  split at h
  case isTrue ha =>
    simp only [if_pos ha]
    exact ih _ _ _ _ _ _ hst h
  case isFalse ha =>
    cases h
    simp only [if_neg ha]
    exact .of_eq (fun _ => rfl) (congrArg UnitResult.raised (State.raise_timeless_congr hst.symm _))

theorem repeatLoop_succ_of_done {body : State → Option UnitResult} (h : body s = some (.done t)) :
    repeatLoop body (n + 1) s = repeatLoop body n t := by
  rw [repeatLoop, h]

theorem repeatLoop_succ_of_not_done {body : State → Option UnitResult} (h : body s = some r) (hr : ¬ ∃ u, r = .done u) :
    repeatLoop body (n + 1) s = some r := by
  rw [repeatLoop, h]
  cases r with
  | done u => exact absurd ⟨u, rfl⟩ hr
  | raised u | waiting u => rfl

/-- Repeat's loop ends alike: each iteration does, by induction on their number. -/
theorem DelayFree.repeatLoop (ih : DelayFree fuel) (hst : s.timeless = t.timeless)
    (h : Machine.repeatLoop (Machine.dispatchCall (execute fuel) k op v) n s = some r) :
    EndsAs (fun g => Machine.repeatLoop (Machine.dispatchCall (execute g) k op v) n t) r := by
  induction n generalizing s t with
  | zero =>
    cases h
    exact .of_eq (fun _ => rfl) (congrArg UnitResult.done hst.symm)
  | succ n ihn =>
    cases hbody : Machine.dispatchCall (execute fuel) k op v s with
    | none => rw [Machine.repeatLoop, hbody] at h; cases h
    | some q =>
      obtain ⟨q', hq', htime⟩ := ih.dispatchCall hst hbody
      by_cases hdone : ∃ u, q = .done u
      · obtain ⟨u, rfl⟩ := hdone
        obtain ⟨u', rfl, hu⟩ := UnitResult.timeless_eq_done htime
        rw [repeatLoop_succ_of_done hbody] at h
        obtain ⟨r', hr', hrtime⟩ := ihn hu.symm h
        refine ⟨r', ?_, hrtime⟩
        filter_upwards [hq', hr'] with g hg hrest
        exact (repeatLoop_succ_of_done hg).trans hrest
      · have hdone' : ¬ ∃ u, q' = .done u := by
          rintro ⟨u, rfl⟩
          obtain ⟨u', hu', -⟩ := UnitResult.timeless_eq_done htime.symm
          exact hdone ⟨u', hu'⟩
        rw [repeatLoop_succ_of_not_done hbody hdone] at h
        cases h
        exact ⟨q', hq'.mono fun g hg => repeatLoop_succ_of_not_done hg hdone', htime⟩

/-! ### Every operation -/

/-- Every operation is free of delays, by induction on its fuel: an inner operation has one less. -/
theorem delayFree (fuel : Nat) : DelayFree fuel := by
  induction fuel with
  | zero => intro k op v s t r _ h; cases h
  | succ fuel ih =>
    intro k op v s t r hst h
    cases op with
    | push => exact (asks_push k v).congr (pushUnit_arch k v) hst h
    | pop => exact (asks_pop k v).congr (fun _ => rfl) hst h
    | add => exact (asks_add k v).congr (addUnit_arch k v) hst h
    | load => exact (asks_load k v).congr (loadUnit_arch k v) hst h
    | store => exact (asks_store k v).congr (storeUnit_arch k v) hst h
    | rep =>
      rcases popDescriptor_congr k hst with ⟨rep, hs, ht⟩ | ⟨d, x, hs, ht⟩
      · exact endsAs_of_refused_descriptor (.inl rfl) hst hs ht h
      · refine .of_succ ?_
        simp only [execute, hs, ht] at h ⊢
        exact ih.repeatLoop (State.setTop_timeless_congr hst x) h
    | extend =>
      have hwidth : t.width = s.width := State.eq_of_timeless_eq State.width (fun _ => rfl) hst.symm
      rcases popDescriptor_congr k hst with ⟨rep, hs, ht⟩ | ⟨d, x, hs, ht⟩
      · exact endsAs_of_refused_descriptor (.inr (.inl rfl)) hst hs ht h
      · refine .of_succ ?_
        simp only [execute, hs, ht, hwidth] at h ⊢
        exact ih.dispatchCall (State.setTop_timeless_congr hst x) h
    | conditional =>
      rcases popDescriptor_congr k hst with ⟨rep, hs, ht⟩ | ⟨d, x, hs, ht⟩
      · exact endsAs_of_refused_descriptor (.inr (.inr rfl)) hst hs ht h
      · refine .of_succ ?_
        have hpop := State.setTop_timeless_congr hst x
        simp only [execute, hs, ht] at h ⊢
        by_cases hpos : 0 < d.2
        · simp only [if_pos hpos] at h ⊢
          exact ih.dispatchCall hpop h
        · simp only [if_neg hpos] at h ⊢
          cases h
          exact .of_eq (fun _ => rfl) (congrArg UnitResult.done hpop.symm)

end Sys2Proof.Machine
end

section
/-! PROOFS. Whole runs without delays (rules R140, R186): `interpret` ends from a state exactly when it ends without the idle
polls, and leaves the same. -/

namespace Sys2Proof.Machine

open Filter

variable {s t u v : State} {b : Byte} {fuel : Nat}

/-! ### One turn of the pseudocode's loop -/

theorem interpret_of_consumed (fuel : Nat) (hb : s.fetchByte = none) : interpret (fuel + 1) s = some s.succeed := by
  rw [interpret, hb]

section
variable (hb : s.fetchByte = some b)
include hb

theorem interpret_of_done_out (he : execute fuel 0 (decodeByte b).opcode (decodeByte b).value s = some (.done v))
    (hout : ¬ v.inStack v.top) :
    interpret (fuel + 1) s = some (v.raise { cause := stackCause v.top, index := v.top, depth := 0 }) := by
  simp only [interpret, hb, he, indexFault_of_not_inStack hout]

theorem interpret_of_done_in (he : execute fuel 0 (decodeByte b).opcode (decodeByte b).value s = some (.done v))
    (hin : v.inStack v.top) : interpret (fuel + 1) s = interpret fuel { v with pc := v.pc + 1 } := by
  simp only [interpret, hb, he, (indexFault_none _ _).2 hin]

theorem interpret_of_raised (he : execute fuel 0 (decodeByte b).opcode (decodeByte b).value s = some (.raised v)) :
    interpret (fuel + 1) s = some v := by
  simp only [interpret, hb, he]

end

/-! ### Whole runs -/

/-- A run that ends from `s` ends alike from every state that differs only in control fields and idle polls, by induction on its
fuel. -/
theorem interpret_congr (hst : s.timeless = t.timeless) (h : interpret fuel s = some u) :
    ∃ u', (∀ᶠ g in atTop, interpret g t = some u') ∧ u'.timeless = u.timeless := by
  induction fuel generalizing s t with
  | zero => cases h
  | succ fuel ih =>
    have hbyte : t.fetchByte = s.fetchByte := State.eq_of_timeless_eq State.fetchByte (fun _ => rfl) hst.symm
    rcases interpret_cases h with ⟨hb, rfl⟩ | ⟨b, r, hb, he, hend⟩
    · refine ⟨t.succeed, eventually_of_succ (.of_forall fun g => interpret_of_consumed g (hbyte.trans hb)), ?_⟩
      exact congrArg (fun a => a.succeed.arch) hst.symm
    obtain ⟨r', hr', htime⟩ := delayFree fuel _ _ _ _ _ _ hst he
    rcases hend with ⟨v, rfl, hout, rfl⟩ | ⟨v, rfl, hin, hrest⟩ | rfl
    · obtain ⟨v', rfl, hv⟩ := UnitResult.timeless_eq_done htime
      have hout' := mt (State.topInStack_congr hv).1 hout
      refine ⟨_, eventually_of_succ (hr'.mono fun g hg => interpret_of_done_out (hbyte.trans hb) hg hout'), ?_⟩
      rw [State.eq_of_timeless_eq State.top (fun _ => rfl) hv]
      exact State.raise_timeless_congr hv _
    · obtain ⟨v', rfl, hv⟩ := UnitResult.timeless_eq_done htime
      have hadvanced : State.timeless { v with pc := v.pc + 1 } = State.timeless { v' with pc := v'.pc + 1 } :=
        congrArg (fun a => { a with pc := a.pc + 1 }) hv.symm
      obtain ⟨u', hu', hutime⟩ := ih hadvanced hrest
      refine ⟨u', eventually_of_succ ?_, hutime⟩
      filter_upwards [hr', hu'] with g hg hrun
      exact (interpret_of_done_in (hbyte.trans hb) hg ((State.topInStack_congr hv).2 hin)).trans hrun
    · obtain ⟨u', rfl, hu⟩ := UnitResult.timeless_eq_raised htime
      exact ⟨u', eventually_of_succ (hr'.mono fun g hg => interpret_of_raised (hbyte.trans hb) hg), hu⟩

theorem State.timeless_undelayed (s : State) : s.undelayed.timeless = s.timeless :=
  congrArg State.arch s.undelayed_undelayed

/-- Settles O48: a state and the same state without idle polls differ in nothing else, so runs carry over both ways. -/
theorem runsDoNotDependOnPortDelays : Obligations.RunsDoNotDependOnPortDelays := by
  intro s
  refine ⟨fun fuel t h => ?_, fun m u h => ?_⟩
  · obtain ⟨u, hu, htime⟩ := interpret_congr s.timeless_undelayed.symm h
    obtain ⟨m, hm⟩ := hu.exists
    exact ⟨m, u, hm, htime⟩
  · obtain ⟨t, ht, htime⟩ := interpret_congr s.timeless_undelayed h
    obtain ⟨fuel, hfuel⟩ := ht.exists
    exact ⟨fuel, t, hfuel, htime⟩

end Sys2Proof.Machine
end

section
/-! PROOFS. Reset (rules R36, R180). -/

namespace Sys2Proof.Machine

/-- STATUS at reset reads as 0: RUNNING, not waiting, no cause (rule R29). -/
theorem Status.word_of_reset : Status.word { state := .running, waitIn := false, cause := .none } = 0 := by decide

/-- Settles O44: reset is served first, and both cell arrays are then without entries. -/
theorem resetEstablishesTheResetState : Obligations.ResetEstablishesTheResetState := fun _ hr =>
  ⟨_, step_of_rst hr, Memory.read_nil, rfl, Memory.read_nil, rfl, Status.word_of_reset, rfl, rfl, rfl, rfl, rfl, rfl, rfl,
    rfl⟩

end Sys2Proof.Machine
end

section
/-! PROOFS. The opcode table's words (rules R61 to R63): the decoder reads a table word as the byte it is. -/

namespace Sys2Proof

/-- Eight table bits are the whole byte. -/
theorem decodeTableWord_toNat (b : Byte) : decodeTableWord 8 b.toNat = some (decodeByte b) := by
  rw [decodeTableWord, Nat.mod_eq_of_lt b.isLt, BitVec.ofNat_toNat, BitVec.setWidth_eq, decode]

/-- A table word put together from an immediate and three opcode bits. -/
theorem decodeTableWord_append (imm : BitVec 5) (n : BitVec 3) :
    decodeTableWord 8 (imm ++ n).toNat = some ((Opcode.ofBits n).instr imm.toNat) :=
  (decodeTableWord_toNat _).trans (congrArg some (decodeByte_append imm n))

/-- Settles O3: each word is the immediate written before the row's three opcode bits. -/
theorem writtenOutWordsDecode : Obligations.WrittenOutWordsDecode :=
  ⟨decodeTableWord_append 5 0, decodeTableWord_append 2 1, decodeTableWord_append 3 2, decodeTableWord_append 5 3,
    decodeTableWord_append 11 4, decodeTableWord_append 20 5, decodeTableWord_append 6 6, decodeTableWord_append 31 7⟩

end Sys2Proof
end
